-- ==== Sys2Proof/Word.lean ====
section
/-! DEFINITION. Word.lean: the word types of the GEMM8 block. Registers, commands and accumulator cells are
32 bits wide (R100, R140), bytes 8 bits (R200). -/

namespace Sys2Proof

/-- A 32-bit pattern: a register (R100), a command word (R300), an accumulator cell (R140). -/
abbrev Word := BitVec 32

/-- One byte of the memory the engine and the host share (R200). -/
abbrev Byte := BitVec 8

end Sys2Proof
end

