-- ==== Sys2Proof/Syntax.lean ====
section
/-! DEFINITION. Syntax.lean: the commands of the block. The block has no instruction stream; its only instruction is the
32-bit command word written to CMD (30_encoding.md), one constructor of `Instr` per row of the opcode table. -/

namespace Sys2Proof

/-- The four FLAGS bits of a command word, bits 8 to 11 (R301). -/
structure Flags where
  /-- HAS_BIAS, bit 8. -/
  bias : Bool
  /-- HAS_LHS_SUMS, bit 9. -/
  lsums : Bool
  /-- HAS_RHS_SUMS, bit 10. -/
  rsums : Bool
  /-- PERCHANNEL, bit 11. -/
  perch : Bool
deriving DecidableEq, Repr, Inhabited

/-- The commands of R303. Their operands are the descriptor registers, so a command carries only its flags (R302). -/
inductive Instr where
  /-- `nop` (R400). -/
  | nop
  /-- `gemm_q.u8` (R401). -/
  | gemmQU8 (f : Flags)
  /-- `gemm_q.i8` (R402). -/
  | gemmQI8 (f : Flags)
  /-- `gemm_q.i16` (R403). -/
  | gemmQI16 (f : Flags)
  /-- `gemm_q.i32` (R404). -/
  | gemmQI32 (f : Flags)
  /-- `gemm_f.f32` (R405). Only HAS_BIAS may be set; see `Instr.wellFormed`. -/
  | gemmFF32 (f : Flags)
deriving DecidableEq, Repr, Inhabited

/-- The destination types of GEMM_Q (R301, field DST). -/
inductive QDst where
  | u8 | i8 | i16 | i32
deriving DecidableEq, Repr, Inhabited

/-- Which kernel a command starts: the quantized path with a destination type, or the float path (R2). -/
inductive Kernel where
  | quant (d : QDst)
  | float
deriving DecidableEq, Repr, Inhabited

/-- The OP, DST and FLAGS fields the engine keeps for the length of a command (R142). OP and DST together say
which kernel runs. -/
structure Latch where
  kernel : Kernel
  flags : Flags
deriving DecidableEq, Repr, Inhabited

/-- The fields an accepted command latches (R142). NOP is not accepted as a command and latches nothing (R400). -/
def Instr.latch : Instr → Option Latch
  | .nop => none
  | .gemmQU8 f => some ⟨.quant .u8, f⟩
  | .gemmQI8 f => some ⟨.quant .i8, f⟩
  | .gemmQI16 f => some ⟨.quant .i16, f⟩
  | .gemmQI32 f => some ⟨.quant .i32, f⟩
  | .gemmFF32 f => some ⟨.float, f⟩

end Sys2Proof
end

