-- ==== Sys2Proof/WellFormed.lean ====
section
/-! DEFINITION. WellFormed.lean: which terms of `Instr` have a command word of their own. -/

namespace Sys2Proof

/-- The flag bits GEMM_F must have 0: HAS_LHS_SUMS, HAS_RHS_SUMS and PERCHANNEL (R301). -/
def Flags.floatLegal (f : Flags) : Bool := !f.lsums && !f.rsums && !f.perch

/-- A command is well formed when its word matches a row of R303. The types leave one thing to check: GEMM_F takes no
flag but HAS_BIAS. -/
def Instr.wellFormed : Instr → Bool
  | .nop => true
  | .gemmQU8 _ => true
  | .gemmQI8 _ => true
  | .gemmQI16 _ => true
  | .gemmQI32 _ => true
  | .gemmFF32 f => f.floatLegal

end Sys2Proof
end

