-- ==== Sys2Proof/Decode.lean ====
section
/-! DEFINITION. Decode.lean: from a command word to an instruction or a named rejection, in the order of R305, and the
encoder of R303 beside it. The rows of R303 stand here too, as data. -/

namespace Sys2Proof

/-- Why a word written to CMD is no command (R304, R305), with what ERR_INFO then holds. -/
inductive DecodeError where
  /-- ILLEGAL_CMD: ERR_INFO is the whole word. -/
  | illegalCmd (w : Word)
  /-- ILLEGAL_DST_TYPE: ERR_INFO is the DST field, zero-extended. -/
  | illegalDstType (dst : BitVec 4)
deriving DecidableEq, Repr

/-- Field OP, bits 3:0 (R301). -/
def opField (w : Word) : BitVec 4 := w.extractLsb' 0 4

/-- Field DST, bits 7:4 (R301). -/
def dstField (w : Word) : BitVec 4 := w.extractLsb' 4 4

/-- Bits 31:12, reserved, must be 0 (R301). -/
def reservedField (w : Word) : BitVec 20 := w.extractLsb' 12 20

/-- Fields FLAGS, bits 11:8 (R301). -/
def flagsField (w : Word) : Flags where
  bias := w.getLsbD 8
  lsums := w.getLsbD 9
  rsums := w.getLsbD 10
  perch := w.getLsbD 11

/-- The decoder, R305: the first test that fails decides. -/
def decode (w : Word) : Except DecodeError Instr :=
  let f := flagsField w
  if reservedField w ≠ 0 then .error (.illegalCmd w)
  else if opField w = 0 then
    if w.extractLsb' 4 8 ≠ 0 then .error (.illegalCmd w) else .ok .nop
  else if opField w = 1 then
    if dstField w = 1 then .ok (.gemmQU8 f)
    else if dstField w = 2 then .ok (.gemmQI8 f)
    else if dstField w = 3 then .ok (.gemmQI16 f)
    else if dstField w = 4 then .ok (.gemmQI32 f)
    else .error (.illegalDstType (dstField w))
  else if opField w = 2 then
    if w.extractLsb' 9 3 ≠ 0 then .error (.illegalCmd w)
    else if dstField w ≠ 0 then .error (.illegalDstType (dstField w))
    else .ok (.gemmFF32 f)
  else .error (.illegalCmd w)

/-- A flag's value at its bit of the command word (R301). -/
def flagBit (b : Bool) (bit : Nat) : Nat := if b then 2 ^ bit else 0

/-- Bits 11:8 of the command word (R301). -/
def encodeFlags (f : Flags) : Nat :=
  flagBit f.bias 8 + flagBit f.lsums 9 + flagBit f.rsums 10 + flagBit f.perch 11

/-- The word of a command, from R303's match values and R301's flag bits. -/
def encode : Instr → Word
  | .nop => BitVec.ofNat 32 0x00000000
  | .gemmQU8 f => BitVec.ofNat 32 (0x00000011 + encodeFlags f)
  | .gemmQI8 f => BitVec.ofNat 32 (0x00000021 + encodeFlags f)
  | .gemmQI16 f => BitVec.ofNat 32 (0x00000031 + encodeFlags f)
  | .gemmQI32 f => BitVec.ofNat 32 (0x00000041 + encodeFlags f)
  | .gemmFF32 f => BitVec.ofNat 32 (0x00000002 + encodeFlags f)

/-- One row of R303's table: a word selects it iff `(w & mask) = match`. -/
structure OpcodeRow where
  mnemonic : String
  pattern : Word
  mask : Word
deriving DecidableEq, Repr

/-- Whether the word selects the row (R303). -/
def OpcodeRow.selects (row : OpcodeRow) (w : Word) : Bool := w &&& row.mask == row.pattern

/-- The row of a command in R303's table. -/
def Instr.row : Instr → OpcodeRow
  | .nop => ⟨"nop", 0x00000000#32, 0xFFFFFFFF#32⟩
  | .gemmQU8 _ => ⟨"gemm_q.u8", 0x00000011#32, 0xFFFFF0FF#32⟩
  | .gemmQI8 _ => ⟨"gemm_q.i8", 0x00000021#32, 0xFFFFF0FF#32⟩
  | .gemmQI16 _ => ⟨"gemm_q.i16", 0x00000031#32, 0xFFFFF0FF#32⟩
  | .gemmQI32 _ => ⟨"gemm_q.i32", 0x00000041#32, 0xFFFFF0FF#32⟩
  | .gemmFF32 _ => ⟨"gemm_f.f32", 0x00000002#32, 0xFFFFFEFF#32⟩

/-- No flag set. -/
def Flags.none : Flags := ⟨false, false, false, false⟩

/-- The six rows of R303, in its order. -/
def opcodeRows : List OpcodeRow :=
  [.nop, .gemmQU8 .none, .gemmQI8 .none, .gemmQI16 .none, .gemmQI32 .none, .gemmFF32 .none].map Instr.row

/-- The host's entry to the decoder: the bits of a table row, numbered as the table numbers them. A command is one 32-bit
register write (R300), so bit n of `w` is bit n of the word, and a value with a bit above 31 is no command word. -/
def decodeTableWord (nbits w : Nat) : Option Instr :=
  if nbits ≤ 32 ∧ w < 2 ^ 32 then
    match decode (BitVec.ofNat 32 w) with
    | .ok i => some i
    | .error _ => none
  else none

end Sys2Proof
end

