-- ==== Sys2Proof/Config.lean ====
section
/-! DEFINITION. Config.lean: the named parameters of R9, and the free values: what the spec leaves open for every run,
as constants without a body, so that no proof can see a value of one. -/

namespace Sys2Proof

/-- OPERAND_TYPE_LHS and OPERAND_TYPE_RHS (R9, R506). -/
inductive OperandType where
  | int8 | uint8
deriving DecidableEq, Repr

/-- PROD_ZP_MODE (R9, R602). -/
inductive ProdZpMode where
  | withRhsSums | wheneverNonzero
deriving DecidableEq, Repr

/-- REQUANT_MODE (R9, R704, R708). -/
inductive RequantMode where
  | exact | upstreamAvx2
deriving DecidableEq, Repr

/-- INT32_POST (R9, R801). -/
inductive Int32Post where
  | apply | raw
deriving DecidableEq, Repr

/-- FLOAT_CLAMP_NAN (R9, R907). -/
inductive FloatClampNan where
  | select | propagate
deriving DecidableEq, Repr

/-- The byte addresses `lo .. lo + len - 1`. -/
structure Interval where
  lo : Nat
  len : Nat
deriving DecidableEq, Repr

/-- The parameters a block is built with (R9). They are data in the state that no step changes, so a statement about every
state is one about every choice of them, the defaults and the other blocks alike. -/
structure Params where
  /-- GEMM8_BASE / 256: the base is any 256-byte-aligned address (R9, R100). -/
  windowIndex : BitVec 56
  operandTypeLhs : OperandType
  operandTypeRhs : OperandType
  prodZpMode : ProdZpMode
  requantMode : RequantMode
  int32Post : Int32Post
  floatClampNan : FloatClampNan
  /-- Platform: the addresses of device registers and of memory with read side effects (R212). -/
  deviceRegions : List Interval
deriving DecidableEq, Repr

/-- R9's defaults. GEMM8_BASE is open there, and so are the platform's devices: DESIGN CHOICE, notes/assumptions/1.md. -/
def Params.default : Params where
  windowIndex := 0xFFFFFFFFFFFFFF#56
  operandTypeLhs := .int8
  operandTypeRhs := .int8
  prodZpMode := .withRhsSums
  requantMode := .exact
  int32Post := .apply
  floatClampNan := .select
  deviceRegions := []

/-- GEMM8_BASE (R100). -/
def Params.base (p : Params) : Nat := 256 * p.windowIndex.toNat

/-- Free value: the word an engine cell holds while no command runs (R140, R143, R145). -/
opaque Config.idleWord (draw cell : Nat) : Word

/-- Free value: an iterator index while no command runs (R141, R145). -/
opaque Config.idleNat (draw cell : Nat) : Nat

/-- Free value: an intermediate of the requantization stage while no command runs (R145). -/
opaque Config.idleInt (draw cell : Nat) : Int

/-- Free value: the command latch while no command runs (R142, R145). -/
opaque Config.idleLatch (draw : Nat) : Latch

/-- Free value: whether the destination element at `addr` is seen with its new value (true) or its old one, by a read of
another agent while BUSY (R235) or after a reset while BUSY (R1104). -/
opaque Config.raceDraw (draw addr : Nat) : Bool

/-- Free value: a byte of the write footprint of a command that is stuck and whose footprints alias, as another agent or a
reset finds it. What such a command has written depends on the order of its accesses (R236, R1112). -/
opaque Config.aliasedByte (draw addr : Nat) : Byte

end Sys2Proof
end

