-- ==== Sys2Proof/Machine/State.lean ====
section
/-! DEFINITION. Machine/State.lean: everything the spec gives the block as state (10_state.md), the environment's pending
inputs, the reasons a step stops, and the state after reset. Plain data only. -/

namespace Sys2Proof.Machine

/-- Eight things, one per tile row or tile column (R8: the tile is 8 by 8). -/
structure Oct (α : Type) where
  x0 : α
  x1 : α
  x2 : α
  x3 : α
  x4 : α
  x5 : α
  x6 : α
  x7 : α
deriving DecidableEq, Repr

/-- A tile: the thing of tile column c and tile row r is `(t.get c).get r` (R140: `ACC[c][r]`). -/
abbrev Tile (α : Type) := Oct (Oct α)

/-- STATUS (R108). Bits 31:4 are reserved and read 0, so the four fields are the whole register. -/
structure Status where
  busy : Bool
  done : Bool
  err : Bool
  werr : Bool
deriving DecidableEq, Repr

/-- IRQ_EN (R109): bits 1, 2 and 3; the other bits read 0 and ignore writes. -/
structure IrqEn where
  doneIe : Bool
  errIe : Bool
  werrIe : Bool
deriving DecidableEq, Repr

/-- The values ERR_CAUSE takes (R1010); no other is ever produced. -/
inductive Cause where
  | none | illegalCmd | illegalDstType | badGeometry | badDepth | misaligned
deriving DecidableEq, Repr

/-- The descriptor registers, offsets 0x020 to 0x0A4 (R100, R112 to R127). -/
structure Descriptor where
  lhsBaseLo : Word
  lhsBaseHi : Word
  rhsBaseLo : Word
  rhsBaseHi : Word
  dstBaseLo : Word
  dstBaseHi : Word
  biasLo : Word
  biasHi : Word
  lhsSumsLo : Word
  lhsSumsHi : Word
  rhsSumsLo : Word
  rhsSumsHi : Word
  multFpPtrLo : Word
  multFpPtrHi : Word
  multExpPtrLo : Word
  multExpPtrHi : Word
  lhsStride : Word
  rhsStride : Word
  dstStride : Word
  depth : Word
  startRow : Word
  lastRow : Word
  startCol : Word
  lastCol : Word
  dstRows : Word
  dstCols : Word
  lhsZp : Word
  rhsZp : Word
  dstZp : Word
  prodZpDepth : Word
  multFp : Word
  multExp : Word
  clampMin : Word
  clampMax : Word
deriving DecidableEq, Repr

/-- The names of the descriptor registers (R100). -/
inductive DescReg where
  | lhsBaseLo | lhsBaseHi | rhsBaseLo | rhsBaseHi | dstBaseLo | dstBaseHi | biasLo | biasHi
  | lhsSumsLo | lhsSumsHi | rhsSumsLo | rhsSumsHi | multFpPtrLo | multFpPtrHi | multExpPtrLo | multExpPtrHi
  | lhsStride | rhsStride | dstStride | depth | startRow | lastRow | startCol | lastCol | dstRows | dstCols
  | lhsZp | rhsZp | dstZp | prodZpDepth | multFp | multExp | clampMin | clampMax
deriving DecidableEq, Repr

/-- The registers of the window (R100). -/
inductive RegName where
  | id | version | cmd | status | irqEn | errCause | errInfo
  | desc (r : DescReg)
  | reserved
deriving DecidableEq, Repr

/-- The pointers, each a LO/HI pair of registers (R112). -/
inductive Ptr where
  | lhsBase | rhsBase | dstBase | bias | lhsSums | rhsSums | multFpPtr | multExpPtr
deriving DecidableEq, Repr

/-- Memory as the engine sees it: the launch memory of R240, the bytes that exist with their values, strictly rising in
address. A byte that is not listed does not exist and has no value. -/
abbrev Memory := List Host.Cell

/-- One destination element write: `size` bytes at `addr`, the low bytes of `value` (R16, R211). -/
structure Store where
  addr : Nat
  size : Nat
  value : Word
deriving DecidableEq, Repr

/-- Where the engine stands in the current tile (R407, R434): before InitAcc, in the depth loop, or before the store. -/
inductive Phase where
  | start | depth | store
deriving DecidableEq, Repr

/-- What the engine holds (R140 to R143). All of it is unspecified while no command runs (R145). -/
structure Engine where
  /-- The command latch (R142). -/
  latch : Latch
  /-- Column-block index of the current tile (R141). -/
  cb : Nat
  /-- Row-block index of the current tile (R141). -/
  rb : Nat
  /-- Depth position: chunks (GEMM_Q) or depth steps (GEMM_F) done in the current tile (R141). -/
  k : Nat
  phase : Phase
  /-- The accumulator array: an s32 pattern (GEMM_Q) or a binary32 pattern (GEMM_F) in each cell (R140). -/
  acc : Tile Word
  /-- ROWINIT (R143, R601). -/
  rowInit : Oct Word
  /-- COLCORR (R143, R602). -/
  colCorr : Oct Word
  /-- MVEC (R143, R702). -/
  mvec : Oct Word
  /-- EVEC (R143, R702). -/
  evec : Oct Word
  /-- Y, the requantization stage's unbounded integers on their way to the clamp (R701, R800). -/
  y : Tile Int
  /-- The element writes the running command has made so far, oldest first. Until DONE another agent may see each with
  its old or its new value (R211, R231, R235), so memory takes them at completion. -/
  issued : List Store
deriving DecidableEq, Repr

/-- What happens next at the block: an access of a host or of another bus master, a turn of the engine, or reset. -/
inductive Input where
  /-- Agent `agent` writes the low `n` bytes of `v` at bus address `addr`, lowest byte first. A write to CMD is carried out
  to the end of its command before the next input is taken (R425, R1120). -/
  | write (agent addr n v : Nat)
  /-- The same 32-bit write of `w` to CMD by `agent`, after which the inputs that follow land while the command runs. -/
  | start (agent : Nat) (w : Word)
  /-- Agent `agent` reads `n` bytes at bus address `addr`. -/
  | read (agent addr n : Nat)
  /-- The engine takes one step, if it can (R1120). -/
  | engine
  /-- The reset input (R1100, R1104). -/
  | reset
deriving DecidableEq, Repr

/-- The whole machine: the block's registers, its engine, the memory it shares, and what the outside will do next. -/
structure State where
  /-- The parameters the block was built with (R9). No step changes them. -/
  params : Params
  status : Status
  irqEn : IrqEn
  errCause : Cause
  errInfo : Word
  desc : Descriptor
  engine : Engine
  mem : Memory
  /-- Host interface: what the last read returned, as an unsigned little-endian number (R16). -/
  busData : Nat
  /-- Host interface: the accesses and events still to come, the next one first. -/
  inputs : List Input
  /-- The model's own: the agent that has written the descriptor since the last CMD write (R1018). -/
  owner : Option Nat
  /-- The model's own: how many sets of free values have been drawn. -/
  draws : Nat
deriving DecidableEq, Repr

/-- Why the machine stops with a fault. -/
inductive Fault where
  /-- The engine needs a byte outside the launch memory: it has no step and the command never ends (R240, R1121).
  Raised by a command, and by a step that only the engine could take. Safe: no value is given. -/
  | engineStuck
  /-- A command would access an address at or above 2^64 (R218). Raised by a command at acceptance. Safe. -/
  | addressOverflow
deriving DecidableEq, Repr

/-- Why a step has no meaning. -/
inductive Refusal where
  /-- No meaning for the instruction yet. Raised by no arm now. Safe. -/
  | notModelled (mnemonic : String)
  /-- The write footprint overlaps the read footprint or itself, and every byte of both exists (R236, R1112). Raised by a
  command at acceptance. Safe. -/
  | footprintAliasing
  /-- A buffer overlaps the block's register window (R200). Raised by a command at acceptance. Safe. -/
  | bufferInRegisterWindow
  /-- A buffer lies in device registers or memory with read side effects (R212). Raised by a command at acceptance. Safe. -/
  | bufferInDevice
  /-- A register access that is not 32-bit and aligned (R101). Raised by a bus access. Safe. -/
  | badRegisterAccess
  /-- Two hosts program the instance at once (R1018). Raised by a register write. Safe. -/
  | twoHosts
  /-- Another agent writes a running command's footprint (R235). Raised by a memory write. Safe. -/
  | footprintRace
  /-- Another agent's access to a byte that is neither the block's nor in the launch memory: the platform's, which the
  spec leaves out (R220). Raised by a bus access. Safe. -/
  | accessOutsideMemory
  /-- Another agent's access to a device of the platform (R212). Raised by a bus access. Safe. -/
  | accessToDevice
deriving DecidableEq, Repr

/-- Eight zeros, or eight of whatever is given. -/
def Oct.replicate {α : Type} (x : α) : Oct α := ⟨x, x, x, x, x, x, x, x⟩

/-- Every descriptor register at its reset value 0 (R100). -/
def Descriptor.zero : Descriptor :=
  ⟨0, 0, 0, 0, 0, 0, 0, 0, 0, 0, 0, 0, 0, 0, 0, 0, 0, 0, 0, 0, 0, 0, 0, 0, 0, 0, 0, 0, 0, 0, 0, 0, 0, 0⟩

/-- The engine in `State.reset`. The spec gives it no value (R145): DESIGN CHOICE, notes/assumptions/2.md. -/
def Engine.zero : Engine where
  latch := ⟨.float, ⟨false, false, false, false⟩⟩
  cb := 0
  rb := 0
  k := 0
  phase := .start
  acc := Oct.replicate (Oct.replicate 0)
  rowInit := Oct.replicate 0
  colCorr := Oct.replicate 0
  mvec := Oct.replicate 0
  evec := Oct.replicate 0
  y := Oct.replicate (Oct.replicate 0)
  issued := []

/-- The machine right after reset (R1100): STATUS, IRQ_EN, ERR_CAUSE, ERR_INFO and every descriptor register 0, the engine
idle. The parameters are R9's defaults; no launch memory and no input is given yet (notes/assumptions/3.md). -/
def State.reset : State where
  params := Params.default
  status := ⟨false, false, false, false⟩
  irqEn := ⟨false, false, false⟩
  errCause := .none
  errInfo := 0
  desc := Descriptor.zero
  engine := Engine.zero
  mem := []
  busData := 0
  inputs := []
  owner := none
  draws := 0

end Sys2Proof.Machine
end

