-- ==== Sys2Proof/Machine/Flags.lean ====
section
/-! DEFINITION. Machine/Flags.lean: STATUS, IRQ_EN and ERR_CAUSE as words, what a write to them does, and the interrupt
line (R108 to R110, R1007). -/

namespace Sys2Proof.Machine

/-- A single bit at position `n`. -/
def bitAt (b : Bool) (n : Nat) : Nat := if b then 2 ^ n else 0

/-- STATUS as the host reads it: BUSY 0, DONE 1, ERR 2, WERR 3, the rest 0 (R108). -/
def Status.toWord (s : Status) : Word :=
  BitVec.ofNat 32 (bitAt s.busy 0 + bitAt s.done 1 + bitAt s.err 2 + bitAt s.werr 3)

/-- A write to STATUS: 1 clears DONE, ERR or WERR, 0 leaves it; BUSY and the reserved bits ignore writes (R108). -/
def Status.write (s : Status) (v : Word) : Status where
  busy := s.busy
  done := s.done && !v.getLsbD 1
  err := s.err && !v.getLsbD 2
  werr := s.werr && !v.getLsbD 3

/-- IRQ_EN as the host reads it (R109). -/
def IrqEn.toWord (e : IrqEn) : Word :=
  BitVec.ofNat 32 (bitAt e.doneIe 1 + bitAt e.errIe 2 + bitAt e.werrIe 3)

/-- A write to IRQ_EN: bits 1, 2 and 3 are stored, the others ignored (R109). -/
def IrqEn.ofWord (v : Word) : IrqEn where
  doneIe := v.getLsbD 1
  errIe := v.getLsbD 2
  werrIe := v.getLsbD 3

/-- The cause codes (R1010). -/
def Cause.code : Cause → Nat
  | .none => 0
  | .illegalCmd => 1
  | .illegalDstType => 2
  | .badGeometry => 3
  | .badDepth => 4
  | .misaligned => 5

/-- ERR_CAUSE as the host reads it: the code in bits 7:0, the rest 0 (R110). -/
def Cause.toWord (c : Cause) : Word := BitVec.ofNat 32 c.code

/-- The level interrupt output IRQ, a function of the current register values (R1007). -/
def State.irq (s : State) : Bool :=
  (s.status.done && s.irqEn.doneIe) || (s.status.err && s.irqEn.errIe) || (s.status.werr && s.irqEn.werrIe)

end Sys2Proof.Machine
end

