-- ==== Sys2Proof/Machine/Memory.lean ====
section
/-! DEFINITION. Machine/Memory.lean: reads and writes of the launch memory (R203, R211, R240), and address intervals. -/

namespace Sys2Proof

/-- The register window as an interval (R100). -/
def Params.window (p : Params) : Interval := ⟨p.base, 256⟩

end Sys2Proof

namespace Sys2Proof.Machine

/-- The byte at an address, or none where the launch memory has no such byte (R240). -/
def Memory.byte? : Memory → Nat → Option Byte
  | [], _ => none
  | (a, b) :: rest, addr => if a = addr then some b else Memory.byte? rest addr

/-- Whether the byte exists (R240). -/
def Memory.has (m : Memory) (addr : Nat) : Bool := (m.byte? addr).isSome

/-- `MemRead(addr, n)`: n bytes as an unsigned little-endian number (R16, R203); none if one of them does not exist. -/
def Memory.read? (m : Memory) (addr : Nat) : Nat → Option Nat
  | 0 => some 0
  | n + 1 =>
    match m.byte? addr, Memory.read? m (addr + 1) n with
    | some b, some rest => some (b.toNat + 256 * rest)
    | _, _ => none

/-- Writes one byte. A byte that does not exist is not made by writing it (R240). -/
def Memory.writeByte (m : Memory) (addr : Nat) (b : Byte) : Memory :=
  m.map fun c => if c.1 = addr then (c.1, b) else c

/-- `MemWrite(addr, n, v)`: the low n bytes of v, the lowest byte at the lowest address (R16, R203). -/
def Memory.write (m : Memory) (addr : Nat) : Nat → Nat → Memory
  | 0, _ => m
  | n + 1, v => Memory.write (m.writeByte addr (BitVec.ofNat 8 v)) (addr + 1) n (v / 256)

/-- Memory with the bytes at the addresses that `p` picks replaced by those `f` gives; no byte is made. -/
def Memory.replace (m : Memory) (p : Nat → Bool) (f : Nat → Byte) : Memory :=
  m.map fun c => if p c.1 then (c.1, f c.1) else c

/-- Whether the n bytes from `addr` all exist. -/
def Memory.covers (m : Memory) (addr : Nat) : Nat → Bool
  | 0 => true
  | n + 1 => m.has addr && Memory.covers m (addr + 1) n

/-- One element write (R211). -/
def Memory.store (m : Memory) (st : Store) : Memory := m.write st.addr st.size st.value.toNat

/-- Element writes, in order. -/
def Memory.storeAll (m : Memory) (ws : List Store) : Memory := ws.foldl Memory.store m

/-- Whether every byte of the element exists. -/
def Memory.holds (m : Memory) (st : Store) : Bool := m.covers st.addr st.size

/-- Strictly rising addresses, from `lo` up. -/
def risingFrom : Nat → Memory → Bool
  | _, [] => true
  | lo, (a, _) :: rest => decide (lo ≤ a) && risingFrom (a + 1) rest

/-- The canonical form: addresses strictly rising and below 2^64 (R200). An unlisted byte has no value, so no entry can
repeat one. -/
def Memory.wf (m : Memory) : Bool := risingFrom 0 m && m.all fun c => decide (c.1 < 2 ^ 64)

/-- Whether the address lies in the interval. -/
def inInterval (iv : Interval) (a : Nat) : Bool := decide (iv.lo ≤ a) && decide (a < iv.lo + iv.len)

/-- Whether two intervals have no byte in common. -/
def disjoint (p q : Interval) : Bool :=
  p.len == 0 || q.len == 0 || decide (p.lo + p.len ≤ q.lo) || decide (q.lo + q.len ≤ p.lo)

/-- Whether no interval of one list meets one of the other. -/
def allDisjoint (ps qs : List Interval) : Bool := ps.all fun p => qs.all fun q => disjoint p q

/-- Whether no two intervals of the list meet. -/
def pairwiseDisjoint : List Interval → Bool
  | [] => true
  | p :: rest => (rest.all fun q => disjoint p q) && pairwiseDisjoint rest

end Sys2Proof.Machine
end

