-- ==== Sys2Proof/Machine/Operands.lean ====
section
/-! DEFINITION. Machine/Operands.lean: width conversions (R14), the descriptor registers by name and as operands (R302,
R112), the geometry of tiles (R420, R421) and the addresses of every element a command touches (R214 to R217). -/

namespace Sys2Proof

/-! ### Element sizes -/

/-- Destination element size E in bytes (R216). -/
def Kernel.elemSize : Kernel → Nat
  | .quant .u8 => 1
  | .quant .i8 => 1
  | .quant .i16 => 2
  | .quant .i32 => 4
  | .float => 4

/-- Size of a packed operand element in bytes: 8-bit integers or binary32 (R204). -/
def Kernel.packedSize : Kernel → Nat
  | .quant _ => 1
  | .float => 4

/-- Depth values taken per iteration: INT_UNROLL = 4 or FLOAT_UNROLL = 1 (R8, R9). -/
def Kernel.unroll : Kernel → Nat
  | .quant _ => 4
  | .float => 1

/-- The per-row multiplier arrays are read: GEMM_Q, PERCHANNEL = 1 and a destination other than I32 (R119, R201). -/
def Latch.usesMultArrays (l : Latch) : Bool :=
  match l.kernel with
  | .quant .i32 => false
  | .quant _ => l.flags.perch
  | .float => false

end Sys2Proof

namespace Sys2Proof.Machine

/-! ### Width conversions (R14) -/

/-- `s_32`: the two's-complement reading of a word. -/
def s32 (w : Word) : Int := w.toInt

/-- `trunc_32`: the low 32 bits of an integer. -/
def trunc32 (v : Int) : Word := BitVec.ofInt 32 v

/-- `wrap32`: the 32-bit two's-complement wrap of an integer. -/
def wrap32 (v : Int) : Int := s32 (trunc32 v)

/-! ### Eights and tiles -/

/-- The thing at index `i`, for i below 8. -/
def Oct.get {α : Type} (o : Oct α) : Nat → α
  | 0 => o.x0
  | 1 => o.x1
  | 2 => o.x2
  | 3 => o.x3
  | 4 => o.x4
  | 5 => o.x5
  | 6 => o.x6
  | _ => o.x7

/-- Eight things from their indices 0 to 7. -/
def Oct.ofFn {α : Type} (f : Nat → α) : Oct α := ⟨f 0, f 1, f 2, f 3, f 4, f 5, f 6, f 7⟩

/-- Eight things, if each of them is there. -/
def Oct.all? {α : Type} (f : Nat → Option α) : Option (Oct α) := do
  let x0 ← f 0
  let x1 ← f 1
  let x2 ← f 2
  let x3 ← f 3
  let x4 ← f 4
  let x5 ← f 5
  let x6 ← f 6
  let x7 ← f 7
  return ⟨x0, x1, x2, x3, x4, x5, x6, x7⟩

/-- `ACC[c][r]` and its like (R15). -/
def Oct.at {α : Type} (t : Tile α) (c r : Nat) : α := (t.get c).get r

/-- A tile from its columns and rows. -/
def tileOf {α : Type} (f : Nat → Nat → α) : Tile α := Oct.ofFn fun c => Oct.ofFn fun r => f c r

/-! ### Descriptor registers -/

/-- The offset of a descriptor register in the window (R100). -/
def DescReg.offset : DescReg → Nat
  | .lhsBaseLo => 0x020
  | .lhsBaseHi => 0x024
  | .rhsBaseLo => 0x028
  | .rhsBaseHi => 0x02C
  | .dstBaseLo => 0x030
  | .dstBaseHi => 0x034
  | .biasLo => 0x038
  | .biasHi => 0x03C
  | .lhsSumsLo => 0x040
  | .lhsSumsHi => 0x044
  | .rhsSumsLo => 0x048
  | .rhsSumsHi => 0x04C
  | .multFpPtrLo => 0x050
  | .multFpPtrHi => 0x054
  | .multExpPtrLo => 0x058
  | .multExpPtrHi => 0x05C
  | .lhsStride => 0x060
  | .rhsStride => 0x064
  | .dstStride => 0x068
  | .depth => 0x06C
  | .startRow => 0x070
  | .lastRow => 0x074
  | .startCol => 0x078
  | .lastCol => 0x07C
  | .dstRows => 0x080
  | .dstCols => 0x084
  | .lhsZp => 0x088
  | .rhsZp => 0x08C
  | .dstZp => 0x090
  | .prodZpDepth => 0x094
  | .multFp => 0x098
  | .multExp => 0x09C
  | .clampMin => 0x0A0
  | .clampMax => 0x0A4

/-- The descriptor registers in the order of their offsets (R100). -/
def DescReg.list : List DescReg :=
  [.lhsBaseLo, .lhsBaseHi, .rhsBaseLo, .rhsBaseHi, .dstBaseLo, .dstBaseHi, .biasLo, .biasHi, .lhsSumsLo, .lhsSumsHi,
    .rhsSumsLo, .rhsSumsHi, .multFpPtrLo, .multFpPtrHi, .multExpPtrLo, .multExpPtrHi] ++
  [.lhsStride, .rhsStride, .dstStride, .depth, .startRow, .lastRow, .startCol, .lastCol, .dstRows, .dstCols,
    .lhsZp, .rhsZp, .dstZp, .prodZpDepth, .multFp, .multExp, .clampMin, .clampMax]

/-- The register at an offset of the window (R100); every other offset is reserved (R102). -/
def regAt (offset : Nat) : RegName :=
  if offset = 0x000 then .id
  else if offset = 0x004 then .version
  else if offset = 0x008 then .cmd
  else if offset = 0x00C then .status
  else if offset = 0x010 then .irqEn
  else if offset = 0x014 then .errCause
  else if offset = 0x018 then .errInfo
  else match DescReg.list.find? (fun r => r.offset == offset) with
    | some r => .desc r
    | none => .reserved

/-- The value of a descriptor register. -/
def Descriptor.get (d : Descriptor) : DescReg → Word
  | .lhsBaseLo => d.lhsBaseLo
  | .lhsBaseHi => d.lhsBaseHi
  | .rhsBaseLo => d.rhsBaseLo
  | .rhsBaseHi => d.rhsBaseHi
  | .dstBaseLo => d.dstBaseLo
  | .dstBaseHi => d.dstBaseHi
  | .biasLo => d.biasLo
  | .biasHi => d.biasHi
  | .lhsSumsLo => d.lhsSumsLo
  | .lhsSumsHi => d.lhsSumsHi
  | .rhsSumsLo => d.rhsSumsLo
  | .rhsSumsHi => d.rhsSumsHi
  | .multFpPtrLo => d.multFpPtrLo
  | .multFpPtrHi => d.multFpPtrHi
  | .multExpPtrLo => d.multExpPtrLo
  | .multExpPtrHi => d.multExpPtrHi
  | .lhsStride => d.lhsStride
  | .rhsStride => d.rhsStride
  | .dstStride => d.dstStride
  | .depth => d.depth
  | .startRow => d.startRow
  | .lastRow => d.lastRow
  | .startCol => d.startCol
  | .lastCol => d.lastCol
  | .dstRows => d.dstRows
  | .dstCols => d.dstCols
  | .lhsZp => d.lhsZp
  | .rhsZp => d.rhsZp
  | .dstZp => d.dstZp
  | .prodZpDepth => d.prodZpDepth
  | .multFp => d.multFp
  | .multExp => d.multExp
  | .clampMin => d.clampMin
  | .clampMax => d.clampMax

/-- A write stores all 32 bits of one descriptor register (R104). -/
def Descriptor.set (d : Descriptor) (v : Word) : DescReg → Descriptor
  | .lhsBaseLo => { d with lhsBaseLo := v }
  | .lhsBaseHi => { d with lhsBaseHi := v }
  | .rhsBaseLo => { d with rhsBaseLo := v }
  | .rhsBaseHi => { d with rhsBaseHi := v }
  | .dstBaseLo => { d with dstBaseLo := v }
  | .dstBaseHi => { d with dstBaseHi := v }
  | .biasLo => { d with biasLo := v }
  | .biasHi => { d with biasHi := v }
  | .lhsSumsLo => { d with lhsSumsLo := v }
  | .lhsSumsHi => { d with lhsSumsHi := v }
  | .rhsSumsLo => { d with rhsSumsLo := v }
  | .rhsSumsHi => { d with rhsSumsHi := v }
  | .multFpPtrLo => { d with multFpPtrLo := v }
  | .multFpPtrHi => { d with multFpPtrHi := v }
  | .multExpPtrLo => { d with multExpPtrLo := v }
  | .multExpPtrHi => { d with multExpPtrHi := v }
  | .lhsStride => { d with lhsStride := v }
  | .rhsStride => { d with rhsStride := v }
  | .dstStride => { d with dstStride := v }
  | .depth => { d with depth := v }
  | .startRow => { d with startRow := v }
  | .lastRow => { d with lastRow := v }
  | .startCol => { d with startCol := v }
  | .lastCol => { d with lastCol := v }
  | .dstRows => { d with dstRows := v }
  | .dstCols => { d with dstCols := v }
  | .lhsZp => { d with lhsZp := v }
  | .rhsZp => { d with rhsZp := v }
  | .dstZp => { d with dstZp := v }
  | .prodZpDepth => { d with prodZpDepth := v }
  | .multFp => { d with multFp := v }
  | .multExp => { d with multExp := v }
  | .clampMin => { d with clampMin := v }
  | .clampMax => { d with clampMax := v }

/-- A descriptor register as an s32 operand (R302). -/
def State.sreg (s : State) (r : DescReg) : Int := s32 (s.desc.get r)

/-- A descriptor register as a u32 operand (R302). -/
def State.ureg (s : State) (r : DescReg) : Nat := (s.desc.get r).toNat

/-- The low half of a pointer. -/
def Ptr.lo : Ptr → DescReg
  | .lhsBase => .lhsBaseLo
  | .rhsBase => .rhsBaseLo
  | .dstBase => .dstBaseLo
  | .bias => .biasLo
  | .lhsSums => .lhsSumsLo
  | .rhsSums => .rhsSumsLo
  | .multFpPtr => .multFpPtrLo
  | .multExpPtr => .multExpPtrLo

/-- The high half of a pointer. -/
def Ptr.hi : Ptr → DescReg
  | .lhsBase => .lhsBaseHi
  | .rhsBase => .rhsBaseHi
  | .dstBase => .dstBaseHi
  | .bias => .biasHi
  | .lhsSums => .lhsSumsHi
  | .rhsSums => .rhsSumsHi
  | .multFpPtr => .multFpPtrHi
  | .multExpPtr => .multExpPtrHi

/-- A pointer operand: `u_64({HI, LO})` (R112). -/
def State.ptr (s : State) (p : Ptr) : Nat := s.ureg p.hi * 2 ^ 32 + s.ureg p.lo

/-! ### Tile geometry (R420, R421)

The six geometry registers are s32. The functions below read them as naturals: a command computes with them only after
R411's check, which leaves each of them at least 0. -/

/-- A geometry register, or DEPTH, after its check. -/
def State.nreg (s : State) (r : DescReg) : Nat := (s.sreg r).toNat

/-- NRB, the number of row blocks (R420). -/
def State.rowBlocks (s : State) : Nat := (s.nreg .lastRow - s.nreg .startRow) / 8 + 1

/-- NCB, the number of column blocks (R420). -/
def State.colBlocks (s : State) : Nat := (s.nreg .lastCol - s.nreg .startCol) / 8 + 1

/-- The tile's first row (R420). -/
def State.rowOf (s : State) (rb : Nat) : Nat := s.nreg .startRow + 8 * rb

/-- The tile's first column (R420). -/
def State.colOf (s : State) (cb : Nat) : Nat := s.nreg .startCol + 8 * cb

/-- residual_rows (R421). -/
def State.residualRows (s : State) (rb : Nat) : Nat := min (s.nreg .dstRows - s.rowOf rb) 8

/-- residual_cols (R421). -/
def State.residualCols (s : State) (cb : Nat) : Nat := min (s.nreg .dstCols - s.colOf cb) 8

/-- The tiles (cb, rb) in column-major order: column blocks outside, row blocks inside (R420). -/
def State.tiles (s : State) : List (Nat × Nat) :=
  (List.range s.colBlocks).flatMap fun cb => (List.range s.rowBlocks).map fun rb => (cb, rb)

/-- Iterations of the depth loop: DEPTH/4 chunks (R501) or DEPTH steps (R903). -/
def State.depthSteps (s : State) (k : Kernel) : Nat := s.nreg .depth / k.unroll

/-! ### Addresses -/

/-- `lhs_blk(rb)` (R214, R215). -/
def State.lhsBlk (s : State) (k : Kernel) (rb : Nat) : Nat :=
  s.ptr .lhsBase + k.packedSize * 8 * rb * s.ureg .lhsStride

/-- `rhs_blk(cb)` (R214, R215). -/
def State.rhsBlk (s : State) (k : Kernel) (cb : Nat) : Nat :=
  s.ptr .rhsBase + k.packedSize * 8 * cb * s.ureg .rhsStride

/-- Element `i` of a side array, indexed by absolute row or column (R217). -/
def State.sideAddr (s : State) (p : Ptr) (i : Nat) : Nat := s.ptr p + 4 * i

/-- `dst_addr(i, j)` of the absolute row and column (R216). -/
def State.dstAddr (s : State) (k : Kernel) (i j : Nat) : Nat :=
  s.ptr .dstBase + k.elemSize * ((i - s.nreg .startRow) + (j - s.nreg .startCol) * s.ureg .dstStride)

/-! ### Which arrays a command reads (R201) -/

/-- lhs_sums is read: GEMM_Q, HAS_LHS_SUMS = 1 and RHS_ZP not 0 (R117, R201). -/
def State.usesLhsSums (s : State) (l : Latch) : Bool :=
  match l.kernel with
  | .quant _ => l.flags.lsums && decide (s.sreg .rhsZp ≠ 0)
  | .float => false

/-- rhs_sums is read: GEMM_Q, HAS_RHS_SUMS = 1 and LHS_ZP not 0 (R118, R201). -/
def State.usesRhsSums (s : State) (l : Latch) : Bool :=
  match l.kernel with
  | .quant _ => l.flags.rsums && decide (s.sreg .lhsZp ≠ 0)
  | .float => false

/-- A side array's element, 4 bytes (R217); none if it lies outside the launch memory. -/
def State.sideWord? (s : State) (p : Ptr) (i : Nat) : Option Word :=
  (s.mem.read? (s.sideAddr p i) 4).map (BitVec.ofNat 32)

/-- A side array's element for lane `i` of a tile whose first `n` rows or columns are valid, the first of them at absolute
index `first`. A masked lane is not read and holds 0 (R430). An array that is not used is not read at all. -/
def State.sideLane? (s : State) (p : Ptr) (used : Bool) (first n i : Nat) : Option Word :=
  if used && decide (i < n) then s.sideWord? p (first + i) else some 0

/-- A side array's elements for the eight lanes of a tile (R430). -/
def State.sideVec? (s : State) (p : Ptr) (used : Bool) (first n : Nat) : Option (Oct Word) :=
  Oct.all? (s.sideLane? p used first n)

end Sys2Proof.Machine
end

