-- ==== Sys2Proof/Machine/Binary32.lean ====
section
/-! DEFINITION. Machine/Binary32.lean: IEEE 754-2008 binary32 patterns, fusedMultiplyAdd with one rounding to nearest even,
the comparison the clamp uses (R19, R905), and the float clamp (R907). No exception flag exists (R910). -/

namespace Sys2Proof.Machine

/-! ### Patterns -/

/-- The sign bit. -/
def fSign (b : Word) : Bool := b.getLsbD 31

/-- The biased exponent, bits 30:23. -/
def fExp (b : Word) : Nat := b.toNat / 2 ^ 23 % 2 ^ 8

/-- The trailing significand, bits 22:0. -/
def fFrac (b : Word) : Nat := b.toNat % 2 ^ 23

/-- A NaN. -/
def fIsNan (b : Word) : Bool := fExp b == 255 && fFrac b != 0

/-- An infinity. -/
def fIsInf (b : Word) : Bool := fExp b == 255 && fFrac b == 0

/-- A zero of either sign. -/
def fIsZero (b : Word) : Bool := fExp b == 0 && fFrac b == 0

/-- The integer significand of a finite datum: a subnormal has no hidden bit. Its value is significand * 2^scale. -/
def fSig (b : Word) : Nat := if fExp b = 0 then fFrac b else fFrac b + 2 ^ 23

/-- The power of two that scales the significand, plus 149, so that the least one is 0. -/
def fScale (b : Word) : Nat := if fExp b = 0 then 0 else fExp b - 1

/-- The signed significand. -/
def fSigned (b : Word) : Int := if fSign b then -(fSig b : Int) else fSig b

/-- The canonical quiet NaN (R905). -/
def fNan : Word := 0x7FC00000#32

/-- The pattern with the given sign and magnitude bits. -/
def fPattern (sign : Bool) (magnitude : Nat) : Word := BitVec.ofNat 32 ((if sign then 2 ^ 31 else 0) + magnitude)

/-- The infinity of a sign. -/
def fInf (sign : Bool) : Word := fPattern sign 0x7F800000

/-! ### Rounding -/

/-- n / 2^s to the nearest integer, ties to even. -/
def roundEven (n s : Nat) : Nat :=
  let q := n / 2 ^ s
  let rem := n % 2 ^ s
  if 2 * rem > 2 ^ s ∨ (2 * rem = 2 ^ s ∧ q % 2 = 1) then q + 1 else q

/-- The binary32 nearest to `± sig * 2^(scale - 298)`, ties to even, for a non-zero `sig`: subnormal results are kept and
overflow gives the signed infinity (R905). The kept significand has its last bit at 2^(t - 149), where t is 0 for a
subnormal result. A significand that rounds up to the next power of two carries into the exponent field by itself. -/
def fRound (sign : Bool) (sig scale : Nat) : Word :=
  let top := sig.log2 + scale
  let t := top - 172
  let kept := if t + 149 ≤ scale then sig * 2 ^ (scale - (t + 149)) else roundEven sig (t + 149 - scale)
  let magnitude := t * 2 ^ 23 + kept
  if magnitude ≥ 0x7F800000 then fInf sign else fPattern sign magnitude

/-! ### Fused multiply-add -/

/-- `fma32` of finite operands: the exact a*b + c, rounded once. The product is scaled by 2^-298 and the addend by 2^-149;
an exact zero is -0.0 only where the product and the addend are both zeros of negative sign (R905). -/
def fmaFinite (a b c : Word) : Word :=
  let pScale := fScale a + fScale b
  let cScale := fScale c + 149
  let scale := min pScale cScale
  let sum : Int := fSigned a * fSigned b * 2 ^ (pScale - scale) + fSigned c * 2 ^ (cScale - scale)
  if sum = 0 then
    fPattern ((fIsZero a || fIsZero b) && fIsZero c && (fSign a != fSign b) && fSign c) 0
  else fRound (decide (sum < 0)) sum.natAbs scale

/-- `fma32(a, b, c)` (R19, R905): a NaN operand or an invalid operation gives the canonical NaN, infinities follow IEEE
754, and finite operands round once. -/
def fma32 (a b c : Word) : Word :=
  if fIsNan a || fIsNan b || fIsNan c then fNan
  else if fIsInf a || fIsInf b then
    if fIsZero a || fIsZero b then fNan
    else if fIsInf c && (fSign c != (fSign a != fSign b)) then fNan
    else fInf (fSign a != fSign b)
  else if fIsInf c then c
  else fmaFinite a b c

/-! ### Comparison and clamp -/

/-- A datum other than a NaN as an integer that orders as the data do; both zeros are 0. -/
def fKey (b : Word) : Int :=
  if fSign b then -((b.toNat % 2 ^ 31 : Nat) : Int) else ((b.toNat % 2 ^ 31 : Nat) : Int)

/-- IEEE 754 `a < b`: false where either is a NaN (R19). -/
def fLess (a b : Word) : Bool := !fIsNan a && !fIsNan b && decide (fKey a < fKey b)

/-- `minsel(a, b)`: a if a < b, else b (R19). -/
def minsel (a b : Word) : Word := if fLess a b then a else b

/-- `maxsel(a, b)`: a if a > b, else b (R19). -/
def maxsel (a b : Word) : Word := if fLess b a then a else b

/-- The float clamp (R907). -/
def floatClamp (mode : FloatClampNan) (lo hi acc : Word) : Word :=
  match mode with
  | .select => maxsel (minsel acc hi) lo
  | .propagate => if fIsNan acc then acc else maxsel (minsel acc hi) lo

/-! ### Accumulation -/

/-- Eight consecutive binary32 values of a packed block, at depth d (R215). -/
def State.floatStep? (s : State) (blk d : Nat) : Option (Oct Word) :=
  Oct.all? fun i => (s.mem.read? (blk + 4 * (8 * d + i)) 4).map (BitVec.ofNat 32)

/-- One depth step of AccumulateF: one fused multiply-add into each of the 64 cells (R903). -/
def fmaTile (acc : Tile Word) (lhs rhs : Oct Word) : Tile Word :=
  tileOf fun c r => fma32 (lhs.get r) (rhs.get c) (acc.at c r)

/-- One depth step of a tile of the float path (R903). -/
def State.accumulateStepF? (s : State) (k : Kernel) (cb rb d : Nat) (acc : Tile Word) : Option (Tile Word) := do
  let lhs ← s.floatStep? (s.lhsBlk k rb) d
  let rhs ← s.floatStep? (s.rhsBlk k cb) d
  return fmaTile acc lhs rhs

end Sys2Proof.Machine
end

