-- ==== Sys2Proof/Machine/Quant.lean ====
section
/-! DEFINITION. Machine/Quant.lean: the stages of the quantized path: accumulation (41_accumulate.md), zero-point
correction (42_zero_point.md), requantization (43_requant.md), clamp and narrowing (44_clamp_pack.md). -/

namespace Sys2Proof.Machine

/-! ### Accumulation -/

/-- Four consecutive depth values of one packed row or column. -/
structure Quad where
  y0 : Int
  y1 : Int
  y2 : Int
  y3 : Int
deriving DecidableEq, Repr

/-- A packed operand byte as the operand type reads it (R214, R506). -/
def operandValue (t : OperandType) (b : Byte) : Int :=
  match t with
  | .int8 => b.toInt
  | .uint8 => b.toNat

/-- The four depth values of row or column `i` in the chunk at `chunk`: bytes 4i to 4i+3 (R214). -/
def State.quad? (s : State) (t : OperandType) (chunk i : Nat) : Option Quad := do
  let b0 ← s.mem.byte? (chunk + 4 * i)
  let b1 ← s.mem.byte? (chunk + 4 * i + 1)
  let b2 ← s.mem.byte? (chunk + 4 * i + 2)
  let b3 ← s.mem.byte? (chunk + 4 * i + 3)
  return ⟨operandValue t b0, operandValue t b1, operandValue t b2, operandValue t b3⟩

/-- Chunk `k` of a packed block: 32 bytes, all of them read, in a residual tile too (R214, R432). -/
def State.chunk? (s : State) (t : OperandType) (blk k : Nat) : Option (Oct Quad) :=
  Oct.all? fun i => s.quad? t (blk + 32 * k) i

/-- The exact 4-term dot product (R501, R502). -/
def dot4 (a b : Quad) : Int := a.y0 * b.y0 + a.y1 * b.y1 + a.y2 * b.y2 + a.y3 * b.y3

/-- The rank-4 update of all 64 cells, each addition modulo 2^32 (R501, R503, R431). -/
def rank4 (acc : Tile Word) (lhs rhs : Oct Quad) : Tile Word :=
  tileOf fun c r => trunc32 (s32 (acc.at c r) + dot4 (lhs.get r) (rhs.get c))

/-- One chunk of Accumulate (R501). -/
def State.accumulateChunk? (s : State) (k : Kernel) (cb rb chunk : Nat) (acc : Tile Word) : Option (Tile Word) := do
  let lhs ← s.chunk? s.params.operandTypeLhs (s.lhsBlk k rb) chunk
  let rhs ← s.chunk? s.params.operandTypeRhs (s.rhsBlk k cb) chunk
  return rank4 acc lhs rhs

/-- InitAcc: every lane starts from the same eight row values (R500). On the float path the same words are binary32
patterns (R902). -/
def initAcc (bias : Oct Word) : Tile Word := tileOf fun _ r => bias.get r

/-! ### Zero-point correction -/

/-- `wrap32(zp * sum)`, as a word (R601, R602, R604). -/
def zpProduct (zp : Int) (sum : Word) : Word := trunc32 (zp * s32 sum)

/-- The row terms (R601), from the row sums with masked and unused lanes 0. -/
def rowTerms (rhsZp : Int) (sums : Oct Word) : Oct Word := Oct.ofFn fun r => zpProduct rhsZp (sums.get r)

/-- The column term of a valid column with the column sum `sum` (R602). `used` says that rhs_sums is read. -/
def colTerm (mode : ProdZpMode) (used : Bool) (lhsZp prodZpDepth : Int) (sum : Word) : Word :=
  match mode with
  | .withRhsSums => if used then trunc32 (lhsZp * s32 sum - prodZpDepth) else 0
  | .wheneverNonzero => trunc32 (s32 (if used then zpProduct lhsZp sum else 0) - prodZpDepth)

/-- The column terms, in which the first `n` columns are valid and the masked lanes hold 0 in both modes (R143, R430, R603;
against R602's formula for WHENEVER_NONZERO, which gives them a value: notes/assumptions/18.md). -/
def colTerms (mode : ProdZpMode) (used : Bool) (n : Nat) (lhsZp prodZpDepth : Int) (sums : Oct Word) : Oct Word :=
  Oct.ofFn fun c => if c < n then colTerm mode used lhsZp prodZpDepth (sums.get c) else 0

/-- ROWINIT (R601). -/
def rowInits (bias rowTerm : Oct Word) : Oct Word :=
  Oct.ofFn fun r => trunc32 (s32 (bias.get r) - s32 (rowTerm.get r))

/-- ZeroPointCorrect of one cell (R603). -/
def zeroPointCell (acc rowTerm colTerm : Word) : Word := trunc32 (s32 acc - s32 rowTerm - s32 colTerm)

/-- ZeroPointCorrect (R603). -/
def zeroPointCorrect (acc : Tile Word) (rowTerm colTerm : Oct Word) : Tile Word :=
  tileOf fun c r => zeroPointCell (acc.at c r) (rowTerm.get r) (colTerm.get c)

/-! ### Requantization -/

/-- `RHAZ(n, s)`: n / 2^s to the nearest integer, ties away from zero (R18). -/
def rhaz (n : Int) (s : Nat) : Int :=
  if s = 0 then n
  else if 0 ≤ n then (n + 2 ^ (s - 1)) / 2 ^ s
  else -((-n + 2 ^ (s - 1)) / 2 ^ s)

/-- The left shift `max(e, 0)` (R703). -/
def leftShift (e : Int) : Nat := e.toNat

/-- The right-shift excess `max(-e, 0)` (R703). -/
def rightShift (e : Int) : Nat := (-e).toNat

/-- `RQ(x, M, e)` on unbounded integers, for REQUANT_MODE = EXACT (R704, R705). -/
def rqExact (x m e : Int) : Int := rhaz (x * 2 ^ leftShift e * m) (31 + rightShift e)

/-- `RQ_up(x, M, e)`, for REQUANT_MODE = UPSTREAM_AVX2 (R708). -/
def rqUpstream (x m e : Int) : Int :=
  let ls := leftShift e
  let rs := rightShift e
  let sa : Int := if ls < 32 then wrap32 (x * 2 ^ ls) else 0
  let p : Int := sa * m
  let off : Nat := if rs < 34 then 2 ^ 30 * 2 ^ rs % 2 ^ 64 else 0
  let u : Nat := ((p + off + 2 ^ 63) % 2 ^ 64).toNat
  let q : Nat := if 31 + rs < 64 then u / 2 ^ (31 + rs) else 0
  let pso : Nat := if rs < 32 then 2 * (2 ^ 31 / 2 ^ rs) % 2 ^ 32 else 0
  wrap32 ((q : Int) - pso)

/-- The requantized value in the block's REQUANT_MODE (R9, R704, R708). -/
def requantValue (mode : RequantMode) (x m e : Int) : Int :=
  match mode with
  | .exact => rqExact x m e
  | .upstreamAvx2 => rqUpstream x m e

/-- MVEC or EVEC of tile row `r`: the scalar register, or the per-row array's element (R702); 0 in a masked row either way
(R143, R430; against R702's formula, which gives the scalar to every row: notes/assumptions/18.md). -/
def State.scaleLane? (s : State) (l : Latch) (p : Ptr) (scalar : DescReg) (row rr r : Nat) : Option Word :=
  if l.flags.perch then s.sideLane? p true row rr r else some (if r < rr then s.desc.get scalar else 0)

/-- MVEC or EVEC (R702). -/
def State.scaleVec? (s : State) (l : Latch) (p : Ptr) (scalar : DescReg) (row rr : Nat) : Option (Oct Word) :=
  Oct.all? (s.scaleLane? l p scalar row rr)

/-- Requantize: Y of every cell (R701). -/
def requantTile (mode : RequantMode) (acc : Tile Word) (mvec evec : Oct Word) : Tile Int :=
  tileOf fun c r => requantValue mode (s32 (acc.at c r)) (s32 (mvec.get r)) (s32 (evec.get r))

/-! ### Destination zero point, clamp, narrowing -/

/-- z of R801 for a rescaled Y: the destination zero point added exactly, or modulo 2^32 to the s32 result RQ_up under
UPSTREAM_AVX2 (R804). -/
def addDstZp (mode : RequantMode) (y dstZp : Int) : Int :=
  match mode with
  | .exact => y + dstZp
  | .upstreamAvx2 => wrap32 (y + dstZp)

/-- The clamp: min with CLAMP_MAX first, then max with CLAMP_MIN (R802). -/
def clampInt (z lo hi : Int) : Int := max (min z hi) lo

/-- z of R801 for one element. An I32 accumulator is not rescaled, so its zero point is added exactly in every REQUANT_MODE
(R814, C10; R804 speaks of Y = RQ_up: notes/assumptions/9.md). -/
def State.zeroPointed (s : State) (d : QDst) (y : Int) : Int :=
  match d with
  | .i32 => y + s.sreg .dstZp
  | _ => addDstZp s.params.requantMode y (s.sreg .dstZp)

/-- w of R801 and R802 for one element. INT32_POST = RAW stores an I32 accumulator as it is (R801, R814). -/
def State.quantValue (s : State) (d : QDst) (y : Int) : Int :=
  match d, s.params.int32Post with
  | .i32, .raw => y
  | _, _ => clampInt (s.zeroPointed d y) (s.sreg .clampMin) (s.sreg .clampMax)

end Sys2Proof.Machine
end

