-- ==== Sys2Proof/Machine/Kernel.lean ====
section
/-! DEFINITION. Machine/Kernel.lean: one tile of a command, stage by stage (R407, R900), and the element writes of a whole
command. A stage answers none where the engine needs a byte outside the launch memory (R240). Memory is read as it stood
at acceptance: the contract keeps the read footprint constant while the command runs (R210, R233, R235, R236). -/

namespace Sys2Proof.Machine

/-- What the first stage of a tile leaves: the corrected start of ACC and the side vectors (R500, R601 to R603). The float
path has no side vectors, and its two are not read. -/
structure TileStart where
  acc : Tile Word
  rowInit : Oct Word
  colCorr : Oct Word
deriving DecidableEq, Repr

/-- InitAcc and, on the quantized path, ZeroPointCorrect (R500, R601 to R603, R902). -/
def State.tileStart? (s : State) (l : Latch) (cb rb : Nat) : Option TileStart := do
  let rr := s.residualRows rb
  let rc := s.residualCols cb
  let bias ← s.sideVec? .bias l.flags.bias (s.rowOf rb) rr
  match l.kernel with
  | .float => return ⟨initAcc bias, Oct.replicate 0, Oct.replicate 0⟩
  | .quant _ =>
    let lsums ← s.sideVec? .lhsSums (s.usesLhsSums l) (s.rowOf rb) rr
    let rsums ← s.sideVec? .rhsSums (s.usesRhsSums l) (s.colOf cb) rc
    let rowTerm := rowTerms (s.sreg .rhsZp) lsums
    let colTerm := colTerms s.params.prodZpMode (s.usesRhsSums l) rc (s.sreg .lhsZp) (s.sreg .prodZpDepth) rsums
    return ⟨zeroPointCorrect (initAcc bias) rowTerm colTerm, rowInits bias rowTerm, colTerm⟩

/-- One iteration of the depth loop: a chunk of the quantized path (R501) or a step of the float path (R903). -/
def State.tileDepth? (s : State) (l : Latch) (cb rb k : Nat) (acc : Tile Word) : Option (Tile Word) :=
  match l.kernel with
  | .quant _ => s.accumulateChunk? l.kernel cb rb k acc
  | .float => s.accumulateStepF? l.kernel cb rb k acc

/-- The first `n` iterations, in ascending order (R501, R904). -/
def State.tileDepths? (s : State) (l : Latch) (cb rb : Nat) : Nat → Tile Word → Option (Tile Word)
  | 0, acc => some acc
  | n + 1, acc => (s.tileDepths? l cb rb n acc).bind (s.tileDepth? l cb rb n)

/-- What the requantization stage leaves (R701, R702). Where it does not run, what it would leave is not read. -/
structure TileScaled where
  mvec : Oct Word
  evec : Oct Word
  y : Tile Int
deriving DecidableEq, Repr

/-- Requantize; for I32 it is skipped and Y is ACC, and the float path has no such stage (R701, R900). -/
def State.tileScale? (s : State) (l : Latch) (rb : Nat) (acc : Tile Word) : Option TileScaled :=
  match l.kernel with
  | .quant .i32 => some ⟨Oct.replicate 0, Oct.replicate 0, tileOf fun c r => s32 (acc.at c r)⟩
  | .quant _ => do
    let mvec ← s.scaleVec? l .multFpPtr .multFp (s.rowOf rb) (s.residualRows rb)
    let evec ← s.scaleVec? l .multExpPtr .multExp (s.rowOf rb) (s.residualRows rb)
    return ⟨mvec, evec, requantTile s.params.requantMode acc mvec evec⟩
  | .float => some ⟨Oct.replicate 0, Oct.replicate 0, Oct.replicate (Oct.replicate 0)⟩

/-- The pattern stored for one valid element: narrowing keeps the low 8E bits (R806, R810), the float path stores the
clamped datum (R908). -/
def State.elementBits (s : State) (l : Latch) (acc : Word) (y : Int) : Word :=
  match l.kernel with
  | .quant d => trunc32 (s.quantValue d y)
  | .float => floatClamp s.params.floatClampNan (s.desc.get .clampMin) (s.desc.get .clampMax) acc

/-- Tile column and row of the valid elements of a tile (R422). -/
def State.validCells (s : State) (cb rb : Nat) : List (Nat × Nat) :=
  (List.range (s.residualCols cb)).flatMap fun c => (List.range (s.residualRows rb)).map fun r => (c, r)

/-- The write of the element at tile column `c` and row `r`: one access of the element's width (R211, R216). -/
def State.elementStore (s : State) (l : Latch) (cb rb c r : Nat) (acc : Word) (y : Int) : Store where
  addr := s.dstAddr l.kernel (s.rowOf rb + r) (s.colOf cb + c)
  size := l.kernel.elemSize
  value := s.elementBits l acc y

/-- ClampPack and ClampStoreF: one write per valid element of the tile, and no other (R422, R810, R908). -/
def State.tileStores (s : State) (l : Latch) (cb rb : Nat) (acc : Tile Word) (y : Tile Int) : List Store :=
  (s.validCells cb rb).map fun x => s.elementStore l cb rb x.1 x.2 (acc.at x.1 x.2) (y.at x.1 x.2)

/-- A tile from its first stage to its element writes (R407, R900). The accumulation is complete before the stages after
it begin (R434). -/
def State.tileRun? (s : State) (l : Latch) (cb rb : Nat) : Option (List Store) := do
  let first ← s.tileStart? l cb rb
  let acc ← s.tileDepths? l cb rb (s.depthSteps l.kernel) first.acc
  let scaled ← s.tileScale? l rb acc
  return s.tileStores l cb rb acc scaled.y

/-- The element writes of a list of tiles, one tile after the other; none where a tile gets stuck, on a read (R240) or on
a write of an element that does not exist. -/
def State.tilesRun? (s : State) (l : Latch) : List (Nat × Nat) → Option (List Store)
  | [] => some []
  | (cb, rb) :: rest => do
    let ws ← s.tileRun? l cb rb
    let more ← s.tilesRun? l rest
    if ws.all s.mem.holds then return ws ++ more else none

/-- The element writes of the whole command: QuantKernel (R407) or FloatKernel (R900). -/
def State.kernelRun? (s : State) (l : Latch) : Option (List Store) := s.tilesRun? l s.tiles

/-! ### Element by element

The order of a command's accesses is free but for what R232 and R434 say, so a stage's read for one row or column does not
hold up the elements of another. The definitions below are the stages above seen from one element. -/

/-- The start of one cell of ACC, from the side-array elements of its own row and column (R500, R601 to R603, R902). -/
def State.cellStart? (s : State) (l : Latch) (cb rb c r : Nat) : Option Word := do
  let rr := s.residualRows rb
  let rc := s.residualCols cb
  let bias ← s.sideLane? .bias l.flags.bias (s.rowOf rb) rr r
  match l.kernel with
  | .float => return bias
  | .quant _ =>
    let lsum ← s.sideLane? .lhsSums (s.usesLhsSums l) (s.rowOf rb) rr r
    let rsum ← s.sideLane? .rhsSums (s.usesRhsSums l) (s.colOf cb) rc c
    return zeroPointCell bias (zpProduct (s.sreg .rhsZp) lsum)
      (if c < rc then colTerm s.params.prodZpMode (s.usesRhsSums l) (s.sreg .lhsZp) (s.sreg .prodZpDepth) rsum else 0)

/-- Y of one cell, from the multiplier and exponent of its own row (R701, R702). -/
def State.cellScaled? (s : State) (l : Latch) (rb r : Nat) (acc : Word) : Option Int :=
  match l.kernel with
  | .quant .i32 => some (s32 acc)
  | .quant _ => do
    let m ← s.scaleLane? l .multFpPtr .multFp (s.rowOf rb) (s.residualRows rb) r
    let e ← s.scaleLane? l .multExpPtr .multExp (s.rowOf rb) (s.residualRows rb) r
    return requantValue s.params.requantMode (s32 acc) (s32 m) (s32 e)
  | .float => some 0

/-- The write of one element once the tile's accumulation has left `acc` in its cell; none where a read that the element's
own value depends on has no step (R232, R240). -/
def State.cellStore? (s : State) (l : Latch) (cb rb c r : Nat) (acc : Word) : Option Store := do
  let _ ← s.cellStart? l cb rb c r
  let y ← s.cellScaled? l rb r acc
  return s.elementStore l cb rb c r acc y

/-- The element writes of a tile that the free order allows: none before the tile's whole accumulation (R434), and then
each element whose own reads are done (R232). A cell whose start is missing is carried along as 0 and is not stored. -/
def State.tileElements (s : State) (l : Latch) (cb rb : Nat) : List Store :=
  match s.tileDepths? l cb rb (s.depthSteps l.kernel) (tileOf fun c r => (s.cellStart? l cb rb c r).getD 0) with
  | some acc => (s.validCells cb rb).filterMap fun x => s.cellStore? l cb rb x.1 x.2 (acc.at x.1 x.2)
  | none => []

/-- The element writes a running command has made or could still make, in any order (R232): those of every element that does
not get stuck, on a read or on its own write. Any of them may already be visible. -/
def State.possibleStores (s : State) (l : Latch) : List Store :=
  (s.tiles.flatMap fun t => s.tileElements l t.1 t.2).filter s.mem.holds

end Sys2Proof.Machine
end

