-- ==== Sys2Proof/Machine/Ops.lean ====
section
/-! DEFINITION. Machine/Ops.lean: the shared operations on the state: acceptance, the start checks, ending a command with
an error or with DONE, the contract a model must refuse to break, and running a command (R406, R410 to R413, R1000 to
R1005, R1112). Taking an error is `State.raiseError`; the block has no trap and no return from one (R1008). -/

namespace Sys2Proof.Machine

/-! ### Life cycle of a command -/

/-- What the engine holds while no command runs: free values, named by a draw (R140 to R145). -/
def idleEngine (draw : Nat) : Engine where
  latch := Config.idleLatch draw
  cb := Config.idleNat draw 0
  rb := Config.idleNat draw 1
  k := Config.idleNat draw 2
  phase := .start
  acc := tileOf fun c r => Config.idleWord draw (8 * c + r)
  rowInit := Oct.ofFn fun r => Config.idleWord draw (64 + r)
  colCorr := Oct.ofFn fun c => Config.idleWord draw (72 + c)
  mvec := Oct.ofFn fun r => Config.idleWord draw (80 + r)
  evec := Oct.ofFn fun r => Config.idleWord draw (88 + r)
  y := tileOf fun c r => Config.idleInt draw (8 * c + r)
  issued := []

/-- The engine stops: nothing it held survives (R141 to R145). -/
def State.idle (s : State) : State := { s with engine := idleEngine s.draws, draws := s.draws + 1 }

/-- A dropped write: WERR is set and nothing else changes (R103, R1005). -/
def State.dropWrite (s : State) : State := { s with status := { s.status with werr := true } }

/-- The status part of acceptance: DONE, ERR, ERR_CAUSE and ERR_INFO are cleared and BUSY is set; WERR is kept (R406,
R1000). -/
def State.clearForCommand (s : State) : State :=
  { s with
    status := { s.status with busy := true, done := false, err := false }
    errCause := .none
    errInfo := 0 }

/-- Acceptance of a command: status cleared, the command latched, the iterator before its first tile (R406, R420). -/
def State.accept (s : State) (l : Latch) : State :=
  { s.clearForCommand with
    engine := { s.engine with latch := l, cb := 0, rb := 0, k := 0, phase := .start, issued := [] } }

/-- `raise Error(cause, info)`: the command ends at once, with no memory access (R17, R1003). -/
def State.raiseError (s : State) (cause : Cause) (info : Word) : State :=
  { s.idle with
    status := { s.status with busy := false, err := true }
    errCause := cause
    errInfo := info }

/-- Successful completion: every element write is performed, DONE is set and BUSY cleared (R231, R1001). -/
def State.complete (s : State) (ws : List Store) : State :=
  { s.idle with
    status := { s.status with busy := false, done := true }
    mem := s.mem.storeAll ws }

/-- The cause and detail of a word that is no command (R304, R305). -/
def decodeCause : DecodeError → Cause × Word
  | .illegalCmd w => (.illegalCmd, w)
  | .illegalDstType d => (.illegalDstType, d.setWidth 32)

/-- An illegal word written to CMD is accepted and ends at decode (R304, R406, R1003). -/
def State.rejectWord (s : State) (e : DecodeError) : State :=
  s.clearForCommand.raiseError (decodeCause e).1 (decodeCause e).2

/-! ### Start checks (R410) -/

/-- The bit mask of the geometry conditions that hold (R411). -/
def State.geometryMask (s : State) : Nat :=
  bitAt (decide (s.sreg .startRow < 0)) 0 + bitAt (decide (s.sreg .startCol < 0)) 1 +
  bitAt (decide (s.sreg .startRow > s.sreg .lastRow)) 2 + bitAt (decide (s.sreg .startCol > s.sreg .lastCol)) 3 +
  bitAt (decide (s.sreg .lastRow ≥ s.sreg .dstRows)) 4 + bitAt (decide (s.sreg .lastCol ≥ s.sreg .dstCols)) 5

/-- Whether DEPTH fails its check: negative, or not a multiple of the unroll (R412). -/
def State.badDepth (s : State) (k : Kernel) : Bool :=
  decide (s.sreg .depth < 0) || decide (s.sreg .depth % k.unroll ≠ 0)

/-- The pointers, whether the command uses each, and its alignment, in ascending register offset (R413). -/
def State.pointerUses (s : State) (l : Latch) : List (Ptr × Bool × Nat) :=
  [(.lhsBase, true, l.kernel.packedSize), (.rhsBase, true, l.kernel.packedSize), (.dstBase, true, l.kernel.elemSize),
    (.bias, l.flags.bias, 4), (.lhsSums, s.usesLhsSums l, 4), (.rhsSums, s.usesRhsSums l, 4),
    (.multFpPtr, l.usesMultArrays, 4), (.multExpPtr, l.usesMultArrays, 4)]

/-- The first used pointer that is not a multiple of its alignment (R413). -/
def State.misaligned? (s : State) (l : Latch) : Option Ptr :=
  ((s.pointerUses l).find? fun u => u.2.1 && decide (s.ptr u.1 % u.2.2 ≠ 0)).map fun u => u.1

/-- The start checks: the first that fails gives its cause and detail (R410, R1011). -/
def State.startCheck (s : State) (l : Latch) : Option (Cause × Word) :=
  if s.geometryMask ≠ 0 then some (.badGeometry, BitVec.ofNat 32 s.geometryMask)
  else if s.badDepth l.kernel then some (.badDepth, s.desc.get .depth)
  else match s.misaligned? l with
    | some p => some (.misaligned, BitVec.ofNat 32 p.lo.offset)
    | none => none

/-! ### Footprints and the contract (R221, R1112) -/

/-- The bytes a tile reads: both packed blocks whole, and the side arrays for its valid rows and columns (R221, R432). -/
def State.tileReads (s : State) (l : Latch) (cb rb : Nat) : List Interval :=
  let packed := 8 * l.kernel.packedSize * s.nreg .depth
  let rows (p : Ptr) (used : Bool) : List Interval :=
    if used then [⟨s.sideAddr p (s.rowOf rb), 4 * s.residualRows rb⟩] else []
  let cols (p : Ptr) (used : Bool) : List Interval :=
    if used then [⟨s.sideAddr p (s.colOf cb), 4 * s.residualCols cb⟩] else []
  [⟨s.lhsBlk l.kernel rb, packed⟩, ⟨s.rhsBlk l.kernel cb, packed⟩] ++
    rows .bias l.flags.bias ++ rows .lhsSums (s.usesLhsSums l) ++ cols .rhsSums (s.usesRhsSums l) ++
    rows .multFpPtr l.usesMultArrays ++ rows .multExpPtr l.usesMultArrays

/-- The bytes a tile writes: one run of valid rows per valid column (R216, R221). -/
def State.tileWrites (s : State) (l : Latch) (cb rb : Nat) : List Interval :=
  (List.range (s.residualCols cb)).map fun c =>
    ⟨s.dstAddr l.kernel (s.rowOf rb) (s.colOf cb + c), l.kernel.elemSize * s.residualRows rb⟩

/-- The read footprint (R221). -/
def State.readFootprint (s : State) (l : Latch) : List Interval := s.tiles.flatMap fun t => s.tileReads l t.1 t.2

/-- The write footprint (R221, R815). -/
def State.writeFootprint (s : State) (l : Latch) : List Interval := s.tiles.flatMap fun t => s.tileWrites l t.1 t.2

/-- Whether every address of the interval is below 2^64 (R218). -/
def below64 (iv : Interval) : Bool := iv.len == 0 || decide (iv.lo + iv.len ≤ 2 ^ 64)

/-- Whether the write footprint overlaps the read footprint or itself (R236). -/
def State.aliases (s : State) (l : Latch) : Bool :=
  !(allDisjoint (s.readFootprint l) (s.writeFootprint l) && pairwiseDisjoint (s.writeFootprint l))

/-- Whether every byte of both footprints exists (R240). -/
def State.footprintsExist (s : State) (l : Latch) : Bool :=
  (s.readFootprint l ++ s.writeFootprint l).all fun iv => s.mem.covers iv.lo iv.len

/-- The contract violations the block cannot see and a model must not give a meaning: an address at or above 2^64 is a
fault (R218); a buffer over the register window (R200) or a device (R212) is refused, and so are aliasing footprints (R236),
unless a byte outside the launch memory makes the command stuck, which comes first (R1112's last row). -/
def State.contractStop (s : State) (l : Latch) : Option (Host.Outcome State Fault Refusal) :=
  let all := s.readFootprint l ++ s.writeFootprint l
  if !all.all below64 then some (.fault .addressOverflow)
  else if !allDisjoint all [s.params.window] then some (.refused .bufferInRegisterWindow)
  else if !allDisjoint all s.params.deviceRegions then some (.refused .bufferInDevice)
  else if s.aliases l && s.footprintsExist l then some (.refused .footprintAliasing)
  else none

/-! ### Running a command -/

/-- A CMD write with a legal word: dropped while BUSY (R103); otherwise accepted, checked, and run by `run` from the
accepted state (R406). -/
def State.command (s : State) (l : Latch) (run : State → Host.Outcome State Fault Refusal) :
    Host.Outcome State Fault Refusal :=
  if s.status.busy then .next s.dropWrite
  else match (s.accept l).startCheck l with
    | some (cause, info) => .next ((s.accept l).raiseError cause info)
    | none => match (s.accept l).contractStop l with
      | some stop => stop
      | none => run (s.accept l)

/-- The kernel from acceptance to completion (R406, R1001); a command that needs a byte outside the launch memory never
ends (R240). -/
def State.runKernel (s : State) (l : Latch) : Host.Outcome State Fault Refusal :=
  match s.kernelRun? l with
  | some ws => .next (s.complete ws)
  | none => .fault .engineStuck

/-- A command as a whole: R406, from the CMD write to DONE or ERR. -/
def State.runCommand (s : State) (l : Latch) : Host.Outcome State Fault Refusal := s.command l fun t => t.runKernel l

/-- A command's acceptance alone, the engine about to start: what a CMD write does when other agents go on while the
command runs (R1120). -/
def State.beginCommand (s : State) (l : Latch) : Host.Outcome State Fault Refusal := s.command l .next

/-! ### The engine step by step (R141, R1120) -/

/-- The first stage's results taken into the engine; the side vectors are GEMM_Q's only (R143). -/
def Engine.takeStart (e : Engine) (t : TileStart) : Engine :=
  match e.latch.kernel with
  | .quant _ => { e with acc := t.acc, rowInit := t.rowInit, colCorr := t.colCorr, k := 0, phase := .depth }
  | .float => { e with acc := t.acc, k := 0, phase := .depth }

/-- The requantization stage's results taken into the engine: MVEC and EVEC are not performed for I32 (R702), and the float
path has no such stage (R900). -/
def Engine.takeScaled (e : Engine) (t : TileScaled) : Engine :=
  match e.latch.kernel with
  | .quant .i32 => { e with y := t.y, phase := .store }
  | .quant _ => { e with mvec := t.mvec, evec := t.evec, y := t.y, phase := .store }
  | .float => { e with phase := .store }

/-- The engine between two tiles of a command: the iterator at (cb, rb), and none of the side vectors surviving the tile it
leaves (R143). They are free values; the cells of each tile are its own, above those of `idleEngine`. -/
def State.engineAt (s : State) (cb rb : Nat) (issued : List Store) : Engine :=
  let cell (i : Nat) := 96 + 32 * (rb + s.rowBlocks * cb) + i
  { s.engine with
    cb := cb
    rb := rb
    k := 0
    phase := .start
    rowInit := Oct.ofFn fun r => Config.idleWord s.draws (cell r)
    colCorr := Oct.ofFn fun c => Config.idleWord s.draws (cell (8 + c))
    mvec := Oct.ofFn fun r => Config.idleWord s.draws (cell (16 + r))
    evec := Oct.ofFn fun r => Config.idleWord s.draws (cell (24 + r))
    issued := issued }

/-- The engine goes from one tile to the next in the order of R420, or completes the command after the last. -/
def State.nextTile (s : State) (ws : List Store) : State :=
  let e := s.engine
  let issued := e.issued ++ ws
  if e.rb + 1 < s.rowBlocks then { s with engine := s.engineAt e.cb (e.rb + 1) issued }
  else if e.cb + 1 < s.colBlocks then { s with engine := s.engineAt (e.cb + 1) 0 issued }
  else s.complete issued

/-- One engine step of a running command: a tile's first stage, one depth iteration, the requantization once the
accumulation is complete (R434), or the tile's element writes. None where it needs a byte that does not exist (R240). -/
def State.engineStep? (s : State) : Option State :=
  let e := s.engine
  match e.phase with
  | .start => (s.tileStart? e.latch e.cb e.rb).map fun t => { s with engine := e.takeStart t }
  | .depth =>
      if e.k < s.depthSteps e.latch.kernel then
        (s.tileDepth? e.latch e.cb e.rb e.k e.acc).map fun acc => { s with engine := { e with acc := acc, k := e.k + 1 } }
      else
        (s.tileScale? e.latch e.rb e.acc).map fun t => { s with engine := e.takeScaled t }
  | .store =>
      let ws := s.tileStores e.latch e.cb e.rb e.acc e.y
      if ws.all s.mem.holds then some (s.nextTile ws) else none

/-- `n` engine steps of a running command, fewer if it ends before; none where it gets stuck. -/
def State.engineSteps? : Nat → State → Option State
  | 0, s => some s
  | n + 1, s => if s.status.busy then s.engineStep?.bind (State.engineSteps? n) else some s

/-- How many engine steps the command takes: per tile a start, the depth iterations, the requantization and the store. -/
def State.engineStepCount (s : State) (l : Latch) : Nat :=
  s.colBlocks * s.rowBlocks * (s.depthSteps l.kernel + 3)

end Sys2Proof.Machine
end

