-- ==== Sys2Proof/Machine/Bus.lean ====
section
/-! DEFINITION. Machine/Bus.lean: what the agents outside the engine do: register accesses (R100 to R111, R1018), memory
accesses of hosts and other bus masters (R235), and the reset input (R1100, R1104). -/

namespace Sys2Proof.Machine

/-! ### The register window -/

/-- A register's value as the host reads it (R100, R102, R105 to R111). -/
def State.readReg (s : State) : RegName → Word
  | .id => 0x47454D38#32
  | .version => 0x00010000#32
  | .cmd => 0#32
  | .status => s.status.toWord
  | .irqEn => s.irqEn.toWord
  | .errCause => s.errCause.toWord
  | .errInfo => s.errInfo
  | .desc r => s.desc.get r
  | .reserved => 0#32

/-- A write of `v` by `agent` to a register other than CMD: read-only and reserved ones ignore it (R102, R105, R106, R110,
R111), STATUS and IRQ_EN take it also while BUSY (R108, R109), a descriptor register stores it, or drops it while BUSY
(R103, R104). CMD is `State.busWrite`'s. -/
def State.writeReg (s : State) (agent : Nat) (v : Word) : RegName → State
  | .id => s
  | .version => s
  | .cmd => s
  | .status => { s with status := s.status.write v }
  | .irqEn => { s with irqEn := IrqEn.ofWord v }
  | .errCause => s
  | .errInfo => s
  | .desc r =>
      if s.status.busy then s.dropWrite else { s with desc := s.desc.set v r, owner := some agent }
  | .reserved => s

/-- Whether another agent is in the middle of programming the instance (R1018). -/
def State.foreign (s : State) (agent : Nat) : Bool :=
  match s.owner with
  | none => false
  | some a => a != agent

/-! ### The bus -/

/-- What a bus access of n bytes at an address reaches. -/
inductive Target where
  /-- A register, by its offset: a 32-bit access at a 4-byte-aligned offset of the window (R101). -/
  | register (offset : Nat)
  /-- Any other access that touches the window (R101). -/
  | badRegister
  /-- Memory whose bytes all exist. -/
  | memory
  /-- A byte of memory that does not exist. -/
  | nowhere
  /-- A device of the platform. -/
  | device
deriving DecidableEq, Repr

/-- Decodes a bus access (R100, R101, R220). -/
def State.target (s : State) (addr n : Nat) : Target :=
  if disjoint ⟨addr, n⟩ s.params.window then
    if !allDisjoint [⟨addr, n⟩] s.params.deviceRegions then .device
    else if s.mem.covers addr n then .memory
    else .nowhere
  else if s.params.base ≤ addr ∧ n = 4 ∧ (addr - s.params.base) % 4 = 0 then .register (addr - s.params.base)
  else .badRegister

/-- Memory as another agent may find it now. While a command runs, each element of its write footprint shows its old or
its new value, whichever the draw says; the rest is as it stands (R211, R235, R1104). A command that runs although its
footprints alias is stuck (R1112), and the bytes of its write footprint are free values. -/
def State.racedMem (s : State) : Memory :=
  let l := s.engine.latch
  if s.status.busy then
    if s.aliases l then
      s.mem.replace (fun a => (s.writeFootprint l).any fun iv => inInterval iv a) (Config.aliasedByte s.draws)
    else s.mem.storeAll ((s.possibleStores l).filter fun st => Config.raceDraw s.draws st.addr)
  else s.mem

/-- Whether the bytes meet the running command's footprints (R221, R235). -/
def State.racesWith (s : State) (iv : Interval) : Bool :=
  s.status.busy && !allDisjoint [iv] (s.readFootprint s.engine.latch ++ s.writeFootprint s.engine.latch)

/-- What a bus write comes to: a word written to CMD, or all there is to it. -/
inductive BusWrite where
  | command (w : Word)
  | done (o : Host.Outcome State Fault Refusal)

/-- A write of the low n bytes of `v` by an agent (R100 to R111, R235, R1018). -/
def State.busWrite (s : State) (agent addr n v : Nat) : BusWrite :=
  match s.target addr n with
  | .register offset =>
    if s.foreign agent then .done (.refused .twoHosts)
    else match regAt offset with
      | .cmd => .command (BitVec.ofNat 32 v)
      | r => .done (.next (s.writeReg agent (BitVec.ofNat 32 v) r))
  | .badRegister => .done (.refused .badRegisterAccess)
  | .memory =>
    if s.racesWith ⟨addr, n⟩ then .done (.refused .footprintRace)
    else .done (.next { s with mem := s.mem.write addr n v })
  | .nowhere => .done (.refused .accessOutsideMemory)
  | .device => .done (.refused .accessToDevice)

/-- A read of n bytes by an agent (R100 to R111, R235). -/
def State.busRead (s : State) (addr n : Nat) : Host.Outcome State Fault Refusal :=
  match s.target addr n with
  | .register offset => .next { s with busData := (s.readReg (regAt offset)).toNat }
  | .badRegister => .refused .badRegisterAccess
  | .memory =>
    match s.racedMem.read? addr n with
    | some v => .next { s with busData := v, draws := if s.status.busy then s.draws + 1 else s.draws }
    | none => .refused .accessOutsideMemory
  | .nowhere => .refused .accessOutsideMemory
  | .device => .refused .accessToDevice

/-! ### Reset -/

/-- The reset input (R1100): every register takes its reset value and the engine stops; memory is unchanged, but a command
that was running leaves each element of its write footprint old or new (R1104). -/
def State.resetBlock (s : State) : State :=
  { s.idle with
    status := ⟨false, false, false, false⟩
    irqEn := ⟨false, false, false⟩
    errCause := .none
    errInfo := 0
    desc := Descriptor.zero
    mem := s.racedMem
    owner := none }

end Sys2Proof.Machine
end

