-- ==== Sys2Proof/Machine/Commands.lean ====
section
/-! DEFINITION. Machine/Commands.lean: the meaning of each command, from the CMD write to DONE or ERR (R400 to R406). -/

namespace Sys2Proof.Machine

/-- `nop` (R400): nothing changes; while BUSY the write is dropped and WERR set. -/
def execNop (s : State) : Host.Outcome State Fault Refusal := if s.status.busy then .next s.dropWrite else .next s

/-- `gemm_q.u8` (R401). -/
def execGemmQU8 (f : Flags) (s : State) : Host.Outcome State Fault Refusal := s.runCommand ⟨.quant .u8, f⟩

/-- `gemm_q.i8` (R402). -/
def execGemmQI8 (f : Flags) (s : State) : Host.Outcome State Fault Refusal := s.runCommand ⟨.quant .i8, f⟩

/-- `gemm_q.i16` (R403). -/
def execGemmQI16 (f : Flags) (s : State) : Host.Outcome State Fault Refusal := s.runCommand ⟨.quant .i16, f⟩

/-- `gemm_q.i32` (R404). -/
def execGemmQI32 (f : Flags) (s : State) : Host.Outcome State Fault Refusal := s.runCommand ⟨.quant .i32, f⟩

/-- `gemm_f.f32` (R405). A term whose sums or per-channel flag is set stands for a word that is no command: it raises
ILLEGAL_CMD with the word (R305). -/
def execGemmFF32 (f : Flags) (s : State) : Host.Outcome State Fault Refusal :=
  if s.status.busy then .next s.dropWrite
  else if f.floatLegal then s.runCommand ⟨.float, f⟩
  else .next (s.rejectWord (.illegalCmd (encode (.gemmFF32 f))))

/-- The acceptance of a command whose engine steps are interleaved with other agents' accesses (R406, R1120). -/
def beginInstr (i : Instr) (s : State) : Host.Outcome State Fault Refusal :=
  if s.status.busy then .next s.dropWrite
  else if i.wellFormed then
    match i.latch with
    | none => .next s
    | some l => s.beginCommand l
  else .next (s.rejectWord (.illegalCmd (encode i)))

end Sys2Proof.Machine
end

