-- ==== Sys2Proof/Machine/Dispatch.lean ====
section
/-! DEFINITION. Machine/Dispatch.lean: one arm per command. -/

namespace Sys2Proof.Machine

/-- The meaning of a command written to CMD, carried out to its end. -/
def exec (i : Instr) (s : State) : Host.Outcome State Fault Refusal :=
  match i with
  | .nop => Sys2Proof.Machine.execNop s
  | .gemmQU8 f => Sys2Proof.Machine.execGemmQU8 f s
  | .gemmQI8 f => Sys2Proof.Machine.execGemmQI8 f s
  | .gemmQI16 f => Sys2Proof.Machine.execGemmQI16 f s
  | .gemmQI32 f => Sys2Proof.Machine.execGemmQI32 f s
  | .gemmFF32 f => Sys2Proof.Machine.execGemmFF32 f s

end Sys2Proof.Machine
end

