-- ==== Sys2Proof/Machine/Step.lean ====
section
/-! DEFINITION. Machine/Step.lean: one step of the machine. The block fetches no instruction (R131): a command reaches it
as a write to CMD, one of the inputs the state holds. The next input is taken; with none left, a running engine takes a
step, and an idle block waits (R1101). -/

namespace Sys2Proof.Machine

/-- A word written to CMD, whose instruction is carried out by `run`: dropped while BUSY, legal or not (R103, R304);
otherwise decoded (R305). The CMD write ends its agent's programming of the instance (R1018). -/
def State.cmdWrite (s : State) (w : Word) (run : Instr → State → Host.Outcome State Fault Refusal) :
    Host.Outcome State Fault Refusal :=
  if s.status.busy then .next s.dropWrite
  else match decode w with
    | .ok i => run i { s with owner := none }
    | .error e => .next (State.rejectWord { s with owner := none } e)

/-- A turn of the engine among other agents' accesses. An engine that is idle, or stuck (R240), leaves the state as it is
and the others go on. -/
def State.engineTurn (s : State) : State := if s.status.busy then s.engineStep?.getD s else s

/-- One input, already taken from the list. -/
def State.take (s : State) : Input → Host.Outcome State Fault Refusal
  | .write agent addr n v =>
    match s.busWrite agent addr n v with
    | .command w => s.cmdWrite w exec
    | .done o => o
  | .start agent w => if s.foreign agent then .refused .twoHosts else s.cmdWrite w beginInstr
  | .read _ addr n => s.busRead addr n
  | .engine => .next s.engineTurn
  | .reset => .next s.resetBlock

/-- One step. With no input left only the engine can move: a stuck one has no step at all (R240). -/
def step (s : State) : Host.Outcome State Fault Refusal :=
  match s.inputs with
  | i :: rest => State.take { s with inputs := rest } i
  | [] =>
    if s.status.busy then
      match s.engineStep? with
      | some t => .next t
      | none => .fault .engineStuck
    else .next s

/-- `s` with the command word of the low 32 bits of `w` as the next input: a 32-bit write to CMD by the agent that is
programming the block. The block has no memory it fetches from; this list is where its commands come from
(notes/assumptions/4.md). -/
def State.withFetchWord (s : State) (_nbits w : Nat) : State :=
  { s with inputs := .write (s.owner.getD 0) (s.params.base + 0x008) 4 w :: s.inputs }

end Sys2Proof.Machine
end

