-- ==== Sys2Proof/Safety.lean ====
section
/-! DEFINITION. Safety.lean: when a command runs to DONE, what holds in every state a run reaches, and the scalar reference
of R711 that a command's stored elements are compared with. -/

namespace Sys2Proof.Machine

/-! ### When a command runs to its end -/

/-- The conditions on the state alone under which a command, with the latch `l`, runs to DONE: the block is idle, the start
checks pass (R410), the contract is kept (R218, R200, R212, R236), and every byte of both footprints exists (R240). -/
def State.runs (s : State) (l : Latch) : Bool :=
  !s.status.busy && (s.startCheck l).isNone && (s.contractStop l).isNone && s.footprintsExist l

/-- The GEMM_Q command of a destination type: `gemmQU8`, `gemmQI8`, `gemmQI16` or `gemmQI32`. -/
def quantInstr (d : QDst) (f : Flags) : Instr :=
  match d with
  | .u8 => .gemmQU8 f
  | .i8 => .gemmQI8 f
  | .i16 => .gemmQI16 f
  | .i32 => .gemmQI32 f

/-- The elements a command writes: the rectangle of R424. -/
abbrev State.writes (s : State) (i j : Nat) : Prop :=
  (s.nreg .startRow ≤ i ∧ i < min (s.nreg .startRow + 8 * s.rowBlocks) (s.nreg .dstRows)) ∧
  (s.nreg .startCol ≤ j ∧ j < min (s.nreg .startCol + 8 * s.colBlocks) (s.nreg .dstCols))

/-- Whether the address is one of the element's bytes. -/
def Store.at (st : Store) (a : Nat) : Bool := decide (st.addr ≤ a) && decide (a < st.addr + st.size)

/-! ### The invariant of every reachable state -/

/-- What every step keeps: memory in canonical form; DONE and ERR never both set, and the cause registers agreeing with
them (R108, R110, R111); a running command past its checks, with the iterator inside its tiles (R141, R420, R1004). -/
structure State.Inv (s : State) : Prop where
  memWf : s.mem.wf = true
  doneNotErr : s.status.done = true → s.status.err = false
  errHasCause : s.status.err = true → s.errCause ≠ .none
  doneNoCause : s.status.done = true → s.errCause = .none
  noCauseNoInfo : s.errCause = .none → s.errInfo = 0
  busyClear : s.status.busy = true → s.status.done = false ∧ s.status.err = false ∧ s.errCause = .none
  busyNoOwner : s.status.busy = true → s.owner = none
  busyChecked : s.status.busy = true →
    s.startCheck s.engine.latch = none ∧ (s.contractStop s.engine.latch).isNone = true
  busyInside : s.status.busy = true →
    s.engine.cb < s.colBlocks ∧ s.engine.rb < s.rowBlocks ∧ s.engine.k ≤ s.depthSteps s.engine.latch.kernel

/-! ### The scalar reference (R711), by absolute row and column -/

/-- The word at an address; every use below is of a word that exists. -/
def State.memWord (s : State) (a : Nat) : Word := BitVec.ofNat 32 ((s.mem.read? a 4).getD 0)

/-- The packed byte of depth `d` in row or column `i` of a block sequence (R214). -/
def State.packedByte (s : State) (base stride first i d : Nat) : Byte :=
  (s.mem.byte? (base + 8 * ((i - first) / 8) * stride + 32 * (d / 4) + 4 * ((i - first) % 8) + d % 4)).getD 0

/-- The LHS value of absolute row `i` at depth `d` (R214). -/
def State.lhsRef (s : State) (i d : Nat) : Int :=
  operandValue s.params.operandTypeLhs (s.packedByte (s.ptr .lhsBase) (s.ureg .lhsStride) (s.nreg .startRow) i d)

/-- The RHS value of absolute column `j` at depth `d` (R214). -/
def State.rhsRef (s : State) (j d : Nat) : Int :=
  operandValue s.params.operandTypeRhs (s.packedByte (s.ptr .rhsBase) (s.ureg .rhsStride) (s.nreg .startCol) j d)

/-- The raw dot product of row `i` and column `j` over the depth. -/
def State.dotRef (s : State) (i j : Nat) : Int :=
  ((List.range (s.nreg .depth)).map fun d => s.lhsRef i d * s.rhsRef j d).sum

/-- The bias of row `i`, 0 without the flag (R500). -/
def State.biasRef (s : State) (f : Flags) (i : Nat) : Int :=
  if f.bias then s32 (s.memWord (s.sideAddr .bias i)) else 0

/-- The row term of row `i` before wrapping (R601). -/
def State.rowTermRef (s : State) (f : Flags) (i : Nat) : Int :=
  if f.lsums ∧ s.sreg .rhsZp ≠ 0 then s.sreg .rhsZp * s32 (s.memWord (s.sideAddr .lhsSums i)) else 0

/-- The column term of column `j` before wrapping, in the block's PROD_ZP_MODE (R602). -/
def State.colTermRef (s : State) (f : Flags) (j : Nat) : Int :=
  let product := s.sreg .lhsZp * s32 (s.memWord (s.sideAddr .rhsSums j))
  match s.params.prodZpMode with
  | .withRhsSums => if f.rsums ∧ s.sreg .lhsZp ≠ 0 then product - s.sreg .prodZpDepth else 0
  | .wheneverNonzero => (if f.rsums ∧ s.sreg .lhsZp ≠ 0 then product else 0) - s.sreg .prodZpDepth

/-- The number in the s32 range that differs from `v` by a multiple of 2^32 (R14). -/
def wrapRef (v : Int) : Int := (v + 2 ^ 31) % 2 ^ 32 - 2 ^ 31

/-- The corrected accumulator of element (i, j) (R504, R603). -/
def State.accRef (s : State) (f : Flags) (i j : Nat) : Int :=
  wrapRef (s.biasRef f i + s.dotRef i j - s.rowTermRef f i - s.colTermRef f j)

/-- A multiplier or exponent of row `i`: the per-row array or the scalar (R702). -/
def State.scaleRef (s : State) (f : Flags) (p : Ptr) (scalar : DescReg) (i : Nat) : Int :=
  if f.perch then s32 (s.memWord (s.sideAddr p i)) else s.sreg scalar

/-- `x * m * 2^(e - 31)` to the nearest integer, ties away from zero (R704, R18), by sign and magnitude. -/
def exactRef (x m e : Int) : Int :=
  let n := 31 + (max (-e) 0).toNat
  let p := x * 2 ^ (max e 0).toNat * m
  p.sign * (((2 * p.natAbs + 2 ^ n) / 2 ^ (n + 1) : Nat) : Int)

/-- RQ_up in the register widths of R708. -/
def upstreamRef (x m e : Int) : Int :=
  let ls := (max e 0).toNat
  let rs := (max (-e) 0).toNat
  let sa : BitVec 32 := BitVec.ofInt 32 x <<< ls
  let off : BitVec 64 := BitVec.ofNat 64 (2 ^ 30) <<< rs
  let u : BitVec 64 := BitVec.ofInt 64 (sa.toInt * m) + off + BitVec.ofNat 64 (2 ^ 63)
  let q : BitVec 64 := u >>> (31 + rs)
  let pso : BitVec 32 := 2#32 * (BitVec.ofNat 32 (2 ^ 31) >>> rs)
  (q.setWidth 32 - pso).toInt

/-- w of element (i, j) (R801, R802, R804, R814): the value with DST_ZP added, min with CLAMP_MAX, then max with CLAMP_MIN. An
I32 accumulator is not rescaled; its DST_ZP is added exactly, or with INT32_POST = RAW it is stored as it is. -/
def State.valueRef (s : State) (d : QDst) (f : Flags) (i j : Nat) : Int :=
  let clamped (z : Int) : Int := max (min z (s.sreg .clampMax)) (s.sreg .clampMin)
  let acc := s.accRef f i j
  let m := s.scaleRef f .multFpPtr .multFp i
  let e := s.scaleRef f .multExpPtr .multExp i
  if d = .i32 then
    match s.params.int32Post with
    | .apply => clamped (acc + s.sreg .dstZp)
    | .raw => acc
  else
    match s.params.requantMode with
    | .exact => clamped (exactRef acc m e + s.sreg .dstZp)
    | .upstreamAvx2 => clamped (wrapRef (upstreamRef acc m e + s.sreg .dstZp))

/-- What GEMM_Q stores at element (i, j), as an unsigned number of E bytes (R806). -/
def State.storedRef (s : State) (d : QDst) (f : Flags) (i j : Nat) : Nat :=
  (s.valueRef d f i j % 2 ^ (8 * (Kernel.quant d).elemSize)).toNat

/-- The packed binary32 of depth `d` in row or column `i` of a block sequence (R215). -/
def State.packedFloat (s : State) (base stride first i d : Nat) : Word :=
  s.memWord (base + 4 * 8 * ((i - first) / 8) * stride + 4 * (8 * d + (i - first) % 8))

/-- The float accumulator of element (i, j): one fused multiply-add per depth step, in ascending order (R902 to R904). -/
def State.accFloatRef (s : State) (f : Flags) (i j : Nat) : Word :=
  (List.range (s.nreg .depth)).foldl
    (fun acc d => fma32 (s.packedFloat (s.ptr .lhsBase) (s.ureg .lhsStride) (s.nreg .startRow) i d)
      (s.packedFloat (s.ptr .rhsBase) (s.ureg .rhsStride) (s.nreg .startCol) j d) acc)
    (if f.bias then s.memWord (s.sideAddr .bias i) else 0)

/-- What GEMM_F stores at element (i, j) (R907, R908). -/
def State.storedFloatRef (s : State) (f : Flags) (i j : Nat) : Nat :=
  (floatClamp s.params.floatClampNan (s.desc.get .clampMin) (s.desc.get .clampMax) (s.accFloatRef f i j)).toNat

/-- What a command with the latch `l` stores at element (i, j). -/
def State.elementRef (s : State) (l : Latch) (i j : Nat) : Nat :=
  match l.kernel with
  | .quant d => s.storedRef d l.flags i j
  | .float => s.storedFloatRef l.flags i j

/-! ### Terms the statements use -/

/-- A row of R502's table. -/
structure DotRange where
  productLo : Int
  productHi : Int
  sumLo : Int
  sumHi : Int

/-- R502's table, by OPERAND_TYPE_LHS and OPERAND_TYPE_RHS. -/
def dotRange : OperandType → OperandType → DotRange
  | .int8, .int8 => ⟨-16256, 16384, -65024, 65536⟩
  | .uint8, .int8 => ⟨-32640, 32385, -130560, 129540⟩
  | .int8, .uint8 => ⟨-32640, 32385, -130560, 129540⟩
  | .uint8, .uint8 => ⟨0, 65025, 0, 260100⟩

/-- The code column of R1010's table, as ERR_CAUSE reads. -/
def errorCode : Cause → Word
  | .none => 0#32
  | .illegalCmd => 1#32
  | .illegalDstType => 2#32
  | .badGeometry => 3#32
  | .badDepth => 4#32
  | .misaligned => 5#32

/-- A bit at a position of a register's value. -/
def bitValue (b : Bool) (n : Nat) : Nat := b.toNat * 2 ^ n

/-- One row of R413's table. -/
structure AlignmentRow where
  pointer : Ptr
  /-- The offset of the pointer's `_LO` register. -/
  offset : Nat
  used : Bool
  alignment : Nat

/-- R413's table for a command. -/
def State.alignmentTable (s : State) (l : Latch) : List AlignmentRow :=
  let isQuant := decide (l.kernel ≠ .float)
  let packed := if isQuant then 1 else 4
  let element := match l.kernel with
    | .quant .u8 => 1
    | .quant .i8 => 1
    | .quant .i16 => 2
    | .quant .i32 => 4
    | .float => 4
  let perRow := isQuant && l.flags.perch && decide (l.kernel ≠ .quant .i32)
  [⟨.lhsBase, 0x020, true, packed⟩, ⟨.rhsBase, 0x028, true, packed⟩, ⟨.dstBase, 0x030, true, element⟩,
    ⟨.bias, 0x038, l.flags.bias, 4⟩,
    ⟨.lhsSums, 0x040, isQuant && l.flags.lsums && decide (s.sreg .rhsZp ≠ 0), 4⟩,
    ⟨.rhsSums, 0x048, isQuant && l.flags.rsums && decide (s.sreg .lhsZp ≠ 0), 4⟩,
    ⟨.multFpPtr, 0x050, perRow, 4⟩, ⟨.multExpPtr, 0x058, perRow, 4⟩]

/-- A run has ended: the outside has nothing more to do and no command runs (R1122). A stuck command's run never ends. -/
def State.ended (s : State) : Bool := s.inputs.isEmpty && !s.status.busy

/-- What no command touches, whatever it answers: the parameters, IRQ_EN, the descriptor, the host interface, and the
WERR bit (R103, R109, R406). -/
structure State.SameOutside (s t : State) : Prop where
  params : t.params = s.params
  irqEn : t.irqEn = s.irqEn
  desc : t.desc = s.desc
  busData : t.busData = s.busData
  inputs : t.inputs = s.inputs
  owner : t.owner = s.owner
  werr : t.status.werr = s.status.werr

/-- A command's answer is a next state whose STATUS says DONE, with no cause recorded (R1001). -/
def EndsDone (o : Host.Outcome State Fault Refusal) (s : State) : Prop :=
  ∃ t, o = .next t ∧ t.status = ⟨false, true, false, s.status.werr⟩ ∧ t.errCause = .none ∧ t.errInfo = 0 ∧ s.SameOutside t

/-- A command's answer is a next state whose STATUS says ERR with the cause and detail, memory untouched (R1003); the host
reads the cause's code in ERR_CAUSE and the detail in ERR_INFO (R110, R111, R1010). -/
def EndsError (o : Host.Outcome State Fault Refusal) (s : State) (c : Cause) (info : Word) : Prop :=
  ∃ t, o = .next t ∧ t.status = ⟨false, false, true, s.status.werr⟩ ∧ t.errCause = c ∧
    t.readReg .errCause = errorCode c ∧ t.readReg .errInfo = info ∧ t.mem = s.mem ∧ s.SameOutside t

/-- The reset column of R100. -/
def resetValue : RegName → Word
  | .id => 0x47454D38#32
  | .version => 0x00010000#32
  | _ => 0#32

/-- The LHS value of tile row `r` at depth `d` (R214). -/
def State.lhsTile (s : State) (k : Kernel) (rb r d : Nat) : Int :=
  operandValue s.params.operandTypeLhs ((s.mem.byte? (s.lhsBlk k rb + 32 * (d / 4) + 4 * r + d % 4)).getD 0)

/-- The RHS value of tile column `c` at depth `d` (R214). -/
def State.rhsTile (s : State) (k : Kernel) (cb c d : Nat) : Int :=
  operandValue s.params.operandTypeRhs ((s.mem.byte? (s.rhsBlk k cb + 32 * (d / 4) + 4 * c + d % 4)).getD 0)

/-- Neither a NaN nor an infinity. -/
def fFinite (b : Word) : Bool := fExp b != 255

/-- The value of a finite binary32 datum, in units of 2^-298. -/
def fValue (b : Word) : Int := fSigned b * 2 ^ (fScale b + 149)

/-- The exact a*b + c of finite data, in units of 2^-298. -/
def fExact (a b c : Word) : Int := fSigned a * fSigned b * 2 ^ (fScale a + fScale b) + fValue c

end Sys2Proof.Machine
end

