-- ==== Sys2Proof/Certificates/Slice0/Obligations.lean ====
section
/-! DEFINITION. Certificates/Slice0/Obligations.lean: the statements about the block, one definition each. A docstring names
the rule a statement formalises; OBLIGATIONS.json lists them. -/

open Sys2Proof
open Sys2Proof.Machine

/-! ### Encoding and decode -/

/-- R308: the worked encodings, each read by the decoder as the command or the rejection it stands for. -/
def Obligations.WorkedWordsDecode : Prop :=
  decode 0x00000000#32 = .ok .nop ∧
  decode 0x00000011#32 = .ok (.gemmQU8 ⟨false, false, false, false⟩) ∧
  decode 0x00000021#32 = .ok (.gemmQI8 ⟨false, false, false, false⟩) ∧
  decode 0x00000121#32 = .ok (.gemmQI8 ⟨true, false, false, false⟩) ∧
  decode 0x00000F31#32 = .ok (.gemmQI16 ⟨true, true, true, true⟩) ∧
  decode 0x00000441#32 = .ok (.gemmQI32 ⟨false, false, true, false⟩) ∧
  decode 0x00000002#32 = .ok (.gemmFF32 ⟨false, false, false, false⟩) ∧
  decode 0x00000102#32 = .ok (.gemmFF32 ⟨true, false, false, false⟩) ∧
  decode 0x00000802#32 = .error (.illegalCmd 0x00000802#32) ∧
  decode 0x00000051#32 = .error (.illegalDstType 5#4)

/-- Every well-formed command, with every flag at every value, decodes from its own word. -/
def Obligations.EncodedCommandDecodesBack : Prop := ∀ i : Instr, i.wellFormed = true → decode (encode i) = .ok i

/-- R303: the valid words are exactly those that select a row; a valid word is the encoding of what it decodes to, and the
row it selects is that command's and no other. -/
def Obligations.ValidWordsAreTheTable : Prop :=
  (∀ w i, decode w = .ok i → i.wellFormed = true ∧ encode i = w) ∧
  (∀ w, (∃ i, decode w = .ok i) ↔ ∃ row ∈ opcodeRows, row.selects w = true) ∧
  (∀ w i, decode w = .ok i → ∀ row ∈ opcodeRows, (row.selects w = true ↔ row = i.row))

/-- R305: the tests of the decoder in their order, the word read as a number. -/
def Obligations.RejectionOrder : Prop :=
  ∀ w : Word,
    (w.toNat / 2 ^ 12 ≠ 0 → decode w = .error (.illegalCmd w)) ∧
    (w.toNat / 2 ^ 12 = 0 →
      (3 ≤ w.toNat % 16 → decode w = .error (.illegalCmd w)) ∧
      (w.toNat % 16 = 0 → w.toNat ≠ 0 → decode w = .error (.illegalCmd w)) ∧
      (w.toNat = 0 → decode w = .ok .nop) ∧
      (w.toNat % 16 = 2 → w.toNat / 2 ^ 9 ≠ 0 → decode w = .error (.illegalCmd w)) ∧
      (w.toNat % 16 = 1 → (w.toNat / 16 % 16 = 0 ∨ 4 < w.toNat / 16 % 16) →
        decode w = .error (.illegalDstType (BitVec.ofNat 4 (w.toNat / 16)))) ∧
      (w.toNat % 16 = 2 → w.toNat / 2 ^ 9 = 0 → w.toNat / 16 % 16 ≠ 0 →
        decode w = .error (.illegalDstType (BitVec.ofNat 4 (w.toNat / 16)))) ∧
      (w.toNat % 16 = 1 → 1 ≤ w.toNat / 16 % 16 → w.toNat / 16 % 16 ≤ 4 → ∃ d f, decode w = .ok (quantInstr d f)) ∧
      (w.toNat % 16 = 2 → w.toNat / 2 ^ 9 = 0 → w.toNat / 16 % 16 = 0 → ∃ f, decode w = .ok (.gemmFF32 f)))

/-! ### A step -/

/-- A step runs the decoded command: a write to CMD while BUSY = 0 is `exec` of the command its word decodes to, the
input taken and the programming agent released. (That a CMD write is an input is the model's form, log entry 4; that any CMD
write, NOP included, releases the agent is its reading of R1018, log entry 10.) -/
def Obligations.StepRunsDecodedCommand : Prop :=
  ∀ (s : State) (agent v : Nat) (rest : List Input) (i : Instr),
    s.inputs = .write agent (s.params.base + 0x008) 4 v :: rest → s.foreign agent = false → s.status.busy = false →
    decode (BitVec.ofNat 32 v) = .ok i → step s = exec i { s with inputs := rest, owner := none }

/-- A CMD write whose command other agents interleave with is its acceptance alone: BUSY is set and the engine is before its
first tile. While BUSY it is dropped with WERR, from a second host it is refused, and where no command starts (an illegal
word, NOP, a failed start check, a broken contract) it does what the plain CMD write does. (The input `start` is the model's
form, log entry 17; the refusal is log entry 10's.) -/
def Obligations.StartOnlyAccepts : Prop :=
  ∀ (s : State) (agent : Nat) (w : Word) (rest : List Input), s.inputs = .start agent w :: rest →
    let starts (l : Latch) := ∃ i, decode w = .ok i ∧ i.latch = some l ∧ s.startCheck l = none ∧
      (s.contractStop l).isNone = true
    (∀ other, s.owner = some other → other ≠ agent → step s = .refused .twoHosts) ∧
    (s.foreign agent = false → s.status.busy = true →
      step s = .next { s with inputs := rest, status := { s.status with werr := true } }) ∧
    (s.foreign agent = false → s.status.busy = false → (∀ l, ¬starts l) →
      step s = step { s with inputs := .write agent (s.params.base + 0x008) 4 w.toNat :: rest }) ∧
    (∀ l, s.foreign agent = false → s.status.busy = false → starts l →
      ∃ t, step s = .next t ∧ t.status = ⟨true, false, false, s.status.werr⟩ ∧ t.errCause = .none ∧ t.errInfo = 0 ∧
        t.engine.latch = l ∧ t.engine.cb = 0 ∧ t.engine.rb = 0 ∧ t.engine.k = 0 ∧ t.mem = s.mem ∧ t.desc = s.desc ∧
        t.irqEn = s.irqEn ∧ t.inputs = rest)

/-- R304: a word that selects no row, written to CMD, starts no kernel, ends in an error, and makes no memory access; while
BUSY = 1 any word is dropped and sets WERR. -/
def Obligations.IllegalWordEndsInError : Prop :=
  ∀ (s : State) (agent : Nat) (w : Word) (rest : List Input),
    s.inputs = .write agent (s.params.base + 0x008) 4 w.toNat :: rest → s.foreign agent = false →
    ((∀ row ∈ opcodeRows, row.selects w = false) → s.status.busy = false →
      ∃ t, step s = .next t ∧ t.status = ⟨false, false, true, s.status.werr⟩ ∧ t.mem = s.mem ∧ t.desc = s.desc ∧
        t.irqEn = s.irqEn ∧ t.inputs = rest ∧
        ((decode w = .error (.illegalCmd w) ∧ t.readReg .errCause = 1#32 ∧ t.readReg .errInfo = w) ∨
          (decode w = .error (.illegalDstType (dstField w)) ∧ t.readReg .errCause = 2#32 ∧
            t.readReg .errInfo = (dstField w).setWidth 32))) ∧
    (s.status.busy = true → step s = .next { s with inputs := rest, status := { s.status with werr := true } })

/-! ### The register window -/

/-- R103: while BUSY = 1 a write to CMD or to a descriptor register is dropped and sets WERR, and a write to STATUS or
IRQ_EN takes effect. -/
def Obligations.BusyWritesAreDropped : Prop :=
  ∀ (s : State) (agent v : Nat) (rest : List Input), s.status.busy = true → s.foreign agent = false →
    (s.inputs = .write agent (s.params.base + 0x008) 4 v :: rest →
      step s = .next { s with inputs := rest, status := { s.status with werr := true } }) ∧
    (∀ r : DescReg, s.inputs = .write agent (s.params.base + r.offset) 4 v :: rest →
      step s = .next { s with inputs := rest, status := { s.status with werr := true } }) ∧
    (s.inputs = .write agent (s.params.base + 0x00C) 4 v :: rest →
      step s = .next { s with
        inputs := rest
        status := ⟨true, s.status.done && !v.testBit 1, s.status.err && !v.testBit 2, s.status.werr && !v.testBit 3⟩ }) ∧
    (s.inputs = .write agent (s.params.base + 0x010) 4 v :: rest →
      ∃ t, step s = .next t ∧ t = { s with inputs := rest, irqEn := t.irqEn } ∧
        ∀ n, (t.readReg .irqEn).getLsbD n = (decide (1 ≤ n) && decide (n ≤ 3) && v.testBit n))

/-- R1002: DONE and ERR hold until the host writes 1 to the bit, until the next accepted command, or until reset; WERR
holds until the host writes 1 to it or reset, and no command clears it. -/
def Obligations.StatusBitsHoldUntilCleared : Prop :=
  ∀ s t : State, step s = .next t →
    let isReset := ∃ rest, s.inputs = .reset :: rest
    let clears (n : Nat) := ∃ agent v rest, s.inputs = .write agent (s.params.base + 0x00C) 4 v :: rest ∧
      (BitVec.ofNat 32 v).getLsbD n = true
    let accepts := s.status.busy = false ∧ ∃ agent v rest, BitVec.ofNat 32 v ≠ 0#32 ∧
      (s.inputs = .write agent (s.params.base + 0x008) 4 v :: rest ∨ s.inputs = .start agent (BitVec.ofNat 32 v) :: rest)
    (s.status.done = true → t.status.done = true ∨ isReset ∨ clears 1 ∨ accepts) ∧
    (s.status.err = true → t.status.err = true ∨ isReset ∨ clears 2 ∨ accepts) ∧
    (s.status.werr = true → t.status.werr = true ∨ isReset ∨ clears 3)

/-- R104: a write while BUSY = 0 to a descriptor register stores all 32 bits of it and leaves every other register, and a
read returns the value held. -/
def Obligations.DescriptorWriteThenRead : Prop :=
  ∀ (s : State) (agent : Nat) (v : Word) (rest : List Input) (r : DescReg),
    (s.inputs = .write agent (s.params.base + r.offset) 4 v.toNat :: rest → s.foreign agent = false →
      s.status.busy = false →
      ∃ t, step s = .next t ∧ t.readReg (.desc r) = v ∧
        (∀ n : RegName, n ≠ .desc r → t.readReg n = s.readReg n) ∧ t.mem = s.mem ∧ t.engine = s.engine) ∧
    (s.inputs = .read agent (s.params.base + r.offset) 4 :: rest →
      step s = .next { s with inputs := rest, busData := (s.readReg (.desc r)).toNat })

/-- R105 and R106: ID and VERSION read their constants, and a write to one has no effect and does not set WERR; a write to
ERR_CAUSE or ERR_INFO has none either (R110, R111). -/
def Obligations.IdentificationIsReadOnly : Prop :=
  ∀ (s : State) (agent v : Nat) (rest : List Input),
    (s.inputs = .read agent (s.params.base + 0x000) 4 :: rest →
      step s = .next { s with inputs := rest, busData := 0x47454D38 }) ∧
    (s.inputs = .read agent (s.params.base + 0x004) 4 :: rest →
      step s = .next { s with inputs := rest, busData := 0x00010000 }) ∧
    (s.foreign agent = false →
      (s.inputs = .write agent (s.params.base + 0x000) 4 v :: rest ∨
        s.inputs = .write agent (s.params.base + 0x004) 4 v :: rest ∨
        s.inputs = .write agent (s.params.base + 0x014) 4 v :: rest ∨
        s.inputs = .write agent (s.params.base + 0x018) 4 v :: rest) →
      step s = .next { s with inputs := rest })

/-- R102: reserved offsets read 0 and ignore writes without setting WERR, and reserved bits of STATUS, IRQ_EN and ERR_CAUSE
read 0 and ignore writes. -/
def Obligations.ReservedSpaceIsInert : Prop :=
  (∀ (s : State) (agent v offset : Nat) (rest : List Input), offset % 4 = 0 →
    (offset = 0x01C ∨ (0x0A8 ≤ offset ∧ offset ≤ 0x0FC)) →
    (s.inputs = .read agent (s.params.base + offset) 4 :: rest →
      step s = .next { s with inputs := rest, busData := 0 }) ∧
    (s.foreign agent = false → s.inputs = .write agent (s.params.base + offset) 4 v :: rest →
      step s = .next { s with inputs := rest })) ∧
  (∀ (s : State) (n : Nat),
    (4 ≤ n → (s.readReg .status).getLsbD n = false) ∧
    ((n = 0 ∨ 4 ≤ n) → (s.readReg .irqEn).getLsbD n = false) ∧
    (8 ≤ n → (s.readReg .errCause).getLsbD n = false)) ∧
  (∀ (s : State) (agent : Nat) (v v' : Word), (∀ n, 1 ≤ n → n ≤ 3 → v.getLsbD n = v'.getLsbD n) →
    s.writeReg agent v .status = s.writeReg agent v' .status ∧ s.writeReg agent v .irqEn = s.writeReg agent v' .irqEn ∧
    s.writeReg agent v .errCause = s.writeReg agent v' .errCause)

/-- The control registers on the bus: a read of CMD gives 0 (R107), of STATUS its four fields at their bits (R108), of IRQ_EN
its three (R109), of ERR_CAUSE the code of R1010 (R110) and of ERR_INFO the detail (R111), and changes nothing else. A write
to STATUS clears DONE, ERR and WERR where it has a 1, leaves them where it has a 0, ignores BUSY's bit, and changes nothing
else of the block. -/
def Obligations.StatusReadAndClear : Prop :=
  (∀ (s : State) (agent offset : Nat) (rest : List Input), s.inputs = .read agent (s.params.base + offset) 4 :: rest →
    let reads (value : Nat) := step s = .next { s with inputs := rest, busData := value }
    (offset = 0x008 → reads 0) ∧
    (offset = 0x00C →
      reads (bitValue s.status.busy 0 + bitValue s.status.done 1 + bitValue s.status.err 2 + bitValue s.status.werr 3)) ∧
    (offset = 0x010 → reads (bitValue s.irqEn.doneIe 1 + bitValue s.irqEn.errIe 2 + bitValue s.irqEn.werrIe 3)) ∧
    (offset = 0x014 → reads (errorCode s.errCause).toNat) ∧ (offset = 0x018 → reads s.errInfo.toNat)) ∧
  (∀ (s : State) (agent v : Nat) (rest : List Input), s.foreign agent = false →
    s.inputs = .write agent (s.params.base + 0x00C) 4 v :: rest →
    (s.readReg .status).getLsbD 0 = s.status.busy ∧ (s.readReg .status).getLsbD 1 = s.status.done ∧
    (s.readReg .status).getLsbD 2 = s.status.err ∧ (s.readReg .status).getLsbD 3 = s.status.werr ∧
    ∃ t, step s = .next t ∧ t.status.busy = s.status.busy ∧
      (t.status.done = true ↔ s.status.done = true ∧ (BitVec.ofNat 32 v).getLsbD 1 = false) ∧
      (t.status.err = true ↔ s.status.err = true ∧ (BitVec.ofNat 32 v).getLsbD 2 = false) ∧
      (t.status.werr = true ↔ s.status.werr = true ∧ (BitVec.ofNat 32 v).getLsbD 3 = false) ∧
      t.errCause = s.errCause ∧ t.errInfo = s.errInfo ∧ t.irqEn = s.irqEn ∧ t.desc = s.desc ∧ t.mem = s.mem ∧
      t.engine = s.engine)

/-- R1007: IRQ is the OR of the enabled STATUS bits; it falls when the host clears the bits or the enables, acceptance of a
command leaves only an enabled WERR to hold it, and reset drives it to 0. R109: a write to IRQ_EN, BUSY or not, stores its
bits 1 to 3 and no other, each the enable of the STATUS bit at its position, and reset clears them. -/
def Obligations.InterruptLineIsEnabledStatus : Prop :=
  ∀ s : State,
    (s.irq = true ↔ ∃ n, 1 ≤ n ∧ n ≤ 3 ∧ (s.readReg .status).getLsbD n = true ∧ (s.readReg .irqEn).getLsbD n = true) ∧
    (∀ agent, (s.writeReg agent 0x0000000E#32 .status).irq = false) ∧
    (∀ agent, (s.writeReg agent 0#32 .irqEn).irq = false) ∧
    (∀ l, (s.accept l).irq = true ↔ s.status.werr = true ∧ s.irqEn.werrIe = true) ∧
    s.resetBlock.irq = false ∧ s.resetBlock.readReg .irqEn = 0#32 ∧ State.reset.readReg .irqEn = 0#32 ∧
    (∀ (agent : Nat) (v : Word) (rest : List Input), s.foreign agent = false →
      s.inputs = .write agent (s.params.base + 0x010) 4 v.toNat :: rest →
      ∃ t, step s = .next t ∧ t = { s with inputs := rest, irqEn := t.irqEn } ∧
        ∀ n, (t.readReg .irqEn).getLsbD n = (decide (1 ≤ n) && decide (n ≤ 3) && v.getLsbD n))

/-- R101: a bus access that touches the register window and is not 32-bit at a 4-byte-aligned offset is refused. -/
def Obligations.RegisterAccessIsAlignedWord : Prop :=
  ∀ (s : State) (agent addr n v : Nat) (rest : List Input), addr < s.params.base + 256 → s.params.base < addr + n →
    0 < n → (n ≠ 4 ∨ addr % 4 ≠ 0) →
    (s.inputs = .write agent addr n v :: rest → step s = .refused .badRegisterAccess) ∧
    (s.inputs = .read agent addr n :: rest → step s = .refused .badRegisterAccess)

/-- A register write by one host between another host's first descriptor write and its CMD write is refused, and a
descriptor write, and only it, begins that time (R1018; the model's reading, log entry 10). -/
def Obligations.TwoHostsAreRefused : Prop :=
  ∀ (s : State) (agent offset v : Nat) (rest : List Input), offset < 256 → offset % 4 = 0 →
    s.inputs = .write agent (s.params.base + offset) 4 v :: rest →
    (∀ other, s.owner = some other → other ≠ agent → step s = .refused .twoHosts) ∧
    (∀ r : DescReg, s.owner = none → s.status.busy = false → r.offset = offset →
      ∃ t, step s = .next t ∧ t.owner = some agent) ∧
    (∀ t, s.owner = none → (∀ r : DescReg, r.offset ≠ offset) → step s = .next t → t.owner = none)

/-! ### Reset -/

/-- Reset (R1100) gives every register its reset value, drives IRQ to 0, leaves the engine idle with no access pending, and
changes no memory (of a block that runs no command; R1104 has the other case). -/
def Obligations.ResetGivesResetValues : Prop :=
  ∀ (s : State) (rest : List Input), s.inputs = .reset :: rest →
    ∃ t, step s = .next t ∧ (∀ n : RegName, t.readReg n = resetValue n) ∧ t.irq = false ∧ t.status.busy = false ∧
      t.engine.issued = [] ∧ (s.status.busy = false → t.mem = s.mem)

/-- The model's own starting state (R1100): its registers read the reset column. -/
def Obligations.ResetStateReadsResetValues : Prop :=
  (∀ n : RegName, State.reset.readReg n = resetValue n) ∧ State.reset.irq = false ∧ State.reset.status.busy = false

/-- Reset while BUSY stops the command; each element of the write footprint holds its old value or the value the command
would have written, and no other byte changes (R1104). Where both footprints exist each element is old or new as its own
draw says. (The draws are log entry 6's; which elements a command that is stuck could have written is log entry 7's; a stuck
command whose footprints alias leaves its write footprint free, log entry 19.) -/
def Obligations.ResetDuringCommandDraws : Prop :=
  ∀ (s : State) (rest : List Input), s.Inv → s.status.busy = true → s.inputs = .reset :: rest →
    ∃ t, step s = .next t ∧ t.status.busy = false ∧ (∀ n : RegName, t.readReg n = resetValue n) ∧
      (∀ a, (∀ i j, s.writes i j →
          a < s.dstAddr s.engine.latch.kernel i j ∨
          s.dstAddr s.engine.latch.kernel i j + s.engine.latch.kernel.elemSize ≤ a) →
        t.mem.byte? a = s.mem.byte? a) ∧
      (s.aliases s.engine.latch = false → ∀ i j, s.writes i j →
        t.mem.read? (s.dstAddr s.engine.latch.kernel i j) s.engine.latch.kernel.elemSize =
          s.mem.read? (s.dstAddr s.engine.latch.kernel i j) s.engine.latch.kernel.elemSize ∨
        t.mem.read? (s.dstAddr s.engine.latch.kernel i j) s.engine.latch.kernel.elemSize =
          some (s.elementRef s.engine.latch i j)) ∧
      (s.footprintsExist s.engine.latch = true → ∀ i j, s.writes i j →
        t.mem.read? (s.dstAddr s.engine.latch.kernel i j) s.engine.latch.kernel.elemSize =
          if Config.raceDraw s.draws (s.dstAddr s.engine.latch.kernel i j) then some (s.elementRef s.engine.latch i j)
          else s.mem.read? (s.dstAddr s.engine.latch.kernel i j) s.engine.latch.kernel.elemSize)

/-! ### Commands: completion, results, frame -/

/-- R400: NOP changes nothing while BUSY = 0, is dropped with WERR set while BUSY = 1, and a word with OP = 0 and any other
bit set is not NOP. -/
def Obligations.NopChangesNothing : Prop :=
  (∀ s : State, s.status.busy = false → exec .nop s = .next s) ∧
  (∀ s : State, s.status.busy = true → exec .nop s = .next { s with status := { s.status with werr := true } }) ∧
  (∀ w : Word, w.toNat % 16 = 0 → w ≠ 0 → decode w = .error (.illegalCmd w))

/-- Each GEMM command runs to DONE, with BUSY and ERR 0 and no cause, wherever the block is idle, the start checks pass, the
contract is kept and the footprints exist: gemmQU8, gemmQI8, gemmQI16, gemmQI32 and gemmFF32. -/
def Obligations.GemmCommandsComplete : Prop :=
  ∀ (s : State) (f : Flags),
    (s.runs ⟨.quant .u8, f⟩ = true → EndsDone (exec (.gemmQU8 f) s) s) ∧
    (s.runs ⟨.quant .i8, f⟩ = true → EndsDone (exec (.gemmQI8 f) s) s) ∧
    (s.runs ⟨.quant .i16, f⟩ = true → EndsDone (exec (.gemmQI16 f) s) s) ∧
    (s.runs ⟨.quant .i32, f⟩ = true → EndsDone (exec (.gemmQI32 f) s) s) ∧
    (s.runs ⟨.float, f⟩ = true → f.floatLegal = true → EndsDone (exec (.gemmFF32 f) s) s)

/-- The quantized commands (gemmQU8, gemmQI8, gemmQI16, gemmQI32) store, at each element of the written rectangle, what the
scalar reference gives: accumulate, correct, rescale (not for I32), add the zero point, clamp, keep the low bits. For every
choice of the parameters. (That an I32 element's zero point is added exactly under UPSTREAM_AVX2 too is log entry 9's reading
of R804 and R814; that mode and RAW are general knowledge in the spec itself.) -/
def Obligations.QuantCommandStoresReference : Prop :=
  ∀ (s : State) (d : QDst) (f : Flags), s.runs ⟨.quant d, f⟩ = true →
    ∃ t, exec (quantInstr d f) s = .next t ∧ t.status.done = true ∧
      ∀ i j, s.writes i j →
        t.mem.read? (s.dstAddr (.quant d) i j) (Kernel.quant d).elemSize = some (s.storedRef d f i j)

/-- gemmFF32 stores, at each element of the written rectangle, the clamp of the ascending chain of fused multiply-adds from
the bias. -/
def Obligations.FloatCommandStoresReference : Prop :=
  ∀ (s : State) (f : Flags), f.floatLegal = true → s.runs ⟨.float, f⟩ = true →
    ∃ t, exec (.gemmFF32 f) s = .next t ∧ t.status.done = true ∧
      ∀ i j, s.writes i j → t.mem.read? (s.dstAddr .float i j) 4 = some (s.storedFloatRef f i j)

/-- The frame of gemmQU8, gemmQI8, gemmQI16, gemmQI32 and gemmFF32 whenever one answers a next state while BUSY = 0: every
register but STATUS, ERR_CAUSE and ERR_INFO is unchanged, WERR too, and every byte outside the elements of the written
rectangle reads as before. (ACC, the iterator, the latch and the side vectors are unspecified afterwards, R145.) -/
def Obligations.GemmCommandFrame : Prop :=
  ∀ (i : Instr) (l : Latch) (s t : State), i.latch = some l → s.status.busy = false → exec i s = .next t →
    s.SameOutside t ∧
    ∀ a, (∀ r c, s.writes r c → a < s.dstAddr l.kernel r c ∨ s.dstAddr l.kernel r c + l.kernel.elemSize ≤ a) →
      t.mem.byte? a = s.mem.byte? a

/-- R424: the elements a command writes are exactly those of the rectangle, each of the destination's size. -/
def Obligations.WrittenRectangle : Prop :=
  ∀ (s : State) (l : Latch) (ws : List Store), s.geometryMask = 0 → s.kernelRun? l = some ws →
    (∀ st ∈ ws, st.size = l.kernel.elemSize) ∧
    ∀ a, (∃ st ∈ ws, st.addr = a) ↔ ∃ i j, s.writes i j ∧ a = s.dstAddr l.kernel i j

/-- R420 and R421: after the geometry check the tiles are the pairs whose origins are at most LAST_ROW and LAST_COL, NCB by NRB
of them, in column-major order; both residual extents of every tile are in 1..8, and they are the distances to the matrix
edge, cut at 8. What a tile of a quantized command puts in the masked lanes of ROWINIT, COLCORR, MVEC and EVEC is 0: the model's
reading, which follows R430 against R602's and R702's formulas (log entry 18). -/
def Obligations.ResidualExtents : Prop :=
  ∀ s : State, s.geometryMask = 0 →
    (∀ cb rb : Nat, (cb, rb) ∈ s.tiles ↔
      s.sreg .startRow + 8 * rb ≤ s.sreg .lastRow ∧ s.sreg .startCol + 8 * cb ≤ s.sreg .lastCol) ∧
    s.tiles.Pairwise (fun x y => x.1 < y.1 ∨ (x.1 = y.1 ∧ x.2 < y.2)) ∧
    (s.rowBlocks : Int) = (s.sreg .lastRow - s.sreg .startRow) / 8 + 1 ∧
    (s.colBlocks : Int) = (s.sreg .lastCol - s.sreg .startCol) / 8 + 1 ∧
    ∀ cb rb : Nat, (cb, rb) ∈ s.tiles →
      (s.rowOf rb : Int) = s.sreg .startRow + 8 * rb ∧ (s.colOf cb : Int) = s.sreg .startCol + 8 * cb ∧
      (s.residualRows rb : Int) = min (s.sreg .dstRows - (s.sreg .startRow + 8 * rb)) 8 ∧
      (s.residualCols cb : Int) = min (s.sreg .dstCols - (s.sreg .startCol + 8 * cb)) 8 ∧
      1 ≤ s.residualRows rb ∧ s.residualRows rb ≤ 8 ∧ 1 ≤ s.residualCols cb ∧ s.residualCols cb ≤ 8 ∧
      (∀ d f first, s.tileStart? ⟨.quant d, f⟩ cb rb = some first → ∀ n, n < 8 →
        (s.residualRows rb ≤ n → first.rowInit.get n = 0) ∧ (s.residualCols cb ≤ n → first.colCorr.get n = 0)) ∧
      (∀ d f acc t, d ≠ .i32 → s.tileScale? ⟨.quant d, f⟩ rb acc = some t → ∀ n, n < 8 → s.residualRows rb ≤ n →
        t.mvec.get n = 0 ∧ t.evec.get n = 0)

/-- A command reads nothing outside its read footprint: two states with the same descriptor and parameters, whose memories
agree on it and have the same bytes of the write footprint in existence, give the same element writes. -/
def Obligations.CommandReadsOnlyItsFootprint : Prop :=
  ∀ (s t : State) (l : Latch), t.desc = s.desc → t.params = s.params →
    (∀ iv ∈ s.readFootprint l, ∀ a, inInterval iv a = true → t.mem.byte? a = s.mem.byte? a) →
    (∀ iv ∈ s.writeFootprint l, ∀ a, inInterval iv a = true → t.mem.has a = s.mem.has a) →
    t.kernelRun? l = s.kernelRun? l

/-! ### Errors -/

/-- A command whose start check fails ends in one step with the cause and detail, ERR set, BUSY and DONE 0, and no
byte of memory written: gemmQU8, gemmQI8, gemmQI16, gemmQI32, gemmFF32 (R410, R1003). -/
def Obligations.FailedCheckEndsInError : Prop :=
  ∀ (i : Instr) (l : Latch) (s : State) (c : Cause) (w : Word), i.latch = some l → i.wellFormed = true →
    s.status.busy = false → s.startCheck l = some (c, w) → EndsError (exec i s) s c w

/-- R411: the geometry check, first of all checks, with one bit of ERR_INFO per condition that holds; where none holds it
passes, and BAD_GEOMETRY is not reported. -/
def Obligations.GeometryCheck : Prop :=
  ∀ (i : Instr) (l : Latch) (s : State), i.latch = some l → i.wellFormed = true → s.status.busy = false →
    let fails := s.sreg .startRow < 0 ∨ s.sreg .startCol < 0 ∨ s.sreg .startRow > s.sreg .lastRow ∨
      s.sreg .startCol > s.sreg .lastCol ∨ s.sreg .lastRow ≥ s.sreg .dstRows ∨ s.sreg .lastCol ≥ s.sreg .dstCols
    (fails → ∃ info : Word, EndsError (exec i s) s .badGeometry info ∧
      (info.getLsbD 0 = true ↔ s.sreg .startRow < 0) ∧ (info.getLsbD 1 = true ↔ s.sreg .startCol < 0) ∧
      (info.getLsbD 2 = true ↔ s.sreg .startRow > s.sreg .lastRow) ∧
      (info.getLsbD 3 = true ↔ s.sreg .startCol > s.sreg .lastCol) ∧
      (info.getLsbD 4 = true ↔ s.sreg .lastRow ≥ s.sreg .dstRows) ∧
      (info.getLsbD 5 = true ↔ s.sreg .lastCol ≥ s.sreg .dstCols) ∧ ∀ n, 6 ≤ n → info.getLsbD n = false) ∧
    (¬fails → s.geometryMask = 0 ∧ ∀ t, exec i s = .next t → t.errCause ≠ .badGeometry)

/-- R412: with the geometry good, DEPTH below 0, or for GEMM_Q no multiple of 4, ends in BAD_DEPTH with DEPTH in ERR_INFO,
and no other DEPTH does. -/
def Obligations.DepthCheck : Prop :=
  ∀ (i : Instr) (l : Latch) (s : State), i.latch = some l → i.wellFormed = true → s.status.busy = false →
    s.geometryMask = 0 →
    ((s.sreg .depth < 0 ∨ (l.kernel ≠ .float ∧ s.sreg .depth % 4 ≠ 0)) →
      EndsError (exec i s) s .badDepth (s.desc.get .depth)) ∧
    (¬(s.sreg .depth < 0 ∨ (l.kernel ≠ .float ∧ s.sreg .depth % 4 ≠ 0)) →
      ∀ t, exec i s = .next t → t.errCause ≠ .badDepth)

/-- R413: with geometry and depth good, the first pointer of the table that the command uses and that is not a multiple of
its alignment ends the command in MISALIGNED with the offset of its low half; with none, no MISALIGNED is reported. -/
def Obligations.AlignmentCheck : Prop :=
  ∀ (i : Instr) (l : Latch) (s : State), i.latch = some l → i.wellFormed = true → s.status.busy = false →
    s.geometryMask = 0 → s.badDepth l.kernel = false →
    (∀ before u after, s.alignmentTable l = before ++ u :: after → u.used = true → s.ptr u.pointer % u.alignment ≠ 0 →
      (∀ b ∈ before, b.used = true → s.ptr b.pointer % b.alignment = 0) →
      EndsError (exec i s) s .misaligned (BitVec.ofNat 32 u.offset)) ∧
    ((∀ u ∈ s.alignmentTable l, u.used = true → s.ptr u.pointer % u.alignment = 0) →
      ∀ t, exec i s = .next t → t.errCause ≠ .misaligned)

/-- An error is raised before the first memory access, and once the engine runs no step of it ends in an error (R1004). -/
def Obligations.ErrorsComeBeforeMemory : Prop :=
  (∀ (i : Instr) (l : Latch) (s t : State), i.latch = some l → s.status.busy = false → exec i s = .next t →
    t.status.err = true → t.mem = s.mem ∧ t.status.done = false) ∧
  (∀ s t : State, s.status.busy = true → s.status.err = false → s.engineStep? = some t → t.status.err = false)

/-- A `gemmFF32` term with a sums or per-channel flag stands for an illegal word and raises ILLEGAL_CMD with it (R305;
that the term has a meaning is the model's choice, log entry 12). -/
def Obligations.FloatWithForeignFlagIsIllegal : Prop :=
  ∀ (s : State) (f : Flags), f.floatLegal = false → s.status.busy = false →
    EndsError (exec (.gemmFF32 f) s) s .illegalCmd (encode (.gemmFF32 f))

/-- After the checks, a footprint that reaches 2^64 is a fault (R218); otherwise, clear of the register window and of devices and
with every byte in the launch memory (without it the command is stuck, R1112), a byte both read and written, or written for
two elements, is refused (R236). (That 2^64, the window and devices come first is the model's choice, log entry 8.) -/
def Obligations.ContractViolationsStop : Prop :=
  ∀ (i : Instr) (l : Latch) (s : State), i.latch = some l → i.wellFormed = true → s.status.busy = false →
    s.startCheck l = none →
    ((∃ iv ∈ s.readFootprint l ++ s.writeFootprint l, ∃ a, inInterval iv a = true ∧ 2 ^ 64 ≤ a) →
      exec i s = .fault .addressOverflow) ∧
    ((∀ iv ∈ s.readFootprint l ++ s.writeFootprint l, ∀ a, inInterval iv a = true → a < 2 ^ 64 ∧ s.mem.has a = true ∧
        inInterval ⟨s.params.base, 256⟩ a = false ∧ ∀ dev ∈ s.params.deviceRegions, inInterval dev a = false) →
      ((∃ ivr ∈ s.readFootprint l, ∃ ivw ∈ s.writeFootprint l, ∃ a, inInterval ivr a = true ∧ inInterval ivw a = true) ∨
        (∃ r c r' c' a, s.writes r c ∧ s.writes r' c' ∧ (r, c) ≠ (r', c') ∧
          inInterval ⟨s.dstAddr l.kernel r c, l.kernel.elemSize⟩ a = true ∧
          inInterval ⟨s.dstAddr l.kernel r' c', l.kernel.elemSize⟩ a = true)) →
      exec i s = .refused .footprintAliasing)

/-- A command that passes its checks and whose buffers overlap the block's own register window is refused (R200), and so is one
whose buffers lie on a device or on memory with read side effects (R212). (That the test against 2^64 comes before the first
and the window before the devices is the model's choice, log entry 8.) -/
def Obligations.BufferInRegisterWindowIsRefused : Prop :=
  ∀ (i : Instr) (l : Latch) (s : State), i.latch = some l → i.wellFormed = true → s.status.busy = false →
    s.startCheck l = none →
    (∀ iv ∈ s.readFootprint l ++ s.writeFootprint l, ∀ a, inInterval iv a = true → a < 2 ^ 64) →
    let meets (other : Interval) :=
      ∃ iv ∈ s.readFootprint l ++ s.writeFootprint l, ∃ a, inInterval iv a = true ∧ inInterval other a = true
    (meets ⟨s.params.base, 256⟩ → exec i s = .refused .bufferInRegisterWindow) ∧
    (¬meets ⟨s.params.base, 256⟩ → (∃ dev ∈ s.params.deviceRegions, meets dev) → exec i s = .refused .bufferInDevice)

/-- A command that passes its checks and needs a byte outside the launch memory, with its footprints below 2^64 and off the
register window and devices, never ends, whether or not they alias (R240, R1112's last row): the model has no next state for
it, and among other agents it is accepted. (The fault that stands for a stuck command is the model's choice, log entry 7; that
2^64, the window and devices come first is log entry 8's.) -/
def Obligations.MissingByteIsStuck : Prop :=
  ∀ (i : Instr) (l : Latch) (s : State), i.latch = some l → i.wellFormed = true → s.status.busy = false →
    s.startCheck l = none →
    (∀ iv ∈ s.readFootprint l ++ s.writeFootprint l, ∀ a, inInterval iv a = true → a < 2 ^ 64 ∧
      inInterval ⟨s.params.base, 256⟩ a = false ∧ ∀ dev ∈ s.params.deviceRegions, inInterval dev a = false) →
    (∃ iv ∈ s.readFootprint l ++ s.writeFootprint l, ∃ a, inInterval iv a = true ∧ s.mem.has a = false) →
    exec i s = .fault .engineStuck ∧ beginInstr i s = .next (s.accept l)

/-! ### The quantized path's arithmetic -/

/-- R704: RQ is x * M * 2^(e - 31) to the nearest integer, ties away from zero: with n = 31 + max(-e, 0) and the exact
product p = x * 2^max(e, 0) * M, RQ * 2^n is within half of 2^n of p, and away from zero where it is exactly half off. -/
def Obligations.RequantRoundsToNearest : Prop :=
  ∀ x m e : Int,
    let n := 31 + (max (-e) 0).toNat
    let p := x * 2 ^ (max e 0).toNat * m
    2 * |requantValue .exact x m e * 2 ^ n - p| ≤ 2 ^ n ∧
    (2 * |requantValue .exact x m e * 2 ^ n - p| = 2 ^ n → |p| < |requantValue .exact x m e * 2 ^ n|)

/-- The properties of RQ that R709 lists for one value: zero, symmetry in sign, zero for e at most -33, monotone. -/
def Obligations.RequantProperties : Prop :=
  (∀ x m e : Int, requantValue .exact 0 m e = 0 ∧ requantValue .exact x 0 e = 0 ∧
    requantValue .exact (-x) m e = -requantValue .exact x m e ∧
    requantValue .exact x (-m) e = -requantValue .exact x m e) ∧
  (∀ (x m : Word) (e : Int), e ≤ -33 → requantValue .exact (s32 x) (s32 m) e = 0) ∧
  (∀ x x' m e : Int, 0 ≤ m → x ≤ x' → requantValue .exact x m e ≤ requantValue .exact x' m e)

/-- R707: adding half and shifting right rounds as RHAZ does but for a negative tie, where it is one greater; with half less
one for a negative product it agrees always. -/
def Obligations.ShiftRouteAgainstRounding : Prop :=
  ∀ (p : Int) (s : Nat), 0 < s →
    (¬(p < 0 ∧ p % 2 ^ s = 2 ^ (s - 1)) → (p + 2 ^ (s - 1)) / 2 ^ s = rhaz p s) ∧
    (p < 0 ∧ p % 2 ^ s = 2 ^ (s - 1) → (p + 2 ^ (s - 1)) / 2 ^ s = rhaz p s + 1) ∧
    (p < 0 → (p + 2 ^ (s - 1) - 1) / 2 ^ s = rhaz p s)

/-- R710: saturating Y to [-2^32, 2^32] before the zero point and the clamp changes no stored value. -/
def Obligations.SaturationBeforeClampIsInvisible : Prop :=
  ∀ (y : Int) (zp lo hi : Word),
    clampInt (addDstZp .exact (max (min y (2 ^ 32)) (-(2 ^ 32))) (s32 zp)) (s32 lo) (s32 hi) =
      clampInt (addDstZp .exact y (s32 zp)) (s32 lo) (s32 hi)

/-- R802: min with CLAMP_MAX, then max with CLAMP_MIN: within the bounds in order, saturating beyond either however far, and
CLAMP_MIN where the bounds are inverted. -/
def Obligations.ClampSaturates : Prop :=
  ∀ z lo hi : Int,
    (lo ≤ hi → lo ≤ clampInt z lo hi ∧ clampInt z lo hi ≤ hi) ∧
    (lo ≤ z → z ≤ hi → clampInt z lo hi = z) ∧ (lo ≤ hi → hi < z → clampInt z lo hi = hi) ∧
    (z < lo → clampInt z lo hi = lo) ∧ (hi < lo → clampInt z lo hi = lo)

/-- Narrowing keeps the low bits, and discards nothing where the clamp bounds fit the destination (R805, R806): the element
read back as the destination type is the clamped value. -/
def Obligations.NarrowingKeepsFittingValues : Prop :=
  ∀ (s : State) (f : Flags) (acc : Word) (y : Int), s.params.int32Post = .apply → s.sreg .clampMin ≤ s.sreg .clampMax →
    (0 ≤ s.sreg .clampMin → s.sreg .clampMax ≤ 255 →
      ((s.elementBits ⟨.quant .u8, f⟩ acc y).toNat % 2 ^ 8 : Int) = s.quantValue .u8 y) ∧
    (-128 ≤ s.sreg .clampMin → s.sreg .clampMax ≤ 127 →
      ((s.elementBits ⟨.quant .i8, f⟩ acc y).setWidth 8).toInt = s.quantValue .i8 y) ∧
    (-32768 ≤ s.sreg .clampMin → s.sreg .clampMax ≤ 32767 →
      ((s.elementBits ⟨.quant .i16, f⟩ acc y).setWidth 16).toInt = s.quantValue .i16 y) ∧
    (s.elementBits ⟨.quant .i32, f⟩ acc y).toInt = s.quantValue .i32 y

/-- R502: a packed byte is read as its operand type says, the 4-term sum is the exact sum of the four products, and the ranges of
a product and of a sum for each pair of operand types are the table's, every bound attained. -/
def Obligations.DotProductRange : Prop :=
  let q (t : OperandType) (c : Fin 4 → Byte) : Quad :=
    ⟨operandValue t (c 0), operandValue t (c 1), operandValue t (c 2), operandValue t (c 3)⟩
  (∀ b : Byte, operandValue .int8 b = (if b.toNat < 128 then (b.toNat : Int) else b.toNat - 256) ∧
    operandValue .uint8 b = b.toNat) ∧
  ∀ tl tr : OperandType,
    let product (a b : Byte) : Int := operandValue tl a * operandValue tr b
    let sum (a b : Fin 4 → Byte) : Int := dot4 (q tl a) (q tr b)
    (∀ a b, sum a b = product (a 0) (b 0) + product (a 1) (b 1) + product (a 2) (b 2) + product (a 3) (b 3)) ∧
    (∀ a b, (dotRange tl tr).productLo ≤ product a b ∧ product a b ≤ (dotRange tl tr).productHi) ∧
    (∃ a b, product a b = (dotRange tl tr).productLo) ∧ (∃ a b, product a b = (dotRange tl tr).productHi) ∧
    (∀ a b, (dotRange tl tr).sumLo ≤ sum a b ∧ sum a b ≤ (dotRange tl tr).sumHi) ∧
    (∃ a b, sum a b = (dotRange tl tr).sumLo) ∧ (∃ a b, sum a b = (dotRange tl tr).sumHi)

/-- R504: after n chunks a cell of the quantized path is its start plus the dot product over the depth, modulo 2^32, and is
exactly that where it fits an s32. -/
def Obligations.AccumulatorClosedForm : Prop :=
  ∀ (s : State) (d : QDst) (f : Flags) (cb rb n : Nat) (init acc : Tile Word),
    s.tileDepths? ⟨.quant d, f⟩ cb rb n init = some acc → ∀ c r, c < 8 → r < 8 →
      let exact := s32 (Oct.at init c r) +
        ((List.range (4 * n)).map fun k => s.lhsTile (.quant d) rb r k * s.rhsTile (.quant d) cb c k).sum
      s32 (Oct.at acc c r) = wrap32 exact ∧ (-(2 ^ 31) ≤ exact → exact < 2 ^ 31 → s32 (Oct.at acc c r) = exact)

/-- R605: with both sums flags, the true sums and the true PROD_ZP_DEPTH, every valid accumulator is after Accumulate the
bias plus the dot product of the zero-point-shifted operands, modulo 2^32, in both PROD_ZP_MODEs. -/
def Obligations.ZeroPointCorrectionIsShiftedDotProduct : Prop :=
  ∀ (s : State) (d : QDst) (f : Flags) (cb rb r c : Nat) (first : TileStart) (acc : Tile Word),
    let i := s.rowOf rb + r
    let j := s.colOf cb + c
    f.lsums = true → f.rsums = true → s.geometryMask = 0 → s.badDepth (.quant d) = false → (cb, rb) ∈ s.tiles →
    r < s.residualRows rb → c < s.residualCols cb →
    s.tileStart? ⟨.quant d, f⟩ cb rb = some first →
    s.tileDepths? ⟨.quant d, f⟩ cb rb (s.depthSteps (.quant d)) first.acc = some acc →
    s32 (s.memWord (s.sideAddr .lhsSums i)) = ((List.range (s.nreg .depth)).map fun d => s.lhsRef i d).sum →
    s32 (s.memWord (s.sideAddr .rhsSums j)) = ((List.range (s.nreg .depth)).map fun d => s.rhsRef j d).sum →
    s.sreg .prodZpDepth = s.sreg .lhsZp * s.sreg .rhsZp * s.nreg .depth →
    s32 (acc.at c r) = wrap32 (s.biasRef f i +
      ((List.range (s.nreg .depth)).map fun d => (s.lhsRef i d - s.sreg .lhsZp) * (s.rhsRef j d - s.sreg .rhsZp)).sum)

/-- R606: with both zero points 0 a quantized command (gemmQU8, gemmQI8, gemmQI16, gemmQI32) does the same whatever its sums
flags say, so it reads neither sums array; and its tiles start from the bias alone, where the mode takes PROD_ZP_DEPTH with
the sums or PROD_ZP_DEPTH is 0. -/
def Obligations.ZeroPointFastPath : Prop :=
  ∀ (s : State) (d : QDst) (f : Flags) (lsums rsums : Bool), s.sreg .lhsZp = 0 → s.sreg .rhsZp = 0 →
    exec (quantInstr d { f with lsums := lsums, rsums := rsums }) s = exec (quantInstr d f) s ∧
    (s.params.prodZpMode = .withRhsSums ∨ s.sreg .prodZpDepth = 0 →
      ∀ cb rb first, s.tileStart? ⟨.quant d, f⟩ cb rb = some first → ∀ c r, c < 8 → r < 8 →
        Oct.at first.acc c r =
          if f.bias = true ∧ r < s.residualRows rb then s.memWord (s.sideAddr .bias (s.rowOf rb + r)) else 0)

/-- gemm_q.i32 reads no multiplier (R404): PERCHANNEL has no effect, and neither has the value of a multiplier register or
pointer. -/
def Obligations.Int32ReadsNoMultiplier : Prop :=
  ∀ (s : State) (f : Flags) (perch : Bool) (v : Word) (r : DescReg),
    r ∈ [DescReg.multFp, .multExp, .multFpPtrLo, .multFpPtrHi, .multExpPtrLo, .multExpPtrHi] →
    exec (.gemmQI32 { f with perch := perch }) s = exec (.gemmQI32 f) s ∧
    ∀ t, exec (.gemmQI32 f) s = .next t →
      exec (.gemmQI32 f) { s with desc := s.desc.set v r } = .next { t with desc := t.desc.set v r }

/-- Per-channel equivalence (R709): with every per-row multiplier and exponent equal to the scalar ones, a quantized command
(gemmQU8, gemmQI8, gemmQI16, gemmQI32) does exactly what it does without the flag. -/
def Obligations.PerChannelEqualsPerTensor : Prop :=
  ∀ (s : State) (d : QDst) (f : Flags), f.perch = true → s.runs ⟨.quant d, f⟩ = true →
    (∀ i j, s.writes i j → s.memWord (s.sideAddr .multFpPtr i) = s.desc.get .multFp ∧
      s.memWord (s.sideAddr .multExpPtr i) = s.desc.get .multExp) →
    exec (quantInstr d f) s = exec (quantInstr d { f with perch := false }) s

/-! ### The float path's arithmetic -/

/-- fma32 of finite operands (R905, R19; binary32 itself is presumed, log entry 15) is the exact a*b + c rounded once to
nearest, ties to even, subnormals kept, and the infinity of its sign from half a unit beyond the largest finite datum on.
Values are in units of 2^-298. -/
def Obligations.FmaRoundsOnceToNearestEven : Prop :=
  ∀ a b c : Word, fFinite a = true → fFinite b = true → fFinite c = true →
    (|fExact a b c| < (2 ^ 25 - 1) * 2 ^ 401 →
      fFinite (fma32 a b c) = true ∧
      ∀ y : Word, fFinite y = true →
        |fValue (fma32 a b c) - fExact a b c| ≤ |fValue y - fExact a b c| ∧
        (|fValue (fma32 a b c) - fExact a b c| = |fValue y - fExact a b c| → fValue y ≠ fValue (fma32 a b c) →
          fSig (fma32 a b c) % 2 = 0)) ∧
    ((2 ^ 25 - 1) * 2 ^ 401 ≤ fExact a b c → fma32 a b c = 0x7F800000#32) ∧
    (fExact a b c ≤ -((2 ^ 25 - 1) * 2 ^ 401) → fma32 a b c = 0xFF800000#32)

/-- Special operands of fma32 (R905; IEEE 754's infinities are presumed, log entry 15): NaN operands and invalid
operations give 0x7FC00000, infinities keep IEEE 754's signs, and an exact zero is -0.0 only where the product and the
addend are both zeros of negative sign. -/
def Obligations.FmaSpecialCases : Prop :=
  ∀ a b c : Word,
    ((fIsNan a = true ∨ fIsNan b = true ∨ fIsNan c = true) → fma32 a b c = 0x7FC00000#32) ∧
    (((fIsInf a = true ∧ fIsZero b = true) ∨ (fIsZero a = true ∧ fIsInf b = true)) → fma32 a b c = 0x7FC00000#32) ∧
    ((fIsInf a = true ∨ fIsInf b = true) → fIsInf c = true → fIsNan a = false → fIsNan b = false →
      fSign c ≠ (fSign a != fSign b) → fma32 a b c = 0x7FC00000#32) ∧
    ((fIsInf a = true ∨ fIsInf b = true) → fIsNan a = false → fIsNan b = false → fIsZero a = false → fIsZero b = false →
      fIsNan c = false → (fIsInf c = true → fSign c = (fSign a != fSign b)) →
      fma32 a b c = if fSign a != fSign b then 0xFF800000#32 else 0x7F800000#32) ∧
    (fFinite a = true → fFinite b = true → fIsInf c = true → fma32 a b c = c) ∧
    (fFinite a = true → fFinite b = true → fFinite c = true → fExact a b c = 0 →
      fma32 a b c =
        if (fIsZero a = true ∨ fIsZero b = true) ∧ (fSign a != fSign b) = true ∧ fIsZero c = true ∧ fSign c = true
        then 0x80000000#32 else 0x00000000#32)

/-- R907: the float clamp under SELECT is the selection formula, in the cases the rule lists bit for bit, and PROPAGATE
differs for a NaN accumulator alone. -/
def Obligations.FloatClampCases : Prop :=
  ∀ lo hi acc : Word,
    floatClamp .select lo hi acc =
      (if fLess lo (if fLess acc hi then acc else hi) then (if fLess acc hi then acc else hi) else lo) ∧
    (fIsNan acc = true → fLess lo hi = true → floatClamp .select lo hi acc = hi) ∧
    (fIsNan hi = true → floatClamp .select lo hi acc = lo) ∧
    (fIsNan lo = true → floatClamp .select lo hi acc = lo) ∧
    (fLess hi lo = true → fIsNan acc = false → floatClamp .select lo hi acc = lo) ∧
    (fLess lo acc = true → fLess acc hi = true → floatClamp .select lo hi acc = acc) ∧
    (fLess acc lo = true → floatClamp .select lo hi acc = lo) ∧
    (fLess hi acc = true → fLess lo hi = true → floatClamp .select lo hi acc = hi) ∧
    floatClamp .select 0#32 hi 0x80000000#32 = 0#32 ∧
    (fLess lo 0#32 = true ∨ lo = 0x80000000#32 → floatClamp .select lo 0x80000000#32 0#32 = 0x80000000#32) ∧
    (fIsNan acc = true → floatClamp .propagate lo hi acc = acc) ∧
    (fIsNan acc = false → floatClamp .propagate lo hi acc = floatClamp .select lo hi acc)

/-- R909: the zero points, PROD_ZP_DEPTH, the multipliers, and the sums and multiplier pointers have no effect on gemmFF32,
and its word must have the sums and per-channel flags 0. -/
def Obligations.FloatIgnoresIntegerRegisters : Prop :=
  ∀ (s t : State) (f : Flags) (v : Word) (r : DescReg),
    r ∈ [DescReg.lhsZp, .rhsZp, .dstZp, .prodZpDepth, .multFp, .multExp] ++
      [DescReg.lhsSumsLo, .lhsSumsHi, .rhsSumsLo, .rhsSumsHi, .multFpPtrLo, .multFpPtrHi, .multExpPtrLo, .multExpPtrHi] →
    (exec (.gemmFF32 f) s = .next t →
      exec (.gemmFF32 f) { s with desc := s.desc.set v r } = .next { t with desc := t.desc.set v r }) ∧
    (f.lsums = true ∨ f.rsums = true ∨ f.perch = true →
      decode (encode (.gemmFF32 f)) = .error (.illegalCmd (encode (.gemmFF32 f))))

/-! ### The engine among other agents -/

/-- Running the engine step by step gives what the command gives as a whole: from acceptance, in `engineStepCount` steps, it
reaches the very state `exec` answers, or gets stuck where `exec` does (R425, R1120). (The order of the engine's steps and
element writes at DONE are log entry 5's, and agents among engine steps log entry 17's.) -/
def Obligations.EngineStepsRefineCommand : Prop :=
  ∀ (i : Instr) (l : Latch) (s : State), i.latch = some l → i.wellFormed = true → s.status.busy = false →
    s.startCheck l = none → (s.contractStop l).isNone = true →
    beginInstr i s = .next (s.accept l) ∧
    (∀ t, State.engineSteps? (s.engineStepCount l) (s.accept l) = some t ↔ exec i s = .next t) ∧
    (State.engineSteps? (s.engineStepCount l) (s.accept l) = none ↔ exec i s = .fault .engineStuck)

/-- A command whose every access is in the launch memory ends with DONE after a finite number of engine steps (R1121). A step of
the machine takes such an engine step while BUSY, with no input left or on the input `engine`; a stuck engine (R240) has no
step of its own, and at its turn among other inputs changes nothing and stays BUSY; an idle block waits (R1101). (The fault
that stands for a lone stuck engine is the model's choice, log entry 7; the input `engine` is its form, log entry 17.) -/
def Obligations.CommandEndsInFiniteSteps : Prop :=
  (∀ (s : State) (l : Latch), s.runs l = true →
    ∃ t, State.engineSteps? (s.engineStepCount l) (s.accept l) = some t ∧ t.status.busy = false ∧ t.status.done = true) ∧
  (∀ s : State, s.inputs = [] →
    (∀ t, s.status.busy = true → s.engineStep? = some t → step s = .next t) ∧
    (s.status.busy = true → s.engineStep? = none → step s = .fault .engineStuck) ∧
    (s.status.busy = false → step s = .next s)) ∧
  (∀ (s : State) (rest : List Input), s.inputs = .engine :: rest →
    let turn : State := { s with inputs := rest }
    (∀ t, s.status.busy = true → turn.engineStep? = some t → step s = .next t) ∧
    (s.status.busy = true → turn.engineStep? = none → step s = .next turn) ∧
    (s.status.busy = false → step s = .next turn))

/-- R1114: while BUSY no step but reset changes the descriptor, or the latch of a command that goes on. -/
def Obligations.DescriptorIsImmutableWhileBusy : Prop :=
  ∀ s t : State, s.status.busy = true → step s = .next t → (∀ rest, s.inputs ≠ .reset :: rest) →
    t.desc = s.desc ∧ (t.status.busy = true → t.engine.latch = s.engine.latch)

/-- Another agent's read of a destination element while BUSY sees its old value or the value the command would write, whole,
and changes neither memory nor the command (R211, R235); where both footprints exist, the draw says which. Every other read
of existing bytes off the window and off devices, BUSY or not, returns them as memory holds them and changes nothing of the
block (R231, R235). (How the model draws is log entry 6's, and which elements a stuck command can write log entry 7's; a
stuck command whose footprints alias shows free values in its write footprint, log entry 19; the bus value is kept in a field
of the model's own, log entry 14.) -/
def Obligations.BusyReadSeesOldOrNew : Prop :=
  (∀ (s : State) (agent i j : Nat) (rest : List Input), s.Inv → s.status.busy = true → s.writes i j →
    s.mem.covers (s.dstAddr s.engine.latch.kernel i j) s.engine.latch.kernel.elemSize = true →
    s.inputs = .read agent (s.dstAddr s.engine.latch.kernel i j) s.engine.latch.kernel.elemSize :: rest →
    ∃ t, step s = .next t ∧ t.mem = s.mem ∧ t.engine = s.engine ∧ t.status = s.status ∧
      (s.aliases s.engine.latch = false →
        s.mem.read? (s.dstAddr s.engine.latch.kernel i j) s.engine.latch.kernel.elemSize = some t.busData ∨
        t.busData = s.elementRef s.engine.latch i j) ∧
      (s.footprintsExist s.engine.latch = true →
        some t.busData =
          if Config.raceDraw s.draws (s.dstAddr s.engine.latch.kernel i j) then some (s.elementRef s.engine.latch i j)
          else s.mem.read? (s.dstAddr s.engine.latch.kernel i j) s.engine.latch.kernel.elemSize)) ∧
  (∀ (s : State) (agent addr n : Nat) (rest : List Input), s.mem.covers addr n = true →
    (∀ a, addr ≤ a → a < addr + n →
      inInterval ⟨s.params.base, 256⟩ a = false ∧ ∀ dev ∈ s.params.deviceRegions, inInterval dev a = false) →
    (s.status.busy = true → ∀ i j, s.writes i j → ∀ a, addr ≤ a → a < addr + n →
      inInterval ⟨s.dstAddr s.engine.latch.kernel i j, s.engine.latch.kernel.elemSize⟩ a = false) →
    s.inputs = .read agent addr n :: rest →
    ∃ t, step s = .next t ∧ s.mem.read? addr n = some t.busData ∧
      t = { s with inputs := rest, busData := t.busData, draws := t.draws })

/-- Another agent's write that meets a running command's footprints in any byte is refused (R235). Every other write of existing
bytes off the window and off devices, BUSY or not, lands: the bytes read back, and no other byte and nothing of the block
changes (R230, R234, R235). -/
def Obligations.BusyWriteToFootprintIsRefused : Prop :=
  ∀ (s : State) (agent addr n v : Nat) (rest : List Input), 0 < n → s.mem.covers addr n = true →
    (∀ a, addr ≤ a → a < addr + n →
      inInterval ⟨s.params.base, 256⟩ a = false ∧ ∀ dev ∈ s.params.deviceRegions, inInterval dev a = false) →
    s.inputs = .write agent addr n v :: rest →
    let meets := ∃ iv ∈ s.readFootprint s.engine.latch ++ s.writeFootprint s.engine.latch,
      ∃ a, addr ≤ a ∧ a < addr + n ∧ inInterval iv a = true
    (s.status.busy = true → meets → step s = .refused .footprintRace) ∧
    ((s.status.busy = true → ¬meets) → ∃ t, step s = .next t ∧ t.mem.read? addr n = some (v % 2 ^ (8 * n)) ∧
      (∀ a, a < addr ∨ addr + n ≤ a → t.mem.byte? a = s.mem.byte? a) ∧ t = { s with inputs := rest, mem := t.mem })

/-! ### Memory -/

/-- R203: a multi-byte element is the sum of its bytes, the byte at the lowest address lowest; what is written to bytes that
exist is read back, and no other byte changes. -/
def Obligations.MemoryIsLittleEndian : Prop :=
  (∀ (m : Memory) (a n : Nat), m.covers a n = true →
    m.read? a n = some ((List.range n).map fun k => ((m.byte? (a + k)).getD 0).toNat * 2 ^ (8 * k)).sum) ∧
  (∀ (m : Memory) (a n v : Nat), m.covers a n = true →
    (m.write a n v).read? a n = some (v % 2 ^ (8 * n)) ∧
    ∀ x, x < a ∨ a + n ≤ x → (m.write a n v).byte? x = m.byte? x)

/-! ### The invariant -/

/-- Every step from a state that meets the invariant gives a state that meets it. -/
def Obligations.StepKeepsInvariant : Prop := ∀ s t : State, s.Inv → step s = .next t → t.Inv

/-- The state after reset meets the invariant. -/
def Obligations.ResetMeetsInvariant : Prop := State.reset.Inv
end

