-- ==== Sys2Proof/Laws/Memory.lean ====
section
/-! SUPPORT. Laws/Memory.lean: the laws of the launch memory: what a write leaves readable, that no operation makes or
destroys a byte, and that the canonical form is kept. -/

namespace Sys2Proof.Machine

theorem Memory.byte?_writeByte (m : Memory) (a : Nat) (b : Byte) (x : Nat) :
    (m.writeByte a b).byte? x = if x = a ∧ m.has a = true then some b else m.byte? x := by
  induction m with
  | nil => simp [Memory.writeByte, Memory.byte?, Memory.has]
  | cons c rest ih =>
    obtain ⟨k, v⟩ := c
    have hcons : Memory.writeByte ((k, v) :: rest) a b = (k, if k = a then b else v) :: Memory.writeByte rest a b := by
      simp only [Memory.writeByte, List.map_cons]
      split <;> rfl
    rw [hcons, Memory.byte?, Memory.byte?, Memory.has, Memory.byte?]
    by_cases hx : k = x
    · by_cases ha : k = a <;> simp_all [Memory.has]
    · rw [if_neg hx, if_neg hx, ih, Memory.has]
      by_cases ha : k = a
      · have : ¬x = a := fun h => hx (ha.trans h.symm)
        simp [this]
      · rw [if_neg ha]

@[simp] theorem Memory.has_writeByte (m : Memory) (a : Nat) (b : Byte) (x : Nat) :
    (m.writeByte a b).has x = m.has x := by
  unfold Memory.has
  rw [Memory.byte?_writeByte]
  split
  · rename_i h
    obtain ⟨rfl, h⟩ := h
    simpa [Memory.has] using h.symm
  · rfl

/-- A byte outside the written ones keeps its value. -/
theorem Memory.byte?_write_ne (n : Nat) : ∀ (m : Memory) (addr v x : Nat), (x < addr ∨ addr + n ≤ x) →
    (m.write addr n v).byte? x = m.byte? x := by
  induction n with
  | zero => intro m addr v x _; rfl
  | succ n ih =>
    intro m addr v x hx
    rw [Memory.write, ih _ _ _ _ (by omega), Memory.byte?_writeByte, if_neg (by omega)]

/-- A written byte that exists holds its byte of the value, the lowest byte at the lowest address (R203). -/
theorem Memory.byte?_write_at (n : Nat) : ∀ (m : Memory) (addr v k : Nat), k < n → m.has (addr + k) = true →
    (m.write addr n v).byte? (addr + k) = some (BitVec.ofNat 8 (v / 256 ^ k)) := by
  induction n with
  | zero => intro m addr v k hk; omega
  | succ n ih =>
    intro m addr v k hk h
    cases k with
    | zero =>
      rw [Memory.write, Memory.byte?_write_ne _ _ _ _ _ (by omega), Memory.byte?_writeByte]
      simp_all
    | succ k =>
      have := ih (m.writeByte addr (BitVec.ofNat 8 v)) (addr + 1) (v / 256) k (by omega)
        (by rw [Memory.has_writeByte]; rw [show addr + 1 + k = addr + (k + 1) by omega]; exact h)
      rw [show addr + (k + 1) = addr + 1 + k by omega, Memory.write, this, Nat.div_div_eq_div_mul,
        show (256 : Nat) * 256 ^ k = 256 ^ (k + 1) by ring]

@[simp] theorem Memory.has_write (n : Nat) : ∀ (m : Memory) (addr v x : Nat),
    (m.write addr n v).has x = m.has x := by
  induction n with
  | zero => intro m addr v x; rfl
  | succ n ih => intro m addr v x; rw [Memory.write, ih, Memory.has_writeByte]

@[simp] theorem Memory.has_storeAll (ws : List Store) : ∀ (m : Memory) (x : Nat), (m.storeAll ws).has x = m.has x := by
  induction ws with
  | nil => intro m x; rfl
  | cons st ws ih =>
    intro m x
    simp only [Memory.storeAll, List.foldl_cons] at ih ⊢
    rw [ih, Memory.store, Memory.has_write]

/-- Element writes leave every byte outside all of them alone (R211). -/
theorem Memory.byte?_storeAll_ne (ws : List Store) : ∀ (m : Memory) (x : Nat),
    (∀ st ∈ ws, x < st.addr ∨ st.addr + st.size ≤ x) → (m.storeAll ws).byte? x = m.byte? x := by
  induction ws with
  | nil => intro m x _; rfl
  | cons st ws ih =>
    intro m x h
    simp only [Memory.storeAll, List.foldl_cons] at ih ⊢
    rw [ih _ _ (fun t ht => h t (List.mem_cons_of_mem _ ht)), Memory.store,
      Memory.byte?_write_ne _ _ _ _ _ (h st List.mem_cons_self)]

theorem Memory.covers_iff (n : Nat) : ∀ (m : Memory) (addr : Nat),
    m.covers addr n = true ↔ ∀ a, addr ≤ a → a < addr + n → m.has a = true := by
  induction n with
  | zero => intro m addr; simp [Memory.covers]; omega
  | succ n ih =>
    intro m addr
    rw [Memory.covers, Bool.and_eq_true, ih]
    constructor
    · rintro ⟨h0, h⟩ a h1 h2
      by_cases ha : a = addr
      · exact ha ▸ h0
      · exact h a (by omega) (by omega)
    · intro h
      exact ⟨h addr (by omega) (by omega), fun a h1 h2 => h a (by omega) (by omega)⟩

/-- A read answers exactly where every byte exists (R240). -/
theorem Memory.read?_isSome (n : Nat) : ∀ (m : Memory) (addr : Nat), (m.read? addr n).isSome = m.covers addr n := by
  induction n with
  | zero => intro m addr; rfl
  | succ n ih =>
    intro m addr
    rw [Memory.read?, Memory.covers, ← ih, Memory.has]
    cases m.byte? addr <;> cases m.read? (addr + 1) n <;> rfl

/-- Reads of two memories agree where their bytes do. -/
theorem Memory.read?_congr (n : Nat) : ∀ (m m' : Memory) (addr : Nat),
    (∀ a, addr ≤ a → a < addr + n → m'.byte? a = m.byte? a) → m'.read? addr n = m.read? addr n := by
  induction n with
  | zero => intro m m' addr _; rfl
  | succ n ih =>
    intro m m' addr h
    rw [Memory.read?, Memory.read?, h addr (by omega) (by omega), ih m m' (addr + 1) (fun a h1 h2 => h a (by omega) (by omega))]

/-- Reading back what was written gives the low n bytes of the value (R16, R203). -/
theorem Memory.read?_write (n : Nat) : ∀ (m : Memory) (addr v : Nat), m.covers addr n = true →
    (m.write addr n v).read? addr n = some (v % 256 ^ n) := by
  induction n with
  | zero => intro m addr v _; simp [Memory.read?, Nat.mod_one]
  | succ n ih =>
    intro m addr v h
    rw [Memory.covers_iff] at h
    have h0 := Memory.byte?_write_at (n + 1) m addr v 0 (by omega) (h addr (by omega) (by omega))
    have hrest : (m.write addr (n + 1) v).read? (addr + 1) n = some (v / 256 % 256 ^ n) := by
      rw [Memory.write]
      refine ih _ _ _ ?_
      rw [Memory.covers_iff]
      intro a h1 h2
      rw [Memory.has_writeByte]
      exact h a (by omega) (by omega)
    simp only [Nat.add_zero, Nat.pow_zero, Nat.div_one] at h0
    rw [Memory.read?, h0, hrest]
    simp only [BitVec.toNat_ofNat, Option.some.injEq]
    rw [show (256 : Nat) ^ (n + 1) = 256 * 256 ^ n by ring, Nat.mod_mul]

/-- A byte after a replacement: the picked ones that exist are replaced, every other is as before. -/
theorem Memory.byte?_replace (m : Memory) (p : Nat → Bool) (f : Nat → Byte) (x : Nat) :
    (m.replace p f).byte? x = if p x then (m.byte? x).map fun _ => f x else m.byte? x := by
  induction m with
  | nil => simp [Memory.replace, Memory.byte?]
  | cons c rest ih =>
    obtain ⟨k, v⟩ := c
    have hcons : Memory.replace ((k, v) :: rest) p f = (k, if p k then f k else v) :: Memory.replace rest p f := by
      simp only [Memory.replace, List.map_cons]
      split <;> rfl
    rw [hcons, Memory.byte?, Memory.byte?, ih]
    by_cases hx : k = x
    · subst hx
      cases p k <;> simp
    · simp only [if_neg hx]

@[simp] theorem Memory.has_replace (m : Memory) (p : Nat → Bool) (f : Nat → Byte) (x : Nat) :
    (m.replace p f).has x = m.has x := by
  rw [Memory.has, Memory.byte?_replace, Memory.has]
  cases p x <;> simp

/-- Which runs of bytes exist is a matter of which bytes do. -/
theorem Memory.covers_congr {m m' : Memory} (h : ∀ a, m'.has a = m.has a) (addr n : Nat) :
    m'.covers addr n = m.covers addr n := by
  induction n generalizing addr with
  | zero => rfl
  | succ n ih => rw [Memory.covers, Memory.covers, h, ih]

/-! ### The canonical form -/

theorem risingFrom_map (f : Host.Cell → Host.Cell) (hf : ∀ c, (f c).1 = c.1) (m : Memory) :
    ∀ lo, risingFrom lo (m.map f) = risingFrom lo m := by
  induction m with
  | nil => intro lo; rfl
  | cons c rest ih =>
    intro lo
    have h := hf c
    rw [List.map_cons]
    rcases hc : f c with ⟨a, b⟩
    rw [hc] at h
    rcases c with ⟨a', b'⟩
    dsimp only at h
    subst h
    rw [risingFrom, risingFrom, ih]

/-- Writing a byte keeps the canonical form. -/
theorem Memory.wf_writeByte (m : Memory) (a : Nat) (b : Byte) : (m.writeByte a b).wf = m.wf := by
  have hf : ∀ c : Host.Cell, (if c.1 = a then (c.1, b) else c).1 = c.1 := by intro c; split <;> rfl
  rw [Memory.wf, Memory.wf, Memory.writeByte, risingFrom_map _ hf]
  congr 1
  rw [List.all_map]
  congr 1
  funext c
  simp only [Function.comp, hf]

theorem Memory.wf_write (n : Nat) : ∀ (m : Memory) (addr v : Nat), (m.write addr n v).wf = m.wf := by
  induction n with
  | zero => intro m addr v; rfl
  | succ n ih => intro m addr v; rw [Memory.write, ih, Memory.wf_writeByte]

/-- Replacing bytes keeps the canonical form. -/
theorem Memory.wf_replace (m : Memory) (p : Nat → Bool) (f : Nat → Byte) : (m.replace p f).wf = m.wf := by
  have hf : ∀ c : Host.Cell, (if p c.1 then (c.1, f c.1) else c).1 = c.1 := by intro c; split <;> rfl
  rw [Memory.wf, Memory.wf, Memory.replace, risingFrom_map _ hf]
  congr 1
  rw [List.all_map]
  congr 1
  funext c
  simp only [Function.comp, hf]

theorem Memory.wf_store (m : Memory) (st : Store) : (m.store st).wf = m.wf := Memory.wf_write _ _ _ _

/-- Element writes keep the canonical form. -/
theorem Memory.wf_storeAll (ws : List Store) : ∀ m : Memory, (m.storeAll ws).wf = m.wf := by
  induction ws with
  | nil => intro m; rfl
  | cons st ws ih =>
    intro m
    simp only [Memory.storeAll, List.foldl_cons] at ih ⊢
    rw [ih, Memory.wf_store]

end Sys2Proof.Machine
end

