-- ==== Sys2Proof/Laws/State.lean ====
section
/-! SUPPORT. Laws/State.lean: what each update of the state leaves in each field, one lemma per field, and that the functions
of the descriptor depend on the descriptor alone. -/

namespace Sys2Proof.Machine

/-! ### One lemma per field per update -/

@[simp] theorem State.dropWrite_params (s : State) : s.dropWrite.params = s.params := rfl
@[simp] theorem State.dropWrite_status (s : State) : s.dropWrite.status = { s.status with werr := true } := rfl
@[simp] theorem State.dropWrite_irqEn (s : State) : s.dropWrite.irqEn = s.irqEn := rfl
@[simp] theorem State.dropWrite_errCause (s : State) : s.dropWrite.errCause = s.errCause := rfl
@[simp] theorem State.dropWrite_errInfo (s : State) : s.dropWrite.errInfo = s.errInfo := rfl
@[simp] theorem State.dropWrite_desc (s : State) : s.dropWrite.desc = s.desc := rfl
@[simp] theorem State.dropWrite_engine (s : State) : s.dropWrite.engine = s.engine := rfl
@[simp] theorem State.dropWrite_mem (s : State) : s.dropWrite.mem = s.mem := rfl
@[simp] theorem State.dropWrite_busData (s : State) : s.dropWrite.busData = s.busData := rfl
@[simp] theorem State.dropWrite_inputs (s : State) : s.dropWrite.inputs = s.inputs := rfl
@[simp] theorem State.dropWrite_owner (s : State) : s.dropWrite.owner = s.owner := rfl
@[simp] theorem State.dropWrite_draws (s : State) : s.dropWrite.draws = s.draws := rfl

@[simp] theorem State.idle_params (s : State) : s.idle.params = s.params := rfl
@[simp] theorem State.idle_status (s : State) : s.idle.status = s.status := rfl
@[simp] theorem State.idle_irqEn (s : State) : s.idle.irqEn = s.irqEn := rfl
@[simp] theorem State.idle_errCause (s : State) : s.idle.errCause = s.errCause := rfl
@[simp] theorem State.idle_errInfo (s : State) : s.idle.errInfo = s.errInfo := rfl
@[simp] theorem State.idle_desc (s : State) : s.idle.desc = s.desc := rfl
@[simp] theorem State.idle_engine (s : State) : s.idle.engine = idleEngine s.draws := rfl
@[simp] theorem State.idle_mem (s : State) : s.idle.mem = s.mem := rfl
@[simp] theorem State.idle_busData (s : State) : s.idle.busData = s.busData := rfl
@[simp] theorem State.idle_inputs (s : State) : s.idle.inputs = s.inputs := rfl
@[simp] theorem State.idle_owner (s : State) : s.idle.owner = s.owner := rfl
@[simp] theorem State.idle_draws (s : State) : s.idle.draws = s.draws + 1 := rfl

@[simp] theorem State.clearForCommand_params (s : State) : s.clearForCommand.params = s.params := rfl
@[simp] theorem State.clearForCommand_status (s : State) : s.clearForCommand.status = { s.status with busy := true, done := false, err := false } := rfl
@[simp] theorem State.clearForCommand_irqEn (s : State) : s.clearForCommand.irqEn = s.irqEn := rfl
@[simp] theorem State.clearForCommand_errCause (s : State) : s.clearForCommand.errCause = .none := rfl
@[simp] theorem State.clearForCommand_errInfo (s : State) : s.clearForCommand.errInfo = 0 := rfl
@[simp] theorem State.clearForCommand_desc (s : State) : s.clearForCommand.desc = s.desc := rfl
@[simp] theorem State.clearForCommand_engine (s : State) : s.clearForCommand.engine = s.engine := rfl
@[simp] theorem State.clearForCommand_mem (s : State) : s.clearForCommand.mem = s.mem := rfl
@[simp] theorem State.clearForCommand_busData (s : State) : s.clearForCommand.busData = s.busData := rfl
@[simp] theorem State.clearForCommand_inputs (s : State) : s.clearForCommand.inputs = s.inputs := rfl
@[simp] theorem State.clearForCommand_owner (s : State) : s.clearForCommand.owner = s.owner := rfl
@[simp] theorem State.clearForCommand_draws (s : State) : s.clearForCommand.draws = s.draws := rfl

@[simp] theorem State.accept_params (s : State) (l : Latch) : (s.accept l).params = s.params := rfl
@[simp] theorem State.accept_status (s : State) (l : Latch) : (s.accept l).status = { s.status with busy := true, done := false, err := false } := rfl
@[simp] theorem State.accept_irqEn (s : State) (l : Latch) : (s.accept l).irqEn = s.irqEn := rfl
@[simp] theorem State.accept_errCause (s : State) (l : Latch) : (s.accept l).errCause = .none := rfl
@[simp] theorem State.accept_errInfo (s : State) (l : Latch) : (s.accept l).errInfo = 0 := rfl
@[simp] theorem State.accept_desc (s : State) (l : Latch) : (s.accept l).desc = s.desc := rfl
@[simp] theorem State.accept_engine (s : State) (l : Latch) : (s.accept l).engine = { s.engine with latch := l, cb := 0, rb := 0, k := 0, phase := .start, issued := [] } := rfl
@[simp] theorem State.accept_mem (s : State) (l : Latch) : (s.accept l).mem = s.mem := rfl
@[simp] theorem State.accept_busData (s : State) (l : Latch) : (s.accept l).busData = s.busData := rfl
@[simp] theorem State.accept_inputs (s : State) (l : Latch) : (s.accept l).inputs = s.inputs := rfl
@[simp] theorem State.accept_owner (s : State) (l : Latch) : (s.accept l).owner = s.owner := rfl
@[simp] theorem State.accept_draws (s : State) (l : Latch) : (s.accept l).draws = s.draws := rfl

@[simp] theorem State.raiseError_params (s : State) (c : Cause) (w : Word) : (s.raiseError c w).params = s.params := rfl
@[simp] theorem State.raiseError_status (s : State) (c : Cause) (w : Word) : (s.raiseError c w).status = { s.status with busy := false, err := true } := rfl
@[simp] theorem State.raiseError_irqEn (s : State) (c : Cause) (w : Word) : (s.raiseError c w).irqEn = s.irqEn := rfl
@[simp] theorem State.raiseError_errCause (s : State) (c : Cause) (w : Word) : (s.raiseError c w).errCause = c := rfl
@[simp] theorem State.raiseError_errInfo (s : State) (c : Cause) (w : Word) : (s.raiseError c w).errInfo = w := rfl
@[simp] theorem State.raiseError_desc (s : State) (c : Cause) (w : Word) : (s.raiseError c w).desc = s.desc := rfl
@[simp] theorem State.raiseError_engine (s : State) (c : Cause) (w : Word) : (s.raiseError c w).engine = idleEngine s.draws := rfl
@[simp] theorem State.raiseError_mem (s : State) (c : Cause) (w : Word) : (s.raiseError c w).mem = s.mem := rfl
@[simp] theorem State.raiseError_busData (s : State) (c : Cause) (w : Word) : (s.raiseError c w).busData = s.busData := rfl
@[simp] theorem State.raiseError_inputs (s : State) (c : Cause) (w : Word) : (s.raiseError c w).inputs = s.inputs := rfl
@[simp] theorem State.raiseError_owner (s : State) (c : Cause) (w : Word) : (s.raiseError c w).owner = s.owner := rfl
@[simp] theorem State.raiseError_draws (s : State) (c : Cause) (w : Word) : (s.raiseError c w).draws = s.draws + 1 := rfl

@[simp] theorem State.complete_params (s : State) (ws : List Store) : (s.complete ws).params = s.params := rfl
@[simp] theorem State.complete_status (s : State) (ws : List Store) : (s.complete ws).status = { s.status with busy := false, done := true } := rfl
@[simp] theorem State.complete_irqEn (s : State) (ws : List Store) : (s.complete ws).irqEn = s.irqEn := rfl
@[simp] theorem State.complete_errCause (s : State) (ws : List Store) : (s.complete ws).errCause = s.errCause := rfl
@[simp] theorem State.complete_errInfo (s : State) (ws : List Store) : (s.complete ws).errInfo = s.errInfo := rfl
@[simp] theorem State.complete_desc (s : State) (ws : List Store) : (s.complete ws).desc = s.desc := rfl
@[simp] theorem State.complete_engine (s : State) (ws : List Store) : (s.complete ws).engine = idleEngine s.draws := rfl
@[simp] theorem State.complete_mem (s : State) (ws : List Store) : (s.complete ws).mem = s.mem.storeAll ws := rfl
@[simp] theorem State.complete_busData (s : State) (ws : List Store) : (s.complete ws).busData = s.busData := rfl
@[simp] theorem State.complete_inputs (s : State) (ws : List Store) : (s.complete ws).inputs = s.inputs := rfl
@[simp] theorem State.complete_owner (s : State) (ws : List Store) : (s.complete ws).owner = s.owner := rfl
@[simp] theorem State.complete_draws (s : State) (ws : List Store) : (s.complete ws).draws = s.draws + 1 := rfl

@[simp] theorem State.resetBlock_params (s : State) : s.resetBlock.params = s.params := rfl
@[simp] theorem State.resetBlock_status (s : State) : s.resetBlock.status = ⟨false, false, false, false⟩ := rfl
@[simp] theorem State.resetBlock_irqEn (s : State) : s.resetBlock.irqEn = ⟨false, false, false⟩ := rfl
@[simp] theorem State.resetBlock_errCause (s : State) : s.resetBlock.errCause = .none := rfl
@[simp] theorem State.resetBlock_errInfo (s : State) : s.resetBlock.errInfo = 0 := rfl
@[simp] theorem State.resetBlock_desc (s : State) : s.resetBlock.desc = Descriptor.zero := rfl
@[simp] theorem State.resetBlock_engine (s : State) : s.resetBlock.engine = idleEngine s.draws := rfl
@[simp] theorem State.resetBlock_mem (s : State) : s.resetBlock.mem = s.racedMem := rfl
@[simp] theorem State.resetBlock_busData (s : State) : s.resetBlock.busData = s.busData := rfl
@[simp] theorem State.resetBlock_inputs (s : State) : s.resetBlock.inputs = s.inputs := rfl
@[simp] theorem State.resetBlock_owner (s : State) : s.resetBlock.owner = none := rfl
@[simp] theorem State.resetBlock_draws (s : State) : s.resetBlock.draws = s.draws + 1 := rfl

/-! ### The engine's own updates -/

@[simp] theorem Engine.takeStart_latch (e : Engine) (t : TileStart) : (e.takeStart t).latch = e.latch := by
  unfold Engine.takeStart; split <;> rfl
@[simp] theorem Engine.takeStart_cb (e : Engine) (t : TileStart) : (e.takeStart t).cb = e.cb := by
  unfold Engine.takeStart; split <;> rfl
@[simp] theorem Engine.takeStart_rb (e : Engine) (t : TileStart) : (e.takeStart t).rb = e.rb := by
  unfold Engine.takeStart; split <;> rfl
@[simp] theorem Engine.takeStart_issued (e : Engine) (t : TileStart) : (e.takeStart t).issued = e.issued := by
  unfold Engine.takeStart; split <;> rfl
@[simp] theorem Engine.takeStart_k (e : Engine) (t : TileStart) : (e.takeStart t).k = 0 := by
  unfold Engine.takeStart; split <;> rfl
@[simp] theorem Engine.takeStart_phase (e : Engine) (t : TileStart) : (e.takeStart t).phase = .depth := by
  unfold Engine.takeStart; split <;> rfl
@[simp] theorem Engine.takeStart_acc (e : Engine) (t : TileStart) : (e.takeStart t).acc = t.acc := by
  unfold Engine.takeStart; split <;> rfl
@[simp] theorem Engine.takeScaled_latch (e : Engine) (t : TileScaled) : (e.takeScaled t).latch = e.latch := by
  unfold Engine.takeScaled; split <;> rfl
@[simp] theorem Engine.takeScaled_cb (e : Engine) (t : TileScaled) : (e.takeScaled t).cb = e.cb := by
  unfold Engine.takeScaled; split <;> rfl
@[simp] theorem Engine.takeScaled_rb (e : Engine) (t : TileScaled) : (e.takeScaled t).rb = e.rb := by
  unfold Engine.takeScaled; split <;> rfl
@[simp] theorem Engine.takeScaled_k (e : Engine) (t : TileScaled) : (e.takeScaled t).k = e.k := by
  unfold Engine.takeScaled; split <;> rfl
@[simp] theorem Engine.takeScaled_acc (e : Engine) (t : TileScaled) : (e.takeScaled t).acc = e.acc := by
  unfold Engine.takeScaled; split <;> rfl
@[simp] theorem Engine.takeScaled_issued (e : Engine) (t : TileScaled) : (e.takeScaled t).issued = e.issued := by
  unfold Engine.takeScaled; split <;> rfl
@[simp] theorem Engine.takeScaled_rowInit (e : Engine) (t : TileScaled) : (e.takeScaled t).rowInit = e.rowInit := by
  unfold Engine.takeScaled; split <;> rfl
@[simp] theorem Engine.takeScaled_colCorr (e : Engine) (t : TileScaled) : (e.takeScaled t).colCorr = e.colCorr := by
  unfold Engine.takeScaled; split <;> rfl
@[simp] theorem Engine.takeScaled_phase (e : Engine) (t : TileScaled) : (e.takeScaled t).phase = .store := by
  unfold Engine.takeScaled; split <;> rfl
@[simp] theorem State.engineAt_latch (s : State) (cb rb : Nat) (ws : List Store) : (s.engineAt cb rb ws).latch = s.engine.latch := rfl
@[simp] theorem State.engineAt_cb (s : State) (cb rb : Nat) (ws : List Store) : (s.engineAt cb rb ws).cb = cb := rfl
@[simp] theorem State.engineAt_rb (s : State) (cb rb : Nat) (ws : List Store) : (s.engineAt cb rb ws).rb = rb := rfl
@[simp] theorem State.engineAt_k (s : State) (cb rb : Nat) (ws : List Store) : (s.engineAt cb rb ws).k = 0 := rfl
@[simp] theorem State.engineAt_phase (s : State) (cb rb : Nat) (ws : List Store) : (s.engineAt cb rb ws).phase = .start := rfl
@[simp] theorem State.engineAt_acc (s : State) (cb rb : Nat) (ws : List Store) : (s.engineAt cb rb ws).acc = s.engine.acc := rfl
@[simp] theorem State.engineAt_y (s : State) (cb rb : Nat) (ws : List Store) : (s.engineAt cb rb ws).y = s.engine.y := rfl
@[simp] theorem State.engineAt_issued (s : State) (cb rb : Nat) (ws : List Store) : (s.engineAt cb rb ws).issued = ws := rfl

/-! ### The descriptor functions read the descriptor alone -/

theorem State.sreg_congr {s t : State} (h : t.desc = s.desc) (r : DescReg) :
    t.sreg r = s.sreg r := by
  simp only [State.sreg, h]

theorem State.ureg_congr {s t : State} (h : t.desc = s.desc) (r : DescReg) :
    t.ureg r = s.ureg r := by
  simp only [State.ureg, h]

theorem State.nreg_congr {s t : State} (h : t.desc = s.desc) (r : DescReg) :
    t.nreg r = s.nreg r := by
  simp only [State.nreg, State.sreg_congr h]

theorem State.ptr_congr {s t : State} (h : t.desc = s.desc) (p : Ptr) :
    t.ptr p = s.ptr p := by
  simp only [State.ptr, State.ureg_congr h]

theorem State.rowBlocks_congr {s t : State} (h : t.desc = s.desc) :
    t.rowBlocks = s.rowBlocks := by
  simp only [State.rowBlocks, State.nreg_congr h]

theorem State.colBlocks_congr {s t : State} (h : t.desc = s.desc) :
    t.colBlocks = s.colBlocks := by
  simp only [State.colBlocks, State.nreg_congr h]

theorem State.rowOf_congr {s t : State} (h : t.desc = s.desc) (rb : Nat) :
    t.rowOf rb = s.rowOf rb := by
  simp only [State.rowOf, State.nreg_congr h]

theorem State.colOf_congr {s t : State} (h : t.desc = s.desc) (cb : Nat) :
    t.colOf cb = s.colOf cb := by
  simp only [State.colOf, State.nreg_congr h]

theorem State.residualRows_congr {s t : State} (h : t.desc = s.desc) (rb : Nat) :
    t.residualRows rb = s.residualRows rb := by
  simp only [State.residualRows, State.nreg_congr h, State.rowOf_congr h]

theorem State.residualCols_congr {s t : State} (h : t.desc = s.desc) (cb : Nat) :
    t.residualCols cb = s.residualCols cb := by
  simp only [State.residualCols, State.nreg_congr h, State.colOf_congr h]

theorem State.tiles_congr {s t : State} (h : t.desc = s.desc) :
    t.tiles = s.tiles := by
  simp only [State.tiles, State.colBlocks_congr h, State.rowBlocks_congr h]

theorem State.depthSteps_congr {s t : State} (h : t.desc = s.desc) (k : Kernel) :
    t.depthSteps k = s.depthSteps k := by
  simp only [State.depthSteps, State.nreg_congr h]

theorem State.lhsBlk_congr {s t : State} (h : t.desc = s.desc) (k : Kernel) (rb : Nat) :
    t.lhsBlk k rb = s.lhsBlk k rb := by
  simp only [State.lhsBlk, State.ptr_congr h, State.ureg_congr h]

theorem State.rhsBlk_congr {s t : State} (h : t.desc = s.desc) (k : Kernel) (cb : Nat) :
    t.rhsBlk k cb = s.rhsBlk k cb := by
  simp only [State.rhsBlk, State.ptr_congr h, State.ureg_congr h]

theorem State.sideAddr_congr {s t : State} (h : t.desc = s.desc) (p : Ptr) (i : Nat) :
    t.sideAddr p i = s.sideAddr p i := by
  simp only [State.sideAddr, State.ptr_congr h]

theorem State.dstAddr_congr {s t : State} (h : t.desc = s.desc) (k : Kernel) (i j : Nat) :
    t.dstAddr k i j = s.dstAddr k i j := by
  simp only [State.dstAddr, State.ptr_congr h, State.nreg_congr h, State.ureg_congr h]

theorem State.usesLhsSums_congr {s t : State} (h : t.desc = s.desc) (l : Latch) :
    t.usesLhsSums l = s.usesLhsSums l := by
  simp only [State.usesLhsSums, State.sreg_congr h]

theorem State.usesRhsSums_congr {s t : State} (h : t.desc = s.desc) (l : Latch) :
    t.usesRhsSums l = s.usesRhsSums l := by
  simp only [State.usesRhsSums, State.sreg_congr h]

theorem State.geometryMask_congr {s t : State} (h : t.desc = s.desc) :
    t.geometryMask = s.geometryMask := by
  simp only [State.geometryMask, State.sreg_congr h]

theorem State.badDepth_congr {s t : State} (h : t.desc = s.desc) (k : Kernel) :
    t.badDepth k = s.badDepth k := by
  simp only [State.badDepth, State.sreg_congr h]

theorem State.pointerUses_congr {s t : State} (h : t.desc = s.desc) (l : Latch) :
    t.pointerUses l = s.pointerUses l := by
  simp only [State.pointerUses, State.usesLhsSums_congr h, State.usesRhsSums_congr h]

theorem State.misaligned_congr {s t : State} (h : t.desc = s.desc) (l : Latch) :
    t.misaligned? l = s.misaligned? l := by
  simp only [State.misaligned?, State.pointerUses_congr h, State.ptr_congr h]

theorem State.startCheck_congr {s t : State} (h : t.desc = s.desc) (l : Latch) :
    t.startCheck l = s.startCheck l := by
  simp only [State.startCheck, State.geometryMask_congr h, State.badDepth_congr h, State.misaligned_congr h, h]

theorem State.tileReads_congr {s t : State} (h : t.desc = s.desc) (l : Latch) (cb rb : Nat) :
    t.tileReads l cb rb = s.tileReads l cb rb := by
  simp only [State.tileReads, State.nreg_congr h, State.sideAddr_congr h, State.rowOf_congr h, State.colOf_congr h, State.residualRows_congr h, State.residualCols_congr h, State.lhsBlk_congr h, State.rhsBlk_congr h, State.usesLhsSums_congr h, State.usesRhsSums_congr h]

theorem State.tileWrites_congr {s t : State} (h : t.desc = s.desc) (l : Latch) (cb rb : Nat) :
    t.tileWrites l cb rb = s.tileWrites l cb rb := by
  simp only [State.tileWrites, State.residualRows_congr h, State.residualCols_congr h, State.dstAddr_congr h, State.rowOf_congr h, State.colOf_congr h]

theorem State.readFootprint_congr {s t : State} (h : t.desc = s.desc) (l : Latch) :
    t.readFootprint l = s.readFootprint l := by
  simp only [State.readFootprint, State.tiles_congr h, State.tileReads_congr h]

theorem State.writeFootprint_congr {s t : State} (h : t.desc = s.desc) (l : Latch) :
    t.writeFootprint l = s.writeFootprint l := by
  simp only [State.writeFootprint, State.tiles_congr h, State.tileWrites_congr h]

theorem State.engineStepCount_congr {s t : State} (h : t.desc = s.desc) (l : Latch) :
    t.engineStepCount l = s.engineStepCount l := by
  simp only [State.engineStepCount, State.colBlocks_congr h, State.rowBlocks_congr h, State.depthSteps_congr h]

theorem State.aliases_congr {s t : State} (h : t.desc = s.desc) (l : Latch) : t.aliases l = s.aliases l := by
  simp only [State.aliases, State.readFootprint_congr h, State.writeFootprint_congr h]

theorem State.footprintsExist_congr {s t : State} (h : t.desc = s.desc) (hm : ∀ a, t.mem.has a = s.mem.has a)
    (l : Latch) : t.footprintsExist l = s.footprintsExist l := by
  simp only [State.footprintsExist, State.readFootprint_congr h, State.writeFootprint_congr h, Memory.covers_congr hm]

/-- The contract of a command is a matter of its descriptor, the parameters, and which bytes exist. -/
theorem State.contractStop_congr {s t : State} (h : t.desc = s.desc) (hp : t.params = s.params)
    (hm : ∀ a, t.mem.has a = s.mem.has a) (l : Latch) : t.contractStop l = s.contractStop l := by
  simp only [State.contractStop, State.readFootprint_congr h, State.writeFootprint_congr h, State.aliases_congr h,
    State.footprintsExist_congr h hm, hp]

/-- A command whose contract is kept and whose footprints exist does not alias (R236, R1112). -/
theorem State.not_aliases {s : State} {l : Latch} (h : (s.contractStop l).isNone = true)
    (he : s.footprintsExist l = true) : s.aliases l = false := by
  by_contra ha
  have ha' : s.aliases l = true := by simpa using ha
  unfold State.contractStop at h
  simp only [ha', he, Bool.and_self, if_true] at h
  split_ifs at h <;> cases h

end Sys2Proof.Machine
end

