-- ==== Sys2Proof/Laws/Tile.lean ====
section
/-! SUPPORT. Laws/Tile.lean: eights and tiles, the 32-bit wrap, and that a tile's stages read the descriptor, the parameters
and memory alone. -/

namespace Sys2Proof.Machine

theorem lt_eight_cases {i : Nat} (h : i < 8) :
    i = 0 ∨ i = 1 ∨ i = 2 ∨ i = 3 ∨ i = 4 ∨ i = 5 ∨ i = 6 ∨ i = 7 := by omega

@[simp] theorem Oct.get_ofFn {α : Type} (f : Nat → α) {i : Nat} (h : i < 8) : (Oct.ofFn f).get i = f i := by
  rcases lt_eight_cases h with rfl | rfl | rfl | rfl | rfl | rfl | rfl | rfl <;> rfl

@[simp] theorem Oct.get_replicate {α : Type} (x : α) (i : Nat) : (Oct.replicate x).get i = x := by
  unfold Oct.get
  split <;> rfl

@[simp] theorem Oct.at_tileOf {α : Type} (f : Nat → Nat → α) {c r : Nat} (hc : c < 8) (hr : r < 8) :
    Oct.at (tileOf f) c r = f c r := by
  rw [Oct.at, tileOf, Oct.get_ofFn _ hc, Oct.get_ofFn _ hr]

/-- Eight optional things are all there exactly where the result holds each of them. -/
theorem Oct.all?_eq_some {α : Type} (f : Nat → Option α) (o : Oct α) :
    Oct.all? f = some o ↔ ∀ i, i < 8 → f i = some (o.get i) := by
  constructor
  · intro h i hi
    simp only [Oct.all?, Option.bind_eq_bind, Option.bind_eq_some_iff, Option.pure_def, Option.some.injEq] at h
    obtain ⟨x0, h0, x1, h1, x2, h2, x3, h3, x4, h4, x5, h5, x6, h6, x7, h7, rfl⟩ := h
    rcases lt_eight_cases hi with rfl | rfl | rfl | rfl | rfl | rfl | rfl | rfl <;> assumption
  · intro h
    have h0 := h 0 (by omega)
    have h1 := h 1 (by omega)
    have h2 := h 2 (by omega)
    have h3 := h 3 (by omega)
    have h4 := h 4 (by omega)
    have h5 := h 5 (by omega)
    have h6 := h 6 (by omega)
    have h7 := h 7 (by omega)
    simp only [Oct.all?, h0, h1, h2, h3, h4, h5, h6, h7, Option.bind_eq_bind, Option.bind_some, Option.pure_def]
    rfl

/-- Two tiles are equal where their 64 cells are. -/
theorem Oct.tile_ext {α : Type} {a b : Tile α} (h : ∀ c r, c < 8 → r < 8 → Oct.at a c r = Oct.at b c r) : a = b := by
  have oct : ∀ {β : Type} {x y : Oct β}, (∀ i, i < 8 → x.get i = y.get i) → x = y := by
    intro β x y hxy
    have h0 := hxy 0 (by omega)
    have h1 := hxy 1 (by omega)
    have h2 := hxy 2 (by omega)
    have h3 := hxy 3 (by omega)
    have h4 := hxy 4 (by omega)
    have h5 := hxy 5 (by omega)
    have h6 := hxy 6 (by omega)
    have h7 := hxy 7 (by omega)
    cases x
    cases y
    simp only [Oct.get] at h0 h1 h2 h3 h4 h5 h6 h7
    simp only [h0, h1, h2, h3, h4, h5, h6, h7]
  exact oct fun c hc => oct fun r hr => h c r hc hr

/-! ### The 32-bit wrap -/

theorem trunc32_eq_iff (a b : Int) : trunc32 a = trunc32 b ↔ a % 2 ^ 32 = b % 2 ^ 32 := by
  constructor
  · intro h
    have h' := congrArg BitVec.toNat h
    simp only [trunc32, BitVec.toNat_ofInt] at h'
    omega
  · intro h
    apply BitVec.eq_of_toNat_eq
    simp only [trunc32, BitVec.toNat_ofInt]
    omega

@[simp] theorem trunc32_s32 (w : Word) : trunc32 (s32 w) = w := by
  simp [trunc32, s32]

/-- A word's signed reading is the integer it was cut from, up to a multiple of 2^32. -/
theorem s32_trunc32_emod (a : Int) : s32 (trunc32 a) % 2 ^ 32 = a % 2 ^ 32 := by
  rw [← trunc32_eq_iff, trunc32_s32]

/-- Cutting a sum whose first term was cut before changes nothing: addition into a lane is modulo 2^32 (R503, R504). -/
theorem trunc32_add (a b : Int) : trunc32 (s32 (trunc32 a) + b) = trunc32 (a + b) := by
  rw [trunc32_eq_iff, Int.add_emod, s32_trunc32_emod, ← Int.add_emod]

theorem trunc32_sub (a b : Int) : trunc32 (s32 (trunc32 a) - b) = trunc32 (a - b) := by
  rw [trunc32_eq_iff, Int.sub_emod, s32_trunc32_emod, ← Int.sub_emod]

theorem trunc32_sub_right (a b : Int) : trunc32 (a - s32 (trunc32 b)) = trunc32 (a - b) := by
  rw [trunc32_eq_iff, Int.sub_emod, s32_trunc32_emod, ← Int.sub_emod]

/-- The 32-bit wrap as arithmetic on integers (R14). -/
theorem wrap32_eq (v : Int) : wrap32 v = (v + 2 ^ 31) % 2 ^ 32 - 2 ^ 31 := by
  have h := s32_trunc32_emod v
  have lo := BitVec.le_toInt (trunc32 v)
  have hi := BitVec.toInt_lt (x := trunc32 v)
  simp only [wrap32, s32] at h ⊢
  omega

/-! ### What a tile depends on -/

theorem State.sideLane_congr {s t : State} (h : t.desc = s.desc) (hm : t.mem = s.mem) (p : Ptr) (used : Bool)
    (first n i : Nat) : t.sideLane? p used first n i = s.sideLane? p used first n i := by
  simp only [State.sideLane?, State.sideWord?, State.sideAddr_congr h, hm]

theorem State.sideVec_congr {s t : State} (h : t.desc = s.desc) (hm : t.mem = s.mem) (p : Ptr) (used : Bool)
    (first n : Nat) : t.sideVec? p used first n = s.sideVec? p used first n :=
  congrArg Oct.all? (funext fun i => State.sideLane_congr h hm p used first n i)

theorem State.scaleLane_congr {s t : State} (h : t.desc = s.desc) (hm : t.mem = s.mem) (l : Latch) (p : Ptr)
    (scalar : DescReg) (row rr r : Nat) : t.scaleLane? l p scalar row rr r = s.scaleLane? l p scalar row rr r := by
  simp only [State.scaleLane?, State.sideLane_congr h hm, h]

theorem State.scaleVec_congr {s t : State} (h : t.desc = s.desc) (hm : t.mem = s.mem) (l : Latch) (p : Ptr)
    (scalar : DescReg) (row rr : Nat) : t.scaleVec? l p scalar row rr = s.scaleVec? l p scalar row rr :=
  congrArg Oct.all? (funext fun r => State.scaleLane_congr h hm l p scalar row rr r)

theorem State.tileStart_congr {s t : State} (h : t.desc = s.desc) (hp : t.params = s.params) (hm : t.mem = s.mem)
    (l : Latch) (cb rb : Nat) : t.tileStart? l cb rb = s.tileStart? l cb rb := by
  simp only [State.tileStart?, State.sideVec_congr h hm, State.residualRows_congr h, State.residualCols_congr h,
    State.rowOf_congr h, State.colOf_congr h, State.usesLhsSums_congr h, State.usesRhsSums_congr h, State.sreg_congr h, hp]

theorem State.tileDepth_congr {s t : State} (h : t.desc = s.desc) (hp : t.params = s.params) (hm : t.mem = s.mem)
    (l : Latch) (cb rb k : Nat) (acc : Tile Word) : t.tileDepth? l cb rb k acc = s.tileDepth? l cb rb k acc := by
  simp only [State.tileDepth?, State.accumulateChunk?, State.accumulateStepF?, State.chunk?, State.quad?, State.floatStep?,
    State.lhsBlk_congr h, State.rhsBlk_congr h, hp, hm]

theorem State.tileDepths_congr {s t : State} (h : t.desc = s.desc) (hp : t.params = s.params) (hm : t.mem = s.mem)
    (l : Latch) (cb rb n : Nat) (acc : Tile Word) : t.tileDepths? l cb rb n acc = s.tileDepths? l cb rb n acc := by
  have hd : t.tileDepth? l cb rb = s.tileDepth? l cb rb := by
    funext k a; exact State.tileDepth_congr h hp hm l cb rb k a
  induction n with
  | zero => rfl
  | succ n ih => rw [State.tileDepths?, State.tileDepths?, ih, hd]

theorem State.tileScale_congr {s t : State} (h : t.desc = s.desc) (hp : t.params = s.params) (hm : t.mem = s.mem)
    (l : Latch) (rb : Nat) (acc : Tile Word) : t.tileScale? l rb acc = s.tileScale? l rb acc := by
  simp only [State.tileScale?, State.scaleVec_congr h hm, State.rowOf_congr h, State.residualRows_congr h, hp]

theorem State.validCells_congr {s t : State} (h : t.desc = s.desc) (cb rb : Nat) :
    t.validCells cb rb = s.validCells cb rb := by
  simp only [State.validCells, State.residualRows_congr h, State.residualCols_congr h]

theorem State.elementStore_congr {s t : State} (h : t.desc = s.desc) (hp : t.params = s.params) (l : Latch)
    (cb rb c r : Nat) (acc : Word) (y : Int) : t.elementStore l cb rb c r acc y = s.elementStore l cb rb c r acc y := by
  simp only [State.elementStore, State.elementBits, State.quantValue, State.zeroPointed, State.dstAddr_congr h,
    State.rowOf_congr h, State.colOf_congr h, State.sreg_congr h, h, hp]

theorem State.tileStores_congr {s t : State} (h : t.desc = s.desc) (hp : t.params = s.params) (l : Latch) (cb rb : Nat)
    (acc : Tile Word) (y : Tile Int) : t.tileStores l cb rb acc y = s.tileStores l cb rb acc y := by
  simp only [State.tileStores, State.validCells_congr h, State.elementStore_congr h hp]

theorem State.tileRun_congr {s t : State} (h : t.desc = s.desc) (hp : t.params = s.params) (hm : t.mem = s.mem)
    (l : Latch) (cb rb : Nat) : t.tileRun? l cb rb = s.tileRun? l cb rb := by
  simp only [State.tileRun?, State.tileStart_congr h hp hm, State.tileDepths_congr h hp hm, State.depthSteps_congr h,
    State.tileScale_congr h hp hm, State.tileStores_congr h hp]

/-- The element writes of a command depend on the descriptor, the parameters and memory alone (R11). -/
theorem State.kernelRun_congr {s t : State} (h : t.desc = s.desc) (hp : t.params = s.params) (hm : t.mem = s.mem)
    (l : Latch) : t.kernelRun? l = s.kernelRun? l := by
  have hr : ∀ ts, t.tilesRun? l ts = s.tilesRun? l ts := by
    intro ts
    induction ts with
    | nil => rfl
    | cons x ts ih =>
      obtain ⟨cb, rb⟩ := x
      rw [State.tilesRun?, State.tilesRun?, ih, State.tileRun_congr h hp hm, hm]
  rw [State.kernelRun?, State.kernelRun?, hr, State.tiles_congr h]

/-! ### Where a tile's element writes go (R422, R424) -/

/-- The valid cells of a tile are those below both residual extents (R422). -/
theorem State.mem_validCells (s : State) (cb rb c r : Nat) :
    (c, r) ∈ s.validCells cb rb ↔ c < s.residualCols cb ∧ r < s.residualRows rb := by
  simp only [State.validCells, List.mem_flatMap, List.mem_map, List.mem_range, Prod.mk.injEq]
  constructor
  · rintro ⟨c', hc, r', hr, rfl, rfl⟩
    exact ⟨hc, hr⟩
  · rintro ⟨hc, hr⟩
    exact ⟨c, hc, r, hr, rfl, rfl⟩

/-- A valid cell is one of the tile's 64 (R421). -/
theorem State.validCell_lt {s : State} {cb rb c r : Nat} (h : (c, r) ∈ s.validCells cb rb) : c < 8 ∧ r < 8 := by
  have h' := (s.mem_validCells cb rb c r).mp h
  simp only [State.residualCols, State.residualRows] at h'
  omega

/-- The element writes of a tile are those of its valid elements. -/
theorem State.mem_tileStores (s : State) (l : Latch) (cb rb : Nat) (acc : Tile Word) (y : Tile Int) (st : Store) :
    st ∈ s.tileStores l cb rb acc y ↔
      ∃ c r, c < s.residualCols cb ∧ r < s.residualRows rb ∧
        st = ⟨s.dstAddr l.kernel (s.rowOf rb + r) (s.colOf cb + c), l.kernel.elemSize,
          s.elementBits l (Oct.at acc c r) (Oct.at y c r)⟩ := by
  simp only [State.tileStores, List.mem_map, Prod.exists, State.mem_validCells, State.elementStore]
  constructor
  · rintro ⟨c, r, ⟨hc, hr⟩, rfl⟩
    exact ⟨c, r, hc, hr, rfl⟩
  · rintro ⟨c, r, hc, hr, rfl⟩
    exact ⟨c, r, ⟨hc, hr⟩, rfl⟩

/-- The tiles are the pairs below NCB and NRB (R420). -/
theorem State.mem_tiles (s : State) (cb rb : Nat) : (cb, rb) ∈ s.tiles ↔ cb < s.colBlocks ∧ rb < s.rowBlocks := by
  simp only [State.tiles, List.mem_flatMap, List.mem_map, List.mem_range, Prod.mk.injEq]
  constructor
  · rintro ⟨c, hc, r, hr, rfl, rfl⟩
    exact ⟨hc, hr⟩
  · rintro ⟨hc, hr⟩
    exact ⟨cb, hc, rb, hr, rfl, rfl⟩

/-- What the run of a list of tiles gives: each tile ran, its writes exist, and the result is all of them in order. -/
theorem State.tilesRun_cons (s : State) (l : Latch) (cb rb : Nat) (rest : List (Nat × Nat)) (ws : List Store) :
    s.tilesRun? l ((cb, rb) :: rest) = some ws ↔
      ∃ w more, s.tileRun? l cb rb = some w ∧ s.tilesRun? l rest = some more ∧ w.all s.mem.holds = true ∧ ws = w ++ more := by
  rw [State.tilesRun?]
  cases hw : s.tileRun? l cb rb with
  | none => simp
  | some w =>
    cases hm : s.tilesRun? l rest with
    | none => simp
    | some more =>
      simp only [Option.bind_eq_bind, Option.bind_some, Option.some.injEq, exists_and_left, exists_eq_left', Option.pure_def]
      by_cases hh : w.all s.mem.holds = true
      · rw [if_pos hh]
        simp only [Option.some.injEq, hh, true_and]
        exact eq_comm
      · rw [if_neg hh]
        constructor
        · intro h; cases h
        · intro h; exact absurd h.1 hh

/-- Every element write of a command comes from one of its tiles, and exists. -/
theorem State.mem_tilesRun {s : State} {l : Latch} {st : Store} : ∀ {ts : List (Nat × Nat)} {ws : List Store},
    s.tilesRun? l ts = some ws → st ∈ ws →
      ∃ cb rb w, (cb, rb) ∈ ts ∧ s.tileRun? l cb rb = some w ∧ st ∈ w ∧ s.mem.holds st = true := by
  intro ts
  induction ts with
  | nil =>
    intro ws h hst
    simp only [State.tilesRun?, Option.some.injEq] at h
    subst h
    cases hst
  | cons x ts ih =>
    intro ws h hst
    obtain ⟨cb, rb⟩ := x
    obtain ⟨w, more, hw, hmore, hall, rfl⟩ := (s.tilesRun_cons l cb rb ts ws).mp h
    rcases List.mem_append.mp hst with hst | hst
    · exact ⟨cb, rb, w, List.mem_cons_self, hw, hst, List.all_eq_true.mp hall st hst⟩
    · obtain ⟨cb', rb', w', hin, hrun, hmem, hh⟩ := ih hmore hst
      exact ⟨cb', rb', w', List.mem_cons_of_mem _ hin, hrun, hmem, hh⟩

/-! ### Element by element (R232, R434) -/

/-- The element writes that the free order allows depend on the descriptor, the parameters and memory alone. -/
theorem State.possibleStores_congr {s t : State} (h : t.desc = s.desc) (hp : t.params = s.params) (hm : t.mem = s.mem)
    (l : Latch) : t.possibleStores l = s.possibleStores l := by
  simp only [State.possibleStores, State.tileElements, State.cellStore?, State.cellStart?, State.cellScaled?,
    State.sideLane_congr h hm, State.scaleLane_congr h hm, State.tileDepths_congr h hp hm, State.depthSteps_congr h,
    State.validCells_congr h, State.elementStore_congr h hp, State.residualRows_congr h, State.residualCols_congr h,
    State.rowOf_congr h, State.colOf_congr h, State.usesLhsSums_congr h, State.usesRhsSums_congr h, State.sreg_congr h,
    State.tiles_congr h, hp, hm]

/-- Where a tile's first stage runs, each cell starts as it does alone. -/
theorem State.cellStart_of_tileStart {s : State} {l : Latch} {cb rb c r : Nat} {first : TileStart}
    (h : s.tileStart? l cb rb = some first) (hc : c < 8) (hr : r < 8) :
    s.cellStart? l cb rb c r = some (Oct.at first.acc c r) := by
  simp only [State.tileStart?, Option.bind_eq_bind, Option.bind_eq_some_iff] at h
  obtain ⟨bias, hb, h⟩ := h
  have hb' := (Oct.all?_eq_some _ _).mp hb r hr
  simp only [State.cellStart?, hb', Option.bind_eq_bind, Option.bind_some, Option.pure_def]
  cases hk : l.kernel with
  | float =>
    simp only [hk, Option.pure_def, Option.some.injEq] at h
    subst h
    simp [initAcc, hc, hr]
  | quant d =>
    simp only [hk, Option.bind_eq_some_iff, Option.pure_def, Option.some.injEq] at h
    obtain ⟨lsums, hl, rsums, hs, rfl⟩ := h
    have hl' := (Oct.all?_eq_some _ _).mp hl r hr
    have hs' := (Oct.all?_eq_some _ _).mp hs c hc
    simp only [hl', hs', Option.bind_some]
    simp [zeroPointCorrect, initAcc, rowTerms, colTerms, hc, hr]

/-- Where a tile's requantization runs, each cell is rescaled as it is alone. -/
theorem State.cellScaled_of_tileScale {s : State} {l : Latch} {rb c r : Nat} {acc : Tile Word} {t : TileScaled}
    (h : s.tileScale? l rb acc = some t) (hc : c < 8) (hr : r < 8) :
    s.cellScaled? l rb r (Oct.at acc c r) = some (Oct.at t.y c r) := by
  have scaled : ∀ m e : Oct Word, s.scaleVec? l .multFpPtr .multFp (s.rowOf rb) (s.residualRows rb) = some m →
      s.scaleVec? l .multExpPtr .multExp (s.rowOf rb) (s.residualRows rb) = some e →
      s.scaleLane? l .multFpPtr .multFp (s.rowOf rb) (s.residualRows rb) r = some (m.get r) ∧
        s.scaleLane? l .multExpPtr .multExp (s.rowOf rb) (s.residualRows rb) r = some (e.get r) :=
    fun m e hm he => ⟨(Oct.all?_eq_some _ _).mp hm r hr, (Oct.all?_eq_some _ _).mp he r hr⟩
  unfold State.tileScale? at h
  unfold State.cellScaled?
  split at h
  · cases h
    simp [hc, hr]
  · rename_i d hd hk
    simp only [Option.bind_eq_bind, Option.bind_eq_some_iff, Option.pure_def, Option.some.injEq] at h
    obtain ⟨m, hm, e, he, rfl⟩ := h
    obtain ⟨hm', he'⟩ := scaled m e hm he
    cases d with
    | i32 => exact absurd rfl hd
    | _ => simp [hm', he', requantTile, hc, hr]
  · cases h
    simp only [Oct.at, Oct.get_replicate]

/-- The free order allows nothing that the tile's own run does not give: where the tile does not get stuck, its elements
one by one are its element writes. -/
theorem State.tileElements_eq_of_tileRun {s : State} {l : Latch} {cb rb : Nat} {ws : List Store}
    (h : s.tileRun? l cb rb = some ws) : s.tileElements l cb rb = ws := by
  simp only [State.tileRun?, Option.bind_eq_bind, Option.bind_eq_some_iff, Option.pure_def, Option.some.injEq] at h
  obtain ⟨first, hf, acc, hd, t, ht, rfl⟩ := h
  have hs : (tileOf fun c r => (s.cellStart? l cb rb c r).getD 0) = first.acc := by
    apply Oct.tile_ext
    intro c r hc hr
    rw [Oct.at_tileOf _ hc hr, State.cellStart_of_tileStart hf hc hr, Option.getD_some]
  rw [State.tileElements, hs, hd, State.tileStores, ← List.filterMap_eq_map]
  apply List.filterMap_congr
  rintro ⟨c, r⟩ hx
  obtain ⟨hc, hr⟩ := State.validCell_lt hx
  simp [State.cellStore?, State.cellStart_of_tileStart hf hc hr, State.cellScaled_of_tileScale ht hc hr]

/-- Every element write that the free order allows is one of a valid element of a tile, and exists. -/
theorem State.mem_possibleStores {s : State} {l : Latch} {st : Store} (h : st ∈ s.possibleStores l) :
    ∃ cb rb c r acc y, (cb, rb) ∈ s.tiles ∧ (c, r) ∈ s.validCells cb rb ∧
      st = s.elementStore l cb rb c r acc y ∧ s.mem.holds st = true := by
  simp only [State.possibleStores, List.mem_filter, List.mem_flatMap, Prod.exists, State.tileElements] at h
  obtain ⟨⟨cb, rb, ht, h⟩, hh⟩ := h
  split at h
  · simp only [List.mem_filterMap, Prod.exists, State.cellStore?, Option.bind_eq_bind, Option.bind_eq_some_iff,
      Option.pure_def, Option.some.injEq] at h
    obtain ⟨c, r, hx, _, _, y, _, rfl⟩ := h
    exact ⟨cb, rb, c, r, _, y, ht, hx, rfl, hh⟩
  · cases h

end Sys2Proof.Machine
end

