-- ==== Sys2Proof/Laws/Ops.lean ====
section
/-! SUPPORT. Laws/Ops.lean: what each shared operation can do, said once: the five ends of a command, what a meaning can
answer, and what a step can do. -/

namespace Sys2Proof.Machine

theorem Cause.decodeCause_ne_none (e : DecodeError) : (decodeCause e).1 ≠ .none := by
  cases e <;> simp [decodeCause]

/-- The start checks never report the cause NONE. -/
theorem State.startCheck_ne_none {s : State} {l : Latch} {c : Cause} {i : Word} (h : s.startCheck l = some (c, i)) :
    c ≠ .none := by
  unfold State.startCheck at h
  split at h
  · cases h; decide
  · split at h
    · cases h; decide
    · split at h
      · cases h; decide
      · cases h

@[simp] theorem State.startCheck_accept (s : State) (l l' : Latch) : (s.accept l).startCheck l' = s.startCheck l' :=
  State.startCheck_congr (State.accept_desc s l) l'

@[simp] theorem State.contractStop_accept (s : State) (l l' : Latch) : (s.accept l).contractStop l' = s.contractStop l' :=
  State.contractStop_congr (State.accept_desc s l) (State.accept_params s l) (fun _ => rfl) l'

@[simp] theorem State.kernelRun_accept (s : State) (l l' : Latch) : (s.accept l).kernelRun? l' = s.kernelRun? l' :=
  State.kernelRun_congr (State.accept_desc s l) (State.accept_params s l) (State.accept_mem s l) l'

/-- A contract violation ends in a fault or a refusal, never in a next state. -/
theorem State.contractStop_not_next {s : State} {l : Latch} {t : State} : s.contractStop l ≠ some (.next t) := by
  unfold State.contractStop
  dsimp only
  split
  · simp
  · split
    · simp
    · split
      · simp
      · split <;> simp

/-- A 32-bit access at an aligned offset of the window reaches the register there (R100, R101). -/
theorem State.target_register (s : State) {offset : Nat} (h : offset < 256) (h4 : offset % 4 = 0) :
    s.target (s.params.base + offset) 4 = .register offset := by
  have hb : s.params.base % 4 = 0 := by
    unfold Params.base
    omega
  have lo : ¬s.params.base + offset + 4 ≤ s.params.base := by omega
  have hi : ¬s.params.base + 256 ≤ s.params.base + offset := by omega
  unfold State.target disjoint Params.window
  simp [lo, hi]
  omega

/-- Two intervals are disjoint where no address lies in both. -/
theorem disjoint_of_no_common {p q : Interval} (h : ∀ a, inInterval p a = true → inInterval q a = false) :
    disjoint p q = true := by
  have h' := h (max p.lo q.lo)
  simp only [inInterval, Bool.and_eq_true, decide_eq_true_eq, Bool.and_eq_false_iff, decide_eq_false_iff_not] at h'
  simp only [disjoint, Bool.or_eq_true, beq_iff_eq, decide_eq_true_eq]
  omega

/-- An access to existing bytes off the window and off devices reaches memory (R220). -/
theorem State.target_memory {s : State} {addr n : Nat} (h : s.mem.covers addr n = true)
    (off : ∀ a, addr ≤ a → a < addr + n →
      inInterval ⟨s.params.base, 256⟩ a = false ∧ ∀ dev ∈ s.params.deviceRegions, inInterval dev a = false) :
    s.target addr n = .memory := by
  have inside : ∀ a, inInterval ⟨addr, n⟩ a = true → addr ≤ a ∧ a < addr + n := by
    intro a ha
    simpa [inInterval] using ha
  have hw : disjoint ⟨addr, n⟩ s.params.window = true :=
    disjoint_of_no_common fun a ha => (off a (inside a ha).1 (inside a ha).2).1
  have hd : allDisjoint [⟨addr, n⟩] s.params.deviceRegions = true := by
    simp only [allDisjoint, List.all_cons, List.all_nil, Bool.and_true, List.all_eq_true]
    exact fun dev hdev => disjoint_of_no_common fun a ha => (off a (inside a ha).1 (inside a ha).2).2 dev hdev
  simp [State.target, hw, hd, h]

/-- What another agent may find in memory has the same bytes in existence. -/
@[simp] theorem State.has_racedMem (s : State) (a : Nat) : s.racedMem.has a = s.mem.has a := by
  unfold State.racedMem
  dsimp only
  split_ifs <;> simp

/-- What another agent may find in memory keeps the canonical form. -/
@[simp] theorem State.wf_racedMem (s : State) : s.racedMem.wf = s.mem.wf := by
  unfold State.racedMem
  dsimp only
  split_ifs <;> simp only [Memory.wf_replace, Memory.wf_storeAll]

/-- The ends of a CMD write with a legal word, whatever runs the accepted command. -/
theorem State.command_cases (s : State) (l : Latch) (run : State → Host.Outcome State Fault Refusal) :
    (s.status.busy = true ∧ s.command l run = .next s.dropWrite) ∨
    (s.status.busy = false ∧ ∃ c i, s.startCheck l = some (c, i) ∧
      s.command l run = .next ((s.accept l).raiseError c i)) ∨
    (s.status.busy = false ∧ s.startCheck l = none ∧ ∃ o, s.contractStop l = some o ∧ s.command l run = o) ∨
    (s.status.busy = false ∧ s.startCheck l = none ∧ s.contractStop l = none ∧ s.command l run = run (s.accept l)) := by
  unfold State.command
  rw [State.startCheck_accept, State.contractStop_accept]
  by_cases hb : s.status.busy = true
  · exact .inl ⟨hb, if_pos hb⟩
  · have hb' : s.status.busy = false := by simpa using hb
    rw [if_neg hb]
    cases hc : s.startCheck l with
    | some ci => exact .inr (.inl ⟨hb', ci.1, ci.2, rfl, rfl⟩)
    | none =>
      cases hs : s.contractStop l with
      | some o => exact .inr (.inr (.inl ⟨hb', rfl, o, rfl, rfl⟩))
      | none => exact .inr (.inr (.inr ⟨hb', rfl, rfl, rfl⟩))

/-- What a command can leave when it answers a next state: a dropped write, an error end, or completion. -/
theorem State.runCommand_next {s t : State} {l : Latch} (h : s.runCommand l = .next t) :
    (s.status.busy = true ∧ t = s.dropWrite) ∨
    (s.status.busy = false ∧ ∃ c i, s.startCheck l = some (c, i) ∧ t = (s.accept l).raiseError c i) ∨
    (s.status.busy = false ∧ s.startCheck l = none ∧ s.contractStop l = none ∧
      ∃ ws, s.kernelRun? l = some ws ∧ t = (s.accept l).complete ws) := by
  unfold State.runCommand at h
  rcases s.command_cases l (fun t => t.runKernel l) with
    ⟨hb, h'⟩ | ⟨hb, c, i, hc, h'⟩ | ⟨hb, hc, o, ho, h'⟩ | ⟨hb, hc, hs, h'⟩
  · rw [h'] at h
    cases h
    exact .inl ⟨hb, rfl⟩
  · rw [h'] at h
    cases h
    exact .inr (.inl ⟨hb, c, i, hc, rfl⟩)
  · rw [h'] at h
    rw [h] at ho
    exact absurd ho State.contractStop_not_next
  · rw [h'] at h
    unfold State.runKernel at h
    rw [State.kernelRun_accept] at h
    cases hk : s.kernelRun? l with
    | none => rw [hk] at h; cases h
    | some ws =>
      rw [hk] at h
      cases h
      exact .inr (.inr ⟨hb, hc, hs, ws, rfl, rfl⟩)

/-- What any meaning can leave when it answers a next state. -/
theorem exec_next {i : Instr} {s t : State} (h : exec i s = .next t) :
    (s.status.busy = true ∧ t = s.dropWrite) ∨
    (s.status.busy = false ∧ i = .nop ∧ t = s) ∨
    (s.status.busy = false ∧ i.wellFormed = false ∧ t = s.rejectWord (.illegalCmd (encode i))) ∨
    (s.status.busy = false ∧ ∃ l, i.latch = some l ∧ ∃ c w, s.startCheck l = some (c, w) ∧
      t = (s.accept l).raiseError c w) ∨
    (s.status.busy = false ∧ ∃ l, i.latch = some l ∧ s.startCheck l = none ∧ s.contractStop l = none ∧
      ∃ ws, s.kernelRun? l = some ws ∧ t = (s.accept l).complete ws) := by
  have run : ∀ l, i.latch = some l → s.runCommand l = .next t →
      (s.status.busy = true ∧ t = s.dropWrite) ∨
      (s.status.busy = false ∧ i = .nop ∧ t = s) ∨
      (s.status.busy = false ∧ i.wellFormed = false ∧ t = s.rejectWord (.illegalCmd (encode i))) ∨
      (s.status.busy = false ∧ ∃ l, i.latch = some l ∧ ∃ c w, s.startCheck l = some (c, w) ∧
        t = (s.accept l).raiseError c w) ∨
      (s.status.busy = false ∧ ∃ l, i.latch = some l ∧ s.startCheck l = none ∧ s.contractStop l = none ∧
        ∃ ws, s.kernelRun? l = some ws ∧ t = (s.accept l).complete ws) := by
    intro l hl hr
    rcases State.runCommand_next hr with h | ⟨hb, c, w, hc, ht⟩ | ⟨hb, hc, hs, ws, hk, ht⟩
    · exact .inl h
    · exact .inr (.inr (.inr (.inl ⟨hb, l, hl, c, w, hc, ht⟩)))
    · exact .inr (.inr (.inr (.inr ⟨hb, l, hl, hc, hs, ws, hk, ht⟩)))
  cases i with
  | nop =>
    unfold exec execNop at h
    dsimp only at h
    by_cases hb : s.status.busy = true
    · rw [if_pos hb] at h
      exact .inl ⟨hb, (Host.Outcome.next.inj h).symm⟩
    · rw [if_neg hb] at h
      exact .inr (.inl ⟨by simpa using hb, rfl, (Host.Outcome.next.inj h).symm⟩)
  | gemmQU8 f => exact run _ rfl h
  | gemmQI8 f => exact run _ rfl h
  | gemmQI16 f => exact run _ rfl h
  | gemmQI32 f => exact run _ rfl h
  | gemmFF32 f =>
    unfold exec execGemmFF32 at h
    dsimp only at h
    by_cases hb : s.status.busy = true
    · rw [if_pos hb] at h
      exact .inl ⟨hb, (Host.Outcome.next.inj h).symm⟩
    · rw [if_neg hb] at h
      by_cases hf : f.floatLegal = true
      · rw [if_pos hf] at h
        exact run _ rfl h
      · rw [if_neg hf] at h
        exact .inr (.inr (.inl ⟨by simpa using hb, by simpa [Instr.wellFormed] using hf,
          (Host.Outcome.next.inj h).symm⟩))

/-- What an engine step leaves alone: everything but the engine, unless it completes the command. -/
theorem State.engineStep_cases {s t : State} (h : s.engineStep? = some t) :
    (∃ e, t = { s with engine := e } ∧ e.latch = s.engine.latch) ∨ (∃ ws, t = s.complete (s.engine.issued ++ ws)) := by
  have upd : ∀ e : Engine, t = { s with engine := e } → e.latch = s.engine.latch →
      (∃ e, t = { s with engine := e } ∧ e.latch = s.engine.latch) ∨
        (∃ ws, t = s.complete (s.engine.issued ++ ws)) := fun e ht he => .inl ⟨e, ht, he⟩
  unfold State.engineStep? at h
  dsimp only at h
  split at h
  · rw [Option.map_eq_some_iff] at h
    obtain ⟨x, _, hx⟩ := h
    exact upd _ hx.symm (Engine.takeStart_latch _ _)
  · split at h
    · rw [Option.map_eq_some_iff] at h
      obtain ⟨x, _, hx⟩ := h
      exact upd _ hx.symm rfl
    · rw [Option.map_eq_some_iff] at h
      obtain ⟨x, _, hx⟩ := h
      exact upd _ hx.symm (Engine.takeScaled_latch _ _)
  · split at h
    · have ht := (Option.some.inj h).symm
      unfold State.nextTile at ht
      dsimp only at ht
      split at ht
      · exact upd _ ht rfl
      · split at ht
        · exact upd _ ht rfl
        · exact .inr ⟨_, ht⟩
    · cases h

/-- Engine steps add up. -/
theorem State.engineSteps_add (m : Nat) : ∀ (n : Nat) (s : State),
    State.engineSteps? (m + n) s = (State.engineSteps? m s).bind (State.engineSteps? n) := by
  have idle : ∀ (n : Nat) (s : State), s.status.busy = false → State.engineSteps? n s = some s := by
    intro n s hs
    cases n with
    | zero => rfl
    | succ n => rw [State.engineSteps?, hs]; rfl
  induction m with
  | zero => intro n s; simp [State.engineSteps?]
  | succ m ih =>
    intro n s
    rw [show m + 1 + n = m + n + 1 by omega, State.engineSteps?, State.engineSteps?]
    by_cases hb : s.status.busy = true
    · rw [if_pos hb, if_pos hb]
      cases s.engineStep? with
      | none => rfl
      | some t => simpa using ih n t
    · rw [if_neg hb, if_neg hb, Option.bind_some, idle n s (by simpa using hb)]

/-- A run that has ended stays as it is: an idle block with nothing more to do waits (R1101, R1122). -/
theorem step_ended {s : State} (h : s.ended = true) : step s = .next s := by
  unfold State.ended at h
  simp only [Bool.and_eq_true, List.isEmpty_iff, Bool.not_eq_true'] at h
  unfold step
  rw [h.1]
  simp [h.2]

end Sys2Proof.Machine
end

