-- ==== Sys2Proof/Laws/PerInstr.lean ====
section
/-! SUPPORT. Laws/PerInstr.lean: statements about a command as syntax, one lemma per constructor of `Instr`. -/

namespace Sys2Proof.Laws.TableRow

/-- A command's row is one of R303's, its word sets no bit above 11, and the word of a well-formed command selects that row. -/
def Statement (i : Instr) : Prop :=
  i.row ∈ opcodeRows ∧ (encode i).toNat < 2 ^ 12 ∧ (i.wellFormed = true → i.row.selects (encode i) = true)

theorem nop : Statement .nop := by unfold Statement; decide

theorem gemmQU8 (f : Flags) : Statement (.gemmQU8 f) := by
  obtain ⟨b, l, r, p⟩ := f
  cases b <;> cases l <;> cases r <;> cases p <;> (unfold Statement; decide)

theorem gemmQI8 (f : Flags) : Statement (.gemmQI8 f) := by
  obtain ⟨b, l, r, p⟩ := f
  cases b <;> cases l <;> cases r <;> cases p <;> (unfold Statement; decide)

theorem gemmQI16 (f : Flags) : Statement (.gemmQI16 f) := by
  obtain ⟨b, l, r, p⟩ := f
  cases b <;> cases l <;> cases r <;> cases p <;> (unfold Statement; decide)

theorem gemmQI32 (f : Flags) : Statement (.gemmQI32 f) := by
  obtain ⟨b, l, r, p⟩ := f
  cases b <;> cases l <;> cases r <;> cases p <;> (unfold Statement; decide)

theorem gemmFF32 (f : Flags) : Statement (.gemmFF32 f) := by
  obtain ⟨b, l, r, p⟩ := f
  cases b <;> cases l <;> cases r <;> cases p <;> (unfold Statement; decide)

end Sys2Proof.Laws.TableRow
end

