-- ==== Sys2Proof/Tests/Slice0.lean ====
section
/-! SUPPORT. Tests/Slice0.lean: the model's own tests. Expected values are the spec's worked examples and vectors
(30_encoding.md R308, 95_test_vectors.md); the witnesses show that each statement's hypotheses can be met. -/

namespace Sys2Proof.Tests

open Sys2Proof.Machine

-- Theorems of this file are checked one after the other: a hundred kernel evaluations waiting at once, each on a thread of
-- its own, exceed the checker's memory limit.
set_option Elab.async false

/-! ### WellFormed refuses ill-formed terms (R301) -/

theorem test_wf_float_lsums : (Instr.gemmFF32 ⟨false, true, false, false⟩).wellFormed = false := by decide
theorem test_wf_float_rsums : (Instr.gemmFF32 ⟨false, false, true, false⟩).wellFormed = false := by decide
theorem test_wf_float_perch : (Instr.gemmFF32 ⟨true, false, false, true⟩).wellFormed = false := by decide

/-! ### Words written out from R303's patterns: bits 31 .. 0, the flags `prlb` at 11:8 (R308, 95 section 2.1) -/

theorem test_decode_nop : decode 0b00000000000000000000000000000000#32 = .ok .nop := by decide
theorem test_decode_u8 :
    decode 0b00000000000000000000000000010001#32 = .ok (.gemmQU8 ⟨false, false, false, false⟩) := by decide
theorem test_decode_i8_bias :
    decode 0b00000000000000000000000100100001#32 = .ok (.gemmQI8 ⟨true, false, false, false⟩) := by decide
theorem test_decode_i16_all :
    decode 0b00000000000000000000111100110001#32 = .ok (.gemmQI16 ⟨true, true, true, true⟩) := by decide
theorem test_decode_i32_rsums :
    decode 0b00000000000000000000010001000001#32 = .ok (.gemmQI32 ⟨false, false, true, false⟩) := by decide
theorem test_decode_i8_lsums :
    decode 0b00000000000000000000001000100001#32 = .ok (.gemmQI8 ⟨false, true, false, false⟩) := by decide
theorem test_decode_f32_bias :
    decode 0b00000000000000000000000100000010#32 = .ok (.gemmFF32 ⟨true, false, false, false⟩) := by decide
theorem test_decode_rejections :
    decode 0x00001021#32 = .error (.illegalCmd 0x00001021#32) ∧ decode 0x00000003#32 = .error (.illegalCmd 3#32) ∧
    decode 0x00000010#32 = .error (.illegalCmd 0x10#32) ∧ decode 0x00000202#32 = .error (.illegalCmd 0x202#32) ∧
    decode 0x00000001#32 = .error (.illegalDstType 0#4) ∧ decode 0x00000012#32 = .error (.illegalDstType 1#4) ∧
    decode 0x00001051#32 = .error (.illegalCmd 0x1051#32) ∧ decode 0x00000852#32 = .error (.illegalCmd 0x852#32) := by
  decide

/-- A table row's word reaches `step` as the first command after reset: BAD_GEOMETRY, ERR_INFO 0x30 (95 section 2.9). -/
theorem test_step_runs_fetch_word :
    (match step (State.reset.withFetchWord 32 0x21) with
      | .next t => (t.status.toWord, t.errCause.code, t.errInfo)
      | _ => (0#32, 0, 0#32)) = (4#32, 3, 0x30#32) := by decide

/-! ### One command each, on a small memory -/

/-- Bytes at consecutive addresses. -/
def cells (a : Nat) : List Nat → Memory
  | [] => []
  | b :: rest => (a, BitVec.ofNat 8 b) :: cells (a + 1) rest

/-- Packed LHS at 0 with row 0 = [1, 2, 3, 4], packed RHS at 32 with column 0 = [1, 1, 1, 1], four bytes at 64 for the bias,
words 10, 4, 2^30 and 1 for the sums, multiplier and exponent arrays at 68 to 83, and a destination of 0xEE at 84. -/
def smallMem (bias : List Nat) : Memory :=
  cells 0 [1, 2, 3, 4] ++ cells 4 (List.replicate 28 0) ++ cells 32 [1, 1, 1, 1] ++ cells 36 (List.replicate 28 0) ++
    cells 64 bias ++ cells 68 [10, 0, 0, 0, 4, 0, 0, 0, 0, 0, 0, 64, 1, 0, 0, 0] ++ cells 84 [0xEE, 0xEE, 0xEE, 0xEE]

/-- One output element, exact ×1 (M = 2^30, e = 1), over `smallMem`. -/
def smallDesc (depth dstZp lo hi : Word) : Descriptor :=
  { Descriptor.zero with
    rhsBaseLo := 32, biasLo := 64, lhsSumsLo := 68, rhsSumsLo := 72, multFpPtrLo := 76, multExpPtrLo := 80, dstBaseLo := 84
    lhsStride := 4, rhsStride := 4, dstStride := 1, depth := depth, dstRows := 1, dstCols := 1
    dstZp := dstZp, multFp := 0x40000000, multExp := 1, clampMin := lo, clampMax := hi }

/-- The block idle after reset, with a descriptor and memory. -/
def small (bias : List Nat) (depth dstZp lo hi : Word) : State :=
  { State.reset with mem := smallMem bias, desc := smallDesc depth dstZp lo hi }

/-- STATUS and the bytes at 84 and 85 after a command. -/
def result (o : Host.Outcome State Fault Refusal) : Word × Option Byte × Option Byte :=
  match o with
  | .next t => (t.status.toWord, t.mem.byte? 84, t.mem.byte? 85)
  | _ => (0, none, none)

/-- V-S1: dot product 10 stored as 0x0A; one byte written. -/
theorem test_i8_worked_example :
    result (exec (.gemmQI8 ⟨true, false, false, false⟩) (small [0, 0, 0, 0] 4 0 0xFFFFFF80 0x7F)) =
      (2, some 0x0A, some 0xEE) := by decide +kernel

/-- A7: DEPTH 0, bias -5, DST_ZP 2 gives byte 0xFD. -/
theorem test_i8_depth_zero :
    result (exec (.gemmQI8 ⟨true, false, false, false⟩) (small [0xFB, 0xFF, 0xFF, 0xFF] 0 2 0xFFFFFF80 0x7F)) =
      (2, some 0xFD, some 0xEE) := by decide +kernel

/-- Section 2.7: U8 with Y = 300 and clamp [0, 255] stores 0xFF. -/
theorem test_u8_saturates :
    result (exec (.gemmQU8 ⟨true, false, false, false⟩) (small [0x2C, 1, 0, 0] 0 0 0 255)) =
      (2, some 0xFF, some 0xEE) := by decide +kernel

/-- Section 2.7: U8 with Y = 300 and clamp [-10, 300] stores the low byte 0x2C. -/
theorem test_u8_truncates :
    result (exec (.gemmQU8 ⟨true, false, false, false⟩) (small [0x2C, 1, 0, 0] 0 0 0xFFFFFFF6 300)) =
      (2, some 0x2C, some 0xEE) := by decide +kernel

/-- R813: Y = -300, DST_ZP = 5 stores bytes D9 FE. -/
theorem test_i16_negative :
    result (exec (.gemmQI16 ⟨true, false, false, false⟩) (small [0xD4, 0xFE, 0xFF, 0xFF] 0 5 0xFFFF8000 0x7FFF)) =
      (2, some 0xD9, some 0xFE) := by decide +kernel

/-- R814: ACC 123456 is stored as 40 E2 01 00. -/
theorem test_i32_accumulator :
    result (exec (.gemmQI32 ⟨true, false, false, false⟩) (small [0x40, 0xE2, 1, 0] 0 0 0x80000000 0x7FFFFFFF)) =
      (2, some 0x40, some 0xE2) := by decide +kernel

/-- R814: ACC 5, DST_ZP 3, clamp [0, 6] gives 6. -/
theorem test_i32_clamps :
    result (exec (.gemmQI32 ⟨true, false, false, false⟩) (small [5, 0, 0, 0] 0 3 0 6)) = (2, some 6, some 0) := by
  decide +kernel

/-- Z1, Z2 and Z3's formulas on dot 10: RHS_ZP 2, lhs_sums 10, LHS_ZP 3, rhs_sums 4, PROD_ZP_DEPTH 24, so the result is
10 - 20 - (12 - 24) = 2. -/
theorem test_i8_zero_points :
    (let s := small [0, 0, 0, 0] 4 0 0xFFFFFF80 0x7F
     result (exec (.gemmQI8 ⟨true, true, true, true⟩)
       { s with desc := { s.desc with lhsZp := 3, rhsZp := 2, prodZpDepth := 24 } })) = (2, some 2, some 0xEE) := by
  decide +kernel

/-- F12: DEPTH 0, bias 2.5, clamp [-inf, +inf] stores 2.5 (0x40200000). -/
theorem test_f32_bias :
    (match exec (.gemmFF32 ⟨true, false, false, false⟩) (small [0, 0, 0x20, 0x40] 0 0 0xFF800000 0x7F800000) with
      | .next t => t.mem.read? 84 4
      | _ => none) = some 0x40200000 := by decide +kernel

/-! ### Arithmetic vectors of 95 sections 2.6 and 2.8 -/

theorem test_requant_vectors :
    rqExact 10 0x7FFFFFFF 0 = 10 ∧ rqExact 3 0x40000000 0 = 2 ∧ rqExact (-3) 0x40000000 0 = -2 ∧
    rqUpstream (-3) 0x40000000 0 = -1 ∧ rqExact (-2) 0x40000000 (-1) = -1 ∧ rqUpstream (-2) 0x40000000 (-1) = 0 ∧
    rqExact (-2147483648) (-2147483648) 0 = 2147483648 ∧ rqUpstream (2 ^ 30) 0x40000000 1 = -1073741824 ∧
    rqExact 12345 1518500250 (-3) = 1091 ∧ rqExact 1000 0x40000000 (-40) = 0 := by decide +kernel

theorem test_fma_vectors :
    fma32 0x3F800800#32 0x3F800800#32 0xBF801000#32 = 0x33800000#32 ∧
    fma32 0x3F800000#32 0x3F800000#32 0x4B800000#32 = 0x4B800000#32 ∧
    fma32 0x7F800000#32 0x00000000#32 0x00000000#32 = 0x7FC00000#32 ∧
    fma32 0xBF800000#32 0x00000000#32 0x00000000#32 = 0x00000000#32 ∧
    fma32 0xBF800000#32 0x00000000#32 0x80000000#32 = 0x80000000#32 ∧
    fma32 0x7F7FFFFF#32 0x40000000#32 0x00000000#32 = 0x7F800000#32 ∧
    fma32 0x00800000#32 0x3F000000#32 0x00000000#32 = 0x00400000#32 ∧
    fma32 0x7FA00001#32 0x40000000#32 0x00000000#32 = 0x7FC00000#32 := by decide +kernel

theorem test_float_clamp_vectors :
    floatClamp .select 0xBF800000#32 0x3F800000#32 0x7FC00000#32 = 0x3F800000#32 ∧
    floatClamp .propagate 0xBF800000#32 0x3F800000#32 0x7FC00000#32 = 0x7FC00000#32 ∧
    floatClamp .select 0x00000000#32 0x7FC00000#32 0x40400000#32 = 0x00000000#32 ∧
    floatClamp .select 0x7FC00000#32 0x40A00000#32 0x40400000#32 = 0x7FC00000#32 ∧
    floatClamp .select 0x00000000#32 0x3F800000#32 0x80000000#32 = 0x00000000#32 := by decide +kernel

/-! ### The engine step by step -/

/-- One tile of DEPTH 4 takes 4 engine steps from acceptance and ends as `exec` does (R1120, V-S1). -/
theorem test_engine_steps :
    (match State.engineSteps? 4 ((small [0, 0, 0, 0] 4 0 0xFFFFFF80 0x7F).accept ⟨.quant .i8, ⟨true, false, false, false⟩⟩) with
      | some t => result (.next t)
      | none => (0, none, none)) = (2, some 0x0A, some 0xEE) := by decide +kernel

/-- R814: under UPSTREAM_AVX2 an I32 accumulator's zero point is added exactly too: 0x7FFFFFFF + 1 saturates. -/
theorem test_i32_upstream_adds_exactly :
    (let s := small [0xFF, 0xFF, 0xFF, 0x7F] 0 1 0x80000000 0x7FFFFFFF
     match exec (.gemmQI32 ⟨true, false, false, false⟩) { s with params := { s.params with requantMode := .upstreamAvx2 } } with
      | .next t => t.mem.read? 84 4
      | _ => none) = some 0x7FFFFFFF := by decide +kernel

/-- Two rows with a per-row bias at 60 to 67, in a memory whose byte 67 is missing (R232): row 0's element can be seen new,
row 1's cannot, and the command as a whole is stuck. -/
theorem test_missing_side_byte_holds_up_its_own_row :
    (let s := small [0, 0, 0, 0] 0 0 0xFFFFFF80 0x7F
     let t := { s with
       mem := s.mem.filter fun b => b.1 != 67
       desc := { s.desc with biasLo := 60, lastRow := 1, dstRows := 2 } }
     ((t.possibleStores ⟨.quant .i8, ⟨true, false, false, false⟩⟩).map Store.addr,
      (t.kernelRun? ⟨.quant .i8, ⟨true, false, false, false⟩⟩).isSome)) = ([84], false) := by decide +kernel

/-- R143, R430: the masked lanes of MVEC and of COLCORR hold 0, whatever the scalar and PROD_ZP_DEPTH. -/
theorem test_masked_lanes_hold_zero :
    (let s := small [0, 0, 0, 0] 4 0 0xFFFFFF80 0x7F
     (s.scaleVec? ⟨.quant .i8, ⟨true, false, false, false⟩⟩ .multFpPtr .multFp 0 1).map fun m => (m.x0, m.x1, m.x7)) =
      some (0x40000000, 0, 0) ∧
    (let v := colTerms .wheneverNonzero false 1 0 24 (Oct.replicate 0)
     (v.x0, v.x1, v.x7)) = (0xFFFFFFE8, 0, 0) := by decide +kernel

/-! ### Witnesses: each statement's hypotheses can be met -/

/-- Whether an outcome is a next state. -/
def isNext (o : Host.Outcome State Fault Refusal) : Bool :=
  match o with
  | .next _ => true
  | _ => false

theorem exists_next {o : Host.Outcome State Fault Refusal} (h : isNext o = true) : ∃ t, o = .next t := by
  cases o with
  | next t => exact ⟨t, rfl⟩
  | fault r => cases h
  | refused r => cases h

/-- The flag HAS_BIAS alone, and every flag. -/
def biasOnly : Flags := ⟨true, false, false, false⟩
def allFlags : Flags := ⟨true, true, true, true⟩

/-- V-S1's command over the small memory, idle and running. -/
def idle1 : State := small [0, 0, 0, 0] 4 0 0xFFFFFF80 0x7F
def latch1 : Latch := ⟨.quant .i8, biasOnly⟩
def busy1 : State := idle1.accept latch1

/-- The same with the inputs given, and with the descriptor changed. -/
def given (s : State) (is : List Input) : State := { s with inputs := is }
def described (f : Descriptor → Descriptor) : State := { idle1 with desc := f idle1.desc }

/-- The bus address of a register. -/
def regAddr (offset : Nat) : Nat := State.reset.params.base + offset

theorem witness_EncodedCommandDecodesBack : (Instr.gemmFF32 biasOnly).wellFormed = true := by decide

theorem witness_ValidWordsAreTheTable :
    decode 0x102#32 = .ok (.gemmFF32 biasOnly) ∧ ∃ row ∈ opcodeRows, row.selects 0x102#32 = true := by decide

/-- A word for each clause, at the ends of its range. -/
theorem witness_RejectionOrder :
    (0x1000 / 2 ^ 12 ≠ 0 ∧ 0xFFFFFFFF / 2 ^ 12 ≠ 0) ∧
    (3 ≤ 3 % 16 ∧ 3 ≤ 0xFFF % 16 ∧ 0xFFF / 2 ^ 12 = 0) ∧
    (0x10 % 16 = 0 ∧ 0x10 ≠ 0 ∧ 0xFF0 % 16 = 0 ∧ 0xFF0 / 2 ^ 12 = 0) ∧
    (0x202 % 16 = 2 ∧ 0x202 / 2 ^ 9 ≠ 0) ∧
    (0x001 % 16 = 1 ∧ 0x001 / 16 % 16 = 0 ∧ 0xF51 % 16 = 1 ∧ 4 < 0xF51 / 16 % 16) ∧
    (0x112 % 16 = 2 ∧ 0x112 / 2 ^ 9 = 0 ∧ 0x112 / 16 % 16 ≠ 0) ∧
    (0x011 % 16 = 1 ∧ 1 ≤ 0x011 / 16 % 16 ∧ 0xF41 % 16 = 1 ∧ 0xF41 / 16 % 16 ≤ 4) ∧
    (0x102 % 16 = 2 ∧ 0x102 / 2 ^ 9 = 0 ∧ 0x102 / 16 % 16 = 0) := by decide

theorem witness_StepRunsDecodedCommand :
    (let s := idle1.withFetchWord 32 0x121
     s.inputs = .write 0 (s.params.base + 0x008) 4 0x121 :: [] ∧ s.foreign 0 = false ∧ s.status.busy = false ∧
      decode (BitVec.ofNat 32 0x121) = .ok (.gemmQI8 biasOnly)) := by decide +kernel

/-- A command that starts; host 1 amid host 0's programming; a running block; and words that start nothing: an illegal one,
NOP, a command whose DEPTH fails, one whose destination is packed LHS. -/
theorem witness_StartOnlyAccepts :
    (let s := given idle1 [.start 0 0x121#32]
     s.inputs = .start 0 0x121#32 :: [] ∧ s.foreign 0 = false ∧ s.status.busy = false ∧
      decode 0x121#32 = .ok (.gemmQI8 biasOnly) ∧ (Instr.gemmQI8 biasOnly).latch = some latch1 ∧
      s.startCheck latch1 = none ∧ (s.contractStop latch1).isNone = true) ∧
    (let s := { given idle1 [.start 1 0x121#32] with owner := some 0 }
     s.inputs = .start 1 0x121#32 :: [] ∧ s.owner = some 0 ∧ 0 ≠ 1) ∧
    (busy1.foreign 0 = false ∧ busy1.status.busy = true) ∧
    decode 0x1021#32 = .error (.illegalCmd 0x1021#32) ∧ (decode 0#32 = .ok .nop ∧ Instr.nop.latch = none) ∧
    (described fun d => { d with depth := 6 }).startCheck latch1 ≠ none ∧
    ((described fun d => { d with dstBaseLo := 0 }).contractStop latch1).isNone = false := by decide +kernel

/-- An illegal word and an illegal destination type on the idle block, and any word on the busy one. -/
theorem witness_IllegalWordEndsInError :
    (∀ row ∈ opcodeRows, row.selects 0x1021#32 = false) ∧ (∀ row ∈ opcodeRows, row.selects 0x51#32 = false) ∧
    (∀ s ∈ [idle1, busy1], ∀ w : Word,
      (given s [.write 0 (regAddr 0x008) 4 w.toNat]).inputs = .write 0 (s.params.base + 0x008) 4 w.toNat :: []) ∧
    idle1.foreign 0 = false ∧ idle1.status.busy = false ∧ busy1.foreign 0 = false ∧ busy1.status.busy = true := by
  refine ⟨by decide +kernel, by decide +kernel, ?_, by decide +kernel⟩
  intro s hs w
  have h : regAddr 0x008 = s.params.base + 0x008 := by
    rcases List.mem_cons.mp hs with rfl | hs
    · decide +kernel
    · rw [List.mem_singleton.mp hs]
      decide +kernel
  rw [h]
  rfl

/-- The first and the last descriptor register, CMD, STATUS and IRQ_EN. -/
theorem witness_BusyWritesAreDropped :
    DescReg.lhsBaseLo.offset = 0x020 ∧ DescReg.clampMax.offset = 0x0A4 ∧
    ∀ offset ∈ [0x008, 0x020, 0x0A4, 0x00C, 0x010],
      (let s := given busy1 [.write 0 (regAddr offset) 4 14]
       s.status.busy = true ∧ s.foreign 0 = false ∧ s.inputs = .write 0 (s.params.base + offset) 4 14 :: []) := by
  decide +kernel

/-- A block that waits with DONE and WERR, or with ERR, set. -/
def doneState : State := { idle1 with status := ⟨false, true, false, true⟩ }
def errState : State := { idle1 with status := ⟨false, false, true, false⟩, errCause := .illegalCmd, errInfo := 3#32 }

theorem witness_StatusBitsHoldUntilCleared :
    (step doneState = .next doneState ∧ doneState.status.done = true ∧ doneState.status.werr = true) ∧
    (step errState = .next errState ∧ errState.status.err = true) :=
  ⟨⟨rfl, rfl, rfl⟩, rfl, rfl⟩

theorem witness_DescriptorWriteThenRead :
    ∀ r ∈ [DescReg.lhsBaseLo, DescReg.clampMax],
      (let s := given idle1 [.write 0 (regAddr r.offset) 4 (0xFFFFFFFF#32).toNat]
       s.inputs = .write 0 (s.params.base + r.offset) 4 (0xFFFFFFFF#32).toNat :: [] ∧ s.foreign 0 = false ∧
        s.status.busy = false) ∧
      (let s := given busy1 [.read 0 (regAddr r.offset) 4]
       s.inputs = .read 0 (s.params.base + r.offset) 4 :: []) := by decide +kernel

theorem witness_IdentificationIsReadOnly :
    ∀ offset ∈ [0x000, 0x004, 0x014, 0x018],
      (let s := given idle1 [.read 0 (regAddr offset) 4]
       s.inputs = .read 0 (s.params.base + offset) 4 :: []) ∧
      (let s := given idle1 [.write 0 (regAddr offset) 4 7]
       s.foreign 0 = false ∧ s.inputs = .write 0 (s.params.base + offset) 4 7 :: []) := by decide +kernel

/-- The reserved offsets at the ends of their ranges, and two words that differ in reserved bits alone. -/
theorem witness_ReservedSpaceIsInert :
    (∀ offset ∈ [0x01C, 0x0A8, 0x0FC],
      offset % 4 = 0 ∧ (offset = 0x01C ∨ (0x0A8 ≤ offset ∧ offset ≤ 0x0FC)) ∧
      (let s := given idle1 [.read 0 (regAddr offset) 4]
       s.inputs = .read 0 (s.params.base + offset) 4 :: []) ∧
      (let s := given idle1 [.write 0 (regAddr offset) 4 7]
       s.foreign 0 = false ∧ s.inputs = .write 0 (s.params.base + offset) 4 7 :: [])) ∧
    (∀ n, n < 4 → 1 ≤ n → n ≤ 3 → (0xFFFFFFF1#32).getLsbD n = (0x00000000#32).getLsbD n) := by decide +kernel

theorem witness_StatusReadAndClear :
    (∀ offset ∈ [0x008, 0x00C, 0x010, 0x014, 0x018],
      (let s := given doneState [.read 0 (regAddr offset) 4]
       s.inputs = .read 0 (s.params.base + offset) 4 :: [])) ∧
    (let s := given doneState [.write 0 (regAddr 0x00C) 4 14]
     s.foreign 0 = false ∧ s.inputs = .write 0 (s.params.base + 0x00C) 4 14 :: []) := by decide +kernel

/-- An IRQ_EN write of all ones to the idle and to the running block. -/
theorem witness_InterruptLineIsEnabledStatus :
    ∀ t ∈ [idle1, busy1],
      (let s := given t [.write 0 (regAddr 0x010) 4 (0xFFFFFFFF#32).toNat]
       s.foreign 0 = false ∧ s.inputs = .write 0 (s.params.base + 0x010) 4 (0xFFFFFFFF#32).toNat :: []) := by
  decide +kernel

/-- A narrow access, a wide one, an unaligned one, and one that only reaches into the window. -/
theorem witness_RegisterAccessIsAlignedWord :
    ∀ p ∈ [(regAddr 0x00C, 1), (regAddr 0x0F8, 8), (regAddr 0x00D, 4), (regAddr 0 - 2, 4)],
      p.1 < State.reset.params.base + 256 ∧ State.reset.params.base < p.1 + p.2 ∧ 0 < p.2 ∧
        (p.2 ≠ 4 ∨ p.1 % 4 ≠ 0) ∧
        (given idle1 [.write 0 p.1 p.2 7]).inputs = .write 0 p.1 p.2 7 :: [] ∧
        (given idle1 [.read 0 p.1 p.2]).inputs = .read 0 p.1 p.2 :: [] := by decide +kernel

/-- Host 1 amid host 0's programming; host 1 begins; host 1 writes a register that begins nothing. -/
theorem witness_TwoHostsAreRefused :
    (let s := { given idle1 [.write 1 (regAddr 0x0A4) 4 7] with owner := some 0 }
     s.inputs = .write 1 (s.params.base + 0x0A4) 4 7 :: [] ∧ s.owner = some 0 ∧ 0 ≠ 1 ∧ 0x0A4 < 256 ∧ 0x0A4 % 4 = 0) ∧
    (let s := given idle1 [.write 1 (regAddr 0x0A4) 4 7]
     s.owner = none ∧ s.status.busy = false ∧ DescReg.clampMax.offset = 0x0A4) ∧
    (let s := given idle1 [.write 1 (regAddr 0x01C) 4 7]
     s.owner = none ∧ (∀ r : DescReg, r.offset ≠ 0x01C) ∧ isNext (step s) = true) := by
  refine ⟨by decide +kernel, by decide +kernel, by decide +kernel, ?_, by decide +kernel⟩
  intro r
  cases r <;> decide

theorem witness_ResetGivesResetValues : (given busy1 [.reset]).inputs = .reset :: [] := rfl

/-- A running command's state meets the invariant, whatever comes next. -/
theorem busy1_inv (is : List Input) : (given busy1 is).Inv where
  memWf := show busy1.mem.wf = true by decide +kernel
  doneNotErr := show busy1.status.done = true → busy1.status.err = false by decide +kernel
  errHasCause := show busy1.status.err = true → busy1.errCause ≠ .none by decide +kernel
  doneNoCause := show busy1.status.done = true → busy1.errCause = .none by decide +kernel
  noCauseNoInfo := show busy1.errCause = .none → busy1.errInfo = 0 by decide +kernel
  busyClear := fun _ => show busy1.status.done = false ∧ busy1.status.err = false ∧ busy1.errCause = .none by
    decide +kernel
  busyNoOwner := fun _ => show busy1.owner = none by decide +kernel
  busyChecked := fun _ => by
    have hd : (given busy1 is).desc = busy1.desc := rfl
    have hl : (given busy1 is).engine.latch = latch1 := rfl
    rw [hl, State.startCheck_congr hd, State.contractStop_congr hd rfl fun _ => rfl]
    decide +kernel
  busyInside := fun _ => by
    have hd : (given busy1 is).desc = busy1.desc := rfl
    have hl : (given busy1 is).engine.latch = latch1 := rfl
    rw [hl, State.colBlocks_congr hd, State.rowBlocks_congr hd, State.depthSteps_congr hd]
    exact (by decide +kernel : 0 < busy1.colBlocks ∧ 0 < busy1.rowBlocks ∧ 0 ≤ busy1.depthSteps latch1.kernel)

theorem witness_ResetDuringCommandDraws :
    (given busy1 [.reset]).Inv ∧ busy1.status.busy = true ∧ (given busy1 [.reset]).inputs = .reset :: [] ∧
      busy1.writes 0 0 ∧ busy1.aliases busy1.engine.latch = false ∧ busy1.footprintsExist busy1.engine.latch = true := by
  refine ⟨busy1_inv _, rfl, rfl, ?_⟩
  decide +kernel

theorem witness_NopChangesNothing :
    idle1.status.busy = false ∧ busy1.status.busy = true ∧ (0x10#32).toNat % 16 = 0 ∧ 0x10#32 ≠ 0#32 := by decide

/-- Each GEMM command runs on the small state. -/
theorem witness_GemmCommandsComplete :
    (∀ d ∈ [QDst.u8, .i8, .i16, .i32], ∀ f ∈ [biasOnly, allFlags], idle1.runs ⟨.quant d, f⟩ = true) ∧
    (let s := small [0, 0, 0x20, 0x40] 0 0 0xFF800000 0x7F800000
     s.runs ⟨.float, biasOnly⟩ = true ∧ biasOnly.floatLegal = true) := by decide +kernel

theorem witness_QuantCommandStoresReference :
    ∀ d ∈ [QDst.u8, .i8, .i16, .i32], idle1.runs ⟨.quant d, allFlags⟩ = true ∧ idle1.writes 0 0 := by decide +kernel

theorem witness_FloatCommandStoresReference :
    (let s := small [0, 0, 0x20, 0x40] 0 0 0xFF800000 0x7F800000
     biasOnly.floatLegal = true ∧ s.runs ⟨.float, biasOnly⟩ = true ∧ s.writes 0 0) := by decide +kernel

theorem witness_GemmCommandFrame :
    (Instr.gemmQI8 biasOnly).latch = some latch1 ∧ idle1.status.busy = false ∧
      (∃ t, exec (.gemmQI8 biasOnly) idle1 = .next t) ∧
      (∀ r c, idle1.writes r c → 85 < idle1.dstAddr (.quant .i8) r c ∨ idle1.dstAddr (.quant .i8) r c + 1 ≤ 85) := by
  refine ⟨rfl, rfl, exists_next (by decide +kernel), ?_⟩
  rintro r c ⟨⟨_, hr⟩, _, hc⟩
  have h1 : min (idle1.nreg .startRow + 8 * idle1.rowBlocks) (idle1.nreg .dstRows) = 1 := by decide +kernel
  have h2 : min (idle1.nreg .startCol + 8 * idle1.colBlocks) (idle1.nreg .dstCols) = 1 := by decide +kernel
  rw [h1] at hr
  rw [h2] at hc
  obtain rfl : r = 0 := by omega
  obtain rfl : c = 0 := by omega
  decide +kernel

theorem witness_WrittenRectangle :
    idle1.geometryMask = 0 ∧ (∃ ws, idle1.kernelRun? latch1 = some ws) ∧ idle1.writes 0 0 :=
  ⟨by decide +kernel, Option.isSome_iff_exists.mp (by decide +kernel), by decide +kernel⟩

/-- A full tile and a residual one: rows and columns 0 to 8. LAST_ROW 7 leaves one row block, of which 8 begins the next. -/
theorem witness_ResidualExtents :
    (let s := described fun d => { d with lastRow := 8, lastCol := 8, dstRows := 9, dstCols := 9 }
     s.geometryMask = 0 ∧ s.tiles = [(0, 0), (0, 1), (1, 0), (1, 1)] ∧ s.residualRows 0 = 8 ∧ s.residualRows 1 = 1 ∧
      s.sreg .startRow + 8 * 1 ≤ s.sreg .lastRow ∧ (s.tileStart? ⟨.quant .i8, .none⟩ 1 1).isSome = true ∧
      (s.tileScale? ⟨.quant .i8, .none⟩ 1 (Oct.replicate (Oct.replicate 7#32))).isSome = true) ∧
    (let s := described fun d => { d with lastRow := 7, lastCol := 8, dstRows := 9, dstCols := 9 }
     s.geometryMask = 0 ∧ s.tiles = [(0, 0), (1, 0)] ∧ ¬s.sreg .startRow + 8 * 1 ≤ s.sreg .lastRow) := by
  decide +kernel

/-- The second memory has a byte more, outside both footprints. -/
theorem witness_CommandReadsOnlyItsFootprint :
    (let s := described id
     let t := { s with mem := s.mem ++ [(200, 7#8)] }
     t.desc = s.desc ∧ t.params = s.params ∧
      (∀ iv ∈ s.readFootprint latch1, ∀ a < 100, inInterval iv a = true → t.mem.byte? a = s.mem.byte? a) ∧
      (∀ iv ∈ s.readFootprint latch1 ++ s.writeFootprint latch1, iv.lo + iv.len ≤ 100) ∧
      (∀ iv ∈ s.writeFootprint latch1, ∀ a < 100, inInterval iv a = true → t.mem.has a = s.mem.has a)) := by
  decide +kernel

theorem witness_FailedCheckEndsInError :
    (let s := described fun d => { d with depth := 6 }
     (Instr.gemmQI8 biasOnly).latch = some latch1 ∧ (Instr.gemmQI8 biasOnly).wellFormed = true ∧
      s.status.busy = false ∧ s.startCheck latch1 = some (.badDepth, 6#32)) := by decide +kernel

/-- Each of the six conditions at the edge of its range; and, in `idle1`, none of them. -/
theorem witness_GeometryCheck :
    (let s (f : Descriptor → Descriptor) := described f
     (Instr.gemmQI8 biasOnly).latch = some latch1 ∧ (Instr.gemmQI8 biasOnly).wellFormed = true ∧
      idle1.status.busy = false ∧ idle1.geometryMask = 0 ∧
      ¬(idle1.sreg .startRow < 0 ∨ idle1.sreg .startCol < 0 ∨ idle1.sreg .startRow > idle1.sreg .lastRow ∨
        idle1.sreg .startCol > idle1.sreg .lastCol ∨ idle1.sreg .lastRow ≥ idle1.sreg .dstRows ∨
        idle1.sreg .lastCol ≥ idle1.sreg .dstCols) ∧
      (s fun d => { d with startRow := 0xFFFFFFFF }).sreg .startRow < 0 ∧
      (s fun d => { d with startCol := 0xFFFFFFFF }).sreg .startCol < 0 ∧
      (let t := s fun d => { d with startRow := 1 }
       t.sreg .startRow > t.sreg .lastRow) ∧
      (let t := s fun d => { d with startCol := 1 }
       t.sreg .startCol > t.sreg .lastCol) ∧
      (let t := s fun d => { d with lastRow := 1 }
       t.sreg .lastRow ≥ t.sreg .dstRows) ∧
      (let t := s fun d => { d with lastCol := 1 }
       t.sreg .lastCol ≥ t.sreg .dstCols)) := by decide +kernel

/-- DEPTH -4 and 6 fail for GEMM_Q, -4 for GEMM_F; 0 passes for both. -/
theorem witness_DepthCheck :
    (let s (v : Word) := described fun d => { d with depth := v }
     (Instr.gemmQI8 biasOnly).latch = some latch1 ∧ (Instr.gemmFF32 biasOnly).latch = some ⟨.float, biasOnly⟩ ∧
      (s 0).geometryMask = 0 ∧ (s 0xFFFFFFFC).sreg .depth < 0 ∧
      (latch1.kernel ≠ .float ∧ (s 6).sreg .depth % 4 ≠ 0) ∧
      ¬((s 0).sreg .depth < 0 ∨ (latch1.kernel ≠ .float ∧ (s 0).sreg .depth % 4 ≠ 0)) ∧
      isNext (exec (.gemmQI8 biasOnly) (s 0)) = true ∧ isNext (exec (.gemmFF32 biasOnly) (s 0)) = true) := by
  decide +kernel

/-- DST_BASE 85 for a halfword destination; 84 is aligned. -/
theorem witness_AlignmentCheck :
    (let l : Latch := ⟨.quant .i16, biasOnly⟩
     let s := described fun d => { d with dstBaseLo := 85 }
     (Instr.gemmQI16 biasOnly).latch = some l ∧ s.geometryMask = 0 ∧ s.badDepth l.kernel = false ∧
      (s.alignmentTable l).map (fun u => (u.offset, u.used, u.alignment)) =
        [(0x20, true, 1), (0x28, true, 1), (0x30, true, 2), (0x38, true, 4), (0x40, false, 4), (0x48, false, 4),
          (0x50, false, 4), (0x58, false, 4)] ∧
      s.ptr .dstBase % 2 ≠ 0 ∧
      (∀ u ∈ idle1.alignmentTable l, u.used = true → idle1.ptr u.pointer % u.alignment = 0) ∧
      isNext (exec (.gemmQI16 biasOnly) idle1) = true) := by decide +kernel

theorem witness_ErrorsComeBeforeMemory :
    (match exec (.gemmQI8 biasOnly) (described fun d => { d with depth := 6 }) with
      | .next t => t.status.err
      | _ => false) = true ∧
    busy1.status.busy = true ∧ busy1.status.err = false ∧ busy1.engineStep?.isSome = true := by decide +kernel

theorem witness_FloatWithForeignFlagIsIllegal :
    (∀ f ∈ [⟨false, true, false, false⟩, ⟨false, false, true, false⟩, ⟨true, false, false, true⟩],
      Flags.floatLegal f = false) ∧ idle1.status.busy = false := by decide

/-- A destination whose second element is at 2^64; and, below it and clear of the window, a destination over the packed
LHS, and two columns at one address. -/
theorem witness_ContractViolationsStop :
    (let s := described fun d =>
        { d with dstBaseLo := 0xFFFFFFFF, dstBaseHi := 0xFFFFFFFF, lastRow := 1, dstRows := 2 }
     s.startCheck latch1 = none ∧
      ∃ iv ∈ s.readFootprint latch1 ++ s.writeFootprint latch1, inInterval iv (2 ^ 64) = true) ∧
    (let s := described fun d => { d with dstBaseLo := 0 }
     s.startCheck latch1 = none ∧
      (∀ iv ∈ s.readFootprint latch1 ++ s.writeFootprint latch1, iv.lo + iv.len ≤ s.params.base) ∧
      s.params.base ≤ 2 ^ 64 ∧ s.params.deviceRegions = [] ∧ s.footprintsExist latch1 = true ∧
      ∃ ivr ∈ s.readFootprint latch1, ∃ ivw ∈ s.writeFootprint latch1,
        inInterval ivr 0 = true ∧ inInterval ivw 0 = true) ∧
    (let s := described fun d => { d with dstStride := 0, lastCol := 1, dstCols := 2 }
     s.startCheck latch1 = none ∧
      (∀ iv ∈ s.readFootprint latch1 ++ s.writeFootprint latch1, iv.lo + iv.len ≤ s.params.base) ∧
      s.footprintsExist latch1 = true ∧ s.writes 0 0 ∧ s.writes 0 1 ∧ inInterval ⟨s.dstAddr latch1.kernel 0 0, latch1.kernel.elemSize⟩ 84 = true ∧
      inInterval ⟨s.dstAddr latch1.kernel 0 1, latch1.kernel.elemSize⟩ 84 = true) := by decide +kernel

/-- A destination on the window's first byte; and one on the last byte of a device, clear of the window. -/
theorem witness_BufferInRegisterWindowIsRefused :
    (let s := described fun d => { d with dstBaseLo := 0xFFFFFF00, dstBaseHi := 0xFFFFFFFF }
     s.startCheck latch1 = none ∧
      (∀ iv ∈ s.readFootprint latch1 ++ s.writeFootprint latch1, iv.lo + iv.len ≤ 2 ^ 64) ∧
      ∃ iv ∈ s.readFootprint latch1 ++ s.writeFootprint latch1, inInterval iv s.params.base = true ∧
        inInterval ⟨s.params.base, 256⟩ s.params.base = true) ∧
    (let s := { idle1 with params := { idle1.params with deviceRegions := [⟨80, 5⟩] } }
     s.startCheck latch1 = none ∧
      (∀ iv ∈ s.readFootprint latch1 ++ s.writeFootprint latch1, iv.lo + iv.len ≤ s.params.base) ∧
      s.params.base ≤ 2 ^ 64 ∧ ∃ dev ∈ s.params.deviceRegions, ∃ iv ∈ s.readFootprint latch1 ++ s.writeFootprint latch1,
        inInterval iv 84 = true ∧ inInterval dev 84 = true ∧ inInterval dev 85 = false) := by decide +kernel

/-- R1112's last row: a destination over packed LHS is refused, but without LHS byte 0 the command is accepted and stuck. -/
theorem test_stuck_before_aliasing :
    (let s := described fun d => { d with dstBaseLo := 0 }
     let t := { s with mem := s.mem.drop 1 }
     (match exec (.gemmQI8 biasOnly) s, exec (.gemmQI8 biasOnly) t, beginInstr (.gemmQI8 biasOnly) t with
      | .refused .footprintAliasing, .fault .engineStuck, .next u => u.status.busy
      | _, _, _ => false)) = true := by decide +kernel

/-- A destination the launch memory does not hold; and packed LHS without its first byte, on which the destination lies. -/
theorem witness_MissingByteIsStuck :
    (let s := described fun d => { d with dstBaseLo := 200 }
     s.startCheck latch1 = none ∧ s.params.deviceRegions = [] ∧ s.params.base ≤ 2 ^ 64 ∧
      (∀ iv ∈ s.readFootprint latch1 ++ s.writeFootprint latch1, iv.lo + iv.len ≤ s.params.base) ∧
      s.mem.has 200 = false ∧ s.aliases latch1 = false ∧
      ∃ iv ∈ s.readFootprint latch1 ++ s.writeFootprint latch1, inInterval iv 200 = true) ∧
    (let s := { described (fun d => { d with dstBaseLo := 0 }) with mem := idle1.mem.drop 1 }
     s.startCheck latch1 = none ∧ s.params.deviceRegions = [] ∧ s.params.base ≤ 2 ^ 64 ∧
      (∀ iv ∈ s.readFootprint latch1 ++ s.writeFootprint latch1, iv.lo + iv.len ≤ s.params.base) ∧
      s.mem.has 0 = false ∧ s.aliases latch1 = true ∧ (s.contractStop latch1).isNone = true ∧
      ∃ iv ∈ s.readFootprint latch1 ++ s.writeFootprint latch1, inInterval iv 0 = true) := by decide +kernel

theorem witness_RequantProperties : (-33 : Int) ≤ -33 ∧ (0 : Int) ≤ 3 ∧ (-5 : Int) ≤ 4 := by decide

/-- A negative tie and two products that are none. -/
theorem witness_ShiftRouteAgainstRounding :
    0 < 1 ∧ ((-3 : Int) < 0 ∧ (-3 : Int) % 2 ^ 1 = 2 ^ (1 - 1)) ∧ ¬((3 : Int) < 0 ∧ (3 : Int) % 2 ^ 1 = 2 ^ (1 - 1)) ∧
    ¬((-2 : Int) < 0 ∧ (-2 : Int) % 2 ^ 1 = 2 ^ (1 - 1)) := by decide

/-- z at each bound, one beyond each, and inverted bounds (R802's example). -/
theorem witness_ClampSaturates :
    ((-128 : Int) ≤ 127 ∧ (-128 : Int) ≤ -128 ∧ (127 : Int) ≤ 127 ∧ (127 : Int) < 128 ∧ (-129 : Int) < -128) ∧
    clampInt 5 10 0 = 10 := by decide

/-- The bounds of each destination type at the edges of its range. -/
theorem witness_NarrowingKeepsFittingValues :
    (let s (lo hi : Word) := described fun d => { d with clampMin := lo, clampMax := hi }
     (s 0 255).params.int32Post = .apply ∧
      (0 ≤ (s 0 255).sreg .clampMin ∧ (s 0 255).sreg .clampMax ≤ 255) ∧
      (-128 ≤ (s 0xFFFFFF80 127).sreg .clampMin ∧ (s 0xFFFFFF80 127).sreg .clampMax ≤ 127) ∧
      (-32768 ≤ (s 0xFFFF8000 32767).sreg .clampMin ∧ (s 0xFFFF8000 32767).sreg .clampMax ≤ 32767) ∧
      (s 0x80000000 0x7FFFFFFF).sreg .clampMin ≤ (s 0x80000000 0x7FFFFFFF).sreg .clampMax) := by decide +kernel

theorem witness_AccumulatorClosedForm :
    ∃ acc, idle1.tileDepths? latch1 0 0 1 (Oct.replicate (Oct.replicate 7#32)) = some acc :=
  Option.isSome_iff_exists.mp (by decide +kernel)

/-- The small memory's sums 10 and 4 are the true ones, and 24 = 3 * 2 * 4. -/
theorem witness_ZeroPointCorrectionIsShiftedDotProduct :
    (let s := described fun d => { d with lhsZp := 3, rhsZp := 2, prodZpDepth := 24 }
     let l : Latch := ⟨.quant .i8, allFlags⟩
     s.geometryMask = 0 ∧ s.badDepth l.kernel = false ∧ (0, 0) ∈ s.tiles ∧ 0 < s.residualRows 0 ∧
      0 < s.residualCols 0 ∧
      ((s.tileStart? l 0 0).bind fun first => s.tileDepths? l 0 0 (s.depthSteps l.kernel) first.acc).isSome = true ∧
      s32 (s.memWord (s.sideAddr .lhsSums (s.rowOf 0 + 0))) =
        ((List.range (s.nreg .depth)).map fun d => s.lhsRef (s.rowOf 0 + 0) d).sum ∧
      s32 (s.memWord (s.sideAddr .rhsSums (s.colOf 0 + 0))) =
        ((List.range (s.nreg .depth)).map fun d => s.rhsRef (s.colOf 0 + 0) d).sum ∧
      s.sreg .prodZpDepth = s.sreg .lhsZp * s.sreg .rhsZp * s.nreg .depth) := by decide +kernel

theorem witness_ZeroPointFastPath :
    idle1.sreg .lhsZp = 0 ∧ idle1.sreg .rhsZp = 0 ∧ idle1.params.prodZpMode = .withRhsSums ∧
      (idle1.tileStart? latch1 0 0).isSome = true := by decide +kernel

theorem witness_Int32ReadsNoMultiplier :
    DescReg.multExpPtrHi ∈ [DescReg.multFp, .multExp, .multFpPtrLo, .multFpPtrHi, .multExpPtrLo, .multExpPtrHi] ∧
      ∃ t, exec (.gemmQI32 allFlags) idle1 = .next t :=
  ⟨by decide, exists_next (by decide +kernel)⟩

/-- The small memory's per-row multiplier and exponent are the scalar ones. -/
theorem witness_PerChannelEqualsPerTensor :
    allFlags.perch = true ∧ idle1.runs ⟨.quant .i8, allFlags⟩ = true ∧
      ∀ i j, idle1.writes i j → idle1.memWord (idle1.sideAddr .multFpPtr i) = idle1.desc.get .multFp ∧
        idle1.memWord (idle1.sideAddr .multExpPtr i) = idle1.desc.get .multExp := by
  refine ⟨rfl, by decide +kernel, ?_⟩
  rintro i j ⟨⟨_, hi⟩, _⟩
  have h1 : min (idle1.nreg .startRow + 8 * idle1.rowBlocks) (idle1.nreg .dstRows) = 1 := by decide +kernel
  rw [h1] at hi
  obtain rfl : i = 0 := by omega
  decide +kernel

/-- Finite operands below the overflow threshold, exactly on it, and on it with the sign changed: 55831 * 601 = 2^25 - 1. -/
theorem witness_FmaRoundsOnceToNearestEven :
    ([0x7F7FFFFF#32, 0x3F800000#32, 0x00000000#32, 0x60DA1700#32, 0x5E164000#32, 0xDE164000#32].all fFinite = true) ∧
    |fExact 0x7F7FFFFF#32 0x3F800000#32 0#32| < (2 ^ 25 - 1) * 2 ^ 401 ∧
    fExact 0x60DA1700#32 0x5E164000#32 0#32 = (2 ^ 25 - 1) * 2 ^ 401 ∧
    fExact 0x60DA1700#32 0xDE164000#32 0#32 = -((2 ^ 25 - 1) * 2 ^ 401) := by
  refine ⟨by decide +kernel, abs_lt.mpr ⟨by decide +kernel, by decide +kernel⟩, by decide +kernel, by decide +kernel⟩

/-- A NaN; infinity times zero; infinities of opposite sign; an infinite product; an infinite addend; exact zeros. -/
theorem witness_FmaSpecialCases :
    fIsNan 0xFFC00001#32 = true ∧ (fIsInf 0x7F800000#32 = true ∧ fIsZero 0x80000000#32 = true) ∧
    (fIsInf 0xFF800000#32 = true ∧ fSign 0xFF800000#32 ≠ (fSign 0x7F800000#32 != fSign 0x3F800000#32)) ∧
    (fIsNan 0x3F800000#32 = false ∧ fIsZero 0x3F800000#32 = false ∧ fIsZero 0x7F800000#32 = false ∧
      fIsNan 0x7F800000#32 = false ∧ fIsInf 0x3F800000#32 = false) ∧
    (fFinite 0x3F800000#32 = true ∧ fFinite 0x80000000#32 = true) ∧
    fExact 0xBF800000#32 0x00000000#32 0x80000000#32 = 0 ∧ fExact 0x3F800000#32 0x3F800000#32 0xBF800000#32 = 0 := by
  decide +kernel

/-- Each case of the clamp, at equal bounds and zeros where it has them. -/
theorem witness_FloatClampCases :
    fIsNan 0x7FC00000#32 = true ∧ fLess 0xBF800000#32 0x3F800000#32 = true ∧ fIsNan 0x3F800000#32 = false ∧
    fLess 0xBF800000#32 0#32 = true ∧ fLess 0#32 0x3F800000#32 = true ∧ fLess 0x80000000#32 0#32 = false := by
  decide +kernel

theorem witness_FloatIgnoresIntegerRegisters :
    DescReg.lhsZp ∈ [DescReg.lhsZp, .rhsZp, .dstZp, .prodZpDepth, .multFp, .multExp] ∧
      (∃ t, exec (.gemmFF32 biasOnly) (small [0, 0, 0x20, 0x40] 0 0 0xFF800000 0x7F800000) = .next t) ∧
      allFlags.perch = true :=
  ⟨by decide, exists_next (by decide +kernel), rfl⟩

theorem witness_EngineStepsRefineCommand :
    (Instr.gemmQI8 biasOnly).latch = some latch1 ∧ (Instr.gemmQI8 biasOnly).wellFormed = true ∧
      idle1.status.busy = false ∧ idle1.startCheck latch1 = none ∧ (idle1.contractStop latch1).isNone = true := by
  decide +kernel

/-- A command that runs; a running engine that can move and one whose packed LHS lacks a byte, each alone and at its turn; and
the idle block. -/
theorem witness_CommandEndsInFiniteSteps :
    idle1.runs latch1 = true ∧ idle1.inputs = [] ∧ idle1.status.busy = false ∧
    (∀ is ∈ [[], [Input.engine]],
      (let s := given busy1 is
       s.inputs = is ∧ s.status.busy = true ∧ s.engineStep?.isSome = true) ∧
      (let s := { given busy1 is with mem := busy1.mem.drop 1, engine := { busy1.engine with phase := .depth } }
       s.inputs = is ∧ s.status.busy = true ∧ s.engineStep?.isNone = true)) := by decide +kernel

theorem witness_DescriptorIsImmutableWhileBusy :
    busy1.status.busy = true ∧ (∃ t, step busy1 = .next t) ∧ ∀ rest, busy1.inputs ≠ .reset :: rest :=
  ⟨rfl, exists_next (by decide +kernel), fun _ => nofun⟩

/-- The only element the small command writes. -/
theorem busy1_writes {i j : Nat} (h : busy1.writes i j) : i = 0 ∧ j = 0 := by
  obtain ⟨⟨_, hi⟩, _, hj⟩ := h
  have h1 : min (busy1.nreg .startRow + 8 * busy1.rowBlocks) (busy1.nreg .dstRows) = 1 := by decide +kernel
  have h2 : min (busy1.nreg .startCol + 8 * busy1.colBlocks) (busy1.nreg .dstCols) = 1 := by decide +kernel
  omega

/-- The destination element while BUSY; and other reads: the destination of the idle block, and, while BUSY, the four bytes just
before the destination and the three just after it. -/
theorem witness_BusyReadSeesOldOrNew :
    (let s := given busy1 [.read 1 84 1]
     s.Inv ∧ s.status.busy = true ∧ s.writes 0 0 ∧ s.dstAddr s.engine.latch.kernel 0 0 = 84 ∧
      s.engine.latch.kernel.elemSize = 1 ∧ s.mem.covers 84 1 = true ∧ s.aliases s.engine.latch = false ∧
      s.footprintsExist s.engine.latch = true) ∧
    (idle1.params.deviceRegions = [] ∧ 88 ≤ idle1.params.base ∧ idle1.mem.covers 84 4 = true ∧
      idle1.status.busy = false) ∧
    (busy1.mem.covers 80 4 = true ∧ busy1.mem.covers 85 3 = true ∧ ∀ i j, busy1.writes i j → ∀ a, a < 84 ∨ 85 ≤ a →
      inInterval ⟨busy1.dstAddr busy1.engine.latch.kernel i j, busy1.engine.latch.kernel.elemSize⟩ a = false) := by
  refine ⟨⟨busy1_inv _, rfl, by decide +kernel, by decide +kernel, rfl, by decide +kernel, by decide +kernel,
    by decide +kernel⟩, by decide +kernel, by decide +kernel, by decide +kernel, ?_⟩
  intro i j h a ha
  obtain ⟨rfl, rfl⟩ := busy1_writes h
  have ht : (⟨busy1.dstAddr busy1.engine.latch.kernel 0 0, busy1.engine.latch.kernel.elemSize⟩ : Interval) = ⟨84, 1⟩ := by
    decide +kernel
  rw [ht]
  simp [inInterval]
  omega

/-- Bytes 83 and 84, of which only the last is the destination; bytes 0 to 3 of packed LHS; bytes 85 to 87, which are in neither
footprint; and packed LHS of the idle block. -/
theorem witness_BusyWriteToFootprintIsRefused :
    busy1.status.busy = true ∧ idle1.status.busy = false ∧ idle1.mem.covers 0 4 = true ∧
    busy1.params.deviceRegions = [] ∧ 88 ≤ busy1.params.base ∧
    (∀ p ∈ [(83, 2), (0, 4)], 0 < p.2 ∧ busy1.mem.covers p.1 p.2 = true ∧
      ∃ iv ∈ busy1.readFootprint busy1.engine.latch ++ busy1.writeFootprint busy1.engine.latch,
        inInterval iv (p.1 + p.2 - 1) = true) ∧
    (∀ iv ∈ busy1.writeFootprint busy1.engine.latch, inInterval iv 83 = false) ∧
    (busy1.mem.covers 85 3 = true ∧
      ∀ iv ∈ busy1.readFootprint busy1.engine.latch ++ busy1.writeFootprint busy1.engine.latch,
        ∀ a ∈ [85, 86, 87], inInterval iv a = false) := by decide +kernel

theorem witness_MemoryIsLittleEndian : idle1.mem.covers 84 4 = true := by decide +kernel

theorem witness_StepKeepsInvariant : busy1.Inv ∧ ∃ t, step busy1 = .next t :=
  ⟨busy1_inv [], exists_next (by decide +kernel)⟩

end Sys2Proof.Tests
end

section
/-! The register window as a bus access sees it (10_state.md section 1): what an access reaches, which register an offset
names, what a step that reads or writes a register does, and the bits of the words. -/

namespace Sys2Proof.Machine

/-! ### Which register an offset names (R100, R102) -/

/-- Descriptor registers stand at the aligned offsets from 0x020 to 0x0A4. -/
theorem DescReg.offset_range (r : DescReg) : 0x020 ≤ r.offset ∧ r.offset ≤ 0x0A4 ∧ r.offset % 4 = 0 := by
  cases r <;> decide

theorem DescReg.offset_lt (r : DescReg) : r.offset < 256 := by
  have := r.offset_range
  omega

theorem DescReg.offset_aligned (r : DescReg) : r.offset % 4 = 0 := r.offset_range.2.2

@[simp] theorem regAt_descOffset (r : DescReg) : regAt r.offset = .desc r := by
  cases r <;> rfl

/-- No descriptor register stands below 0x020 or above 0x0A4, so the table's search finds none there. -/
theorem regAt_reserved {offset : Nat} (h : offset = 0x01C ∨ 0x0A8 ≤ offset) : regAt offset = .reserved := by
  have hnone : DescReg.list.find? (fun r => r.offset == offset) = none := by
    rw [List.find?_eq_none]
    intro r _ heq
    have hrange := r.offset_range
    have : r.offset = offset := by simpa using heq
    omega
  unfold regAt
  rw [hnone]
  repeat rw [if_neg (by omega)]

/-! ### What a bad access reaches (R101) -/

/-- An access that touches the window reaches no register unless it is 32-bit and aligned: the base is 256-byte aligned
(R100), so an unaligned address has an unaligned offset. -/
theorem State.target_badRegister (s : State) {addr n : Nat} (hlo : addr < s.params.base + 256)
    (hhi : s.params.base < addr + n) (hpos : 0 < n) (hbad : n ≠ 4 ∨ addr % 4 ≠ 0) :
    s.target addr n = .badRegister := by
  have hmeets : disjoint ⟨addr, n⟩ s.params.window = false := by
    unfold disjoint Params.window
    simp only [Bool.or_eq_false_iff, beq_eq_false_iff_ne, decide_eq_false_iff_not]
    omega
  have hnot : ¬ (s.params.base ≤ addr ∧ n = 4 ∧ (addr - s.params.base) % 4 = 0) := by
    have hbase : s.params.base % 256 = 0 := Nat.mul_mod_right _ _
    omega
  simp [State.target, hmeets, hnot]

/-! ### A step at the window -/

@[simp] theorem State.readReg_inputs (s : State) (is : List Input) (r : RegName) :
    State.readReg { s with inputs := is } r = s.readReg r := by
  cases r <;> rfl

/-- A bus read of a register returns its value and changes nothing else. -/
theorem State.busRead_register (s : State) {offset : Nat} (hlt : offset < 256) (h4 : offset % 4 = 0) :
    s.busRead (s.params.base + offset) 4 = .next { s with busData := (s.readReg (regAt offset)).toNat } := by
  simp only [State.busRead, s.target_register hlt h4]

/-- A word written to CMD by an agent that may write. -/
theorem State.busWrite_cmd {s : State} {agent : Nat} (hf : s.foreign agent = false) (v : Nat) :
    s.busWrite agent (s.params.base + 0x008) 4 v = .command (BitVec.ofNat 32 v) := by
  simp [State.busWrite, s.target_register (offset := 0x008), hf, regAt]

/-- A write of another register by an agent that may write is that register's own. -/
theorem State.busWrite_register {s : State} {agent offset : Nat} {r : RegName} (hf : s.foreign agent = false)
    (hlt : offset < 256) (h4 : offset % 4 = 0) (hr : regAt offset = r) (hcmd : r ≠ .cmd) (v : Nat) :
    s.busWrite agent (s.params.base + offset) 4 v = .done (.next (s.writeReg agent (BitVec.ofNat 32 v) r)) := by
  unfold State.busWrite
  rw [s.target_register hlt h4]
  cases r with
  | cmd => exact absurd rfl hcmd
  | _ => simp only [hf, hr, Bool.false_eq_true, if_false]

section
variable {s : State} {agent offset v : Nat} {rest : List Input}

/-- A step that reads a register puts its value on the bus and changes nothing else. -/
theorem step_readRegister (hin : s.inputs = .read agent (s.params.base + offset) 4 :: rest) (hlt : offset < 256)
    (h4 : offset % 4 = 0) :
    step s = .next { s with inputs := rest, busData := (s.readReg (regAt offset)).toNat } := by
  have hbus := State.busRead_register { s with inputs := rest } hlt h4
  simpa only [step, hin, State.take, State.readReg_inputs] using hbus

/-- A step that writes CMD, for any word and BUSY or not. -/
theorem step_writeCmd (hin : s.inputs = .write agent (s.params.base + 0x008) 4 v :: rest)
    (hf : s.foreign agent = false) :
    step s = State.cmdWrite { s with inputs := rest } (BitVec.ofNat 32 v) exec := by
  have hbus := State.busWrite_cmd (s := { s with inputs := rest }) hf v
  simp only [step, hin, State.take, hbus]

/-- A step that writes another register than CMD. -/
theorem step_writeRegister {r : RegName} (hin : s.inputs = .write agent (s.params.base + offset) 4 v :: rest)
    (hf : s.foreign agent = false) (hlt : offset < 256) (h4 : offset % 4 = 0) (hr : regAt offset = r)
    (hcmd : r ≠ .cmd) :
    step s = .next (State.writeReg { s with inputs := rest } agent (BitVec.ofNat 32 v) r) := by
  have hbus := State.busWrite_register (s := { s with inputs := rest }) hf hlt h4 hr hcmd v
  simp only [step, hin, State.take, hbus]

/-- A step that writes a descriptor register. -/
theorem step_writeDesc (r : DescReg) (hin : s.inputs = .write agent (s.params.base + r.offset) 4 v :: rest)
    (hf : s.foreign agent = false) :
    step s = .next (State.writeReg { s with inputs := rest } agent (BitVec.ofNat 32 v) (.desc r)) :=
  step_writeRegister hin hf r.offset_lt r.offset_aligned (regAt_descOffset r) nofun

end

/-- A CMD write while BUSY is dropped, whatever the word (R103). -/
theorem State.cmdWrite_busy {s : State} (hb : s.status.busy = true) (w : Word)
    (run : Instr → State → Host.Outcome State Fault Refusal) : s.cmdWrite w run = .next s.dropWrite := by
  simp [State.cmdWrite, hb]

theorem State.writeReg_desc_busy {s : State} (hb : s.status.busy = true) (agent : Nat) (v : Word) (r : DescReg) :
    s.writeReg agent v (.desc r) = s.dropWrite := by
  simp [State.writeReg, hb]

theorem State.writeReg_desc_idle {s : State} (hb : s.status.busy = false) (agent : Nat) (v : Word) (r : DescReg) :
    s.writeReg agent v (.desc r) = { s with desc := s.desc.set v r, owner := some agent } := by
  simp [State.writeReg, hb]

/-! ### The descriptor as a register file (R104) -/

/-- A written descriptor register reads the value written, every other one reads as before. -/
theorem Descriptor.get_set (d : Descriptor) (v : Word) (r r' : DescReg) :
    (d.set v r).get r' = if r' = r then v else d.get r' := by
  cases r <;> cases r' <;> rfl

@[simp] theorem Descriptor.get_zero (r : DescReg) : Descriptor.zero.get r = 0 := by
  cases r <;> rfl

/-- A descriptor write while idle is a write of one register of the whole window. -/
theorem State.readReg_writeReg_desc {s : State} (hb : s.status.busy = false) (agent : Nat) (v : Word) (r : DescReg)
    (n : RegName) : (s.writeReg agent v (.desc r)).readReg n = if n = .desc r then v else s.readReg n := by
  rw [State.writeReg_desc_idle hb]
  cases n with
  | desc r' => simp only [State.readReg, Descriptor.get_set, RegName.desc.injEq]
  | _ => rfl

/-! ### The bits of STATUS, IRQ_EN and ERR_CAUSE (R108 to R110) -/

/-- The bits above a small number are 0. -/
theorem getLsbD_eq_false_of_toNat_lt {w : Word} {k n : Nat} (h : w.toNat < 2 ^ k) (hkn : k ≤ n) : w.getLsbD n = false :=
  Nat.testBit_lt_two_pow (lt_of_lt_of_le h (Nat.pow_le_pow_right (by decide) hkn))

theorem Status.toWord_lt (s : Status) : s.toWord.toNat < 2 ^ 4 := by
  obtain ⟨busy, done, err, werr⟩ := s
  cases busy <;> cases done <;> cases err <;> cases werr <;> decide

theorem IrqEn.toWord_lt (e : IrqEn) : e.toWord.toNat < 2 ^ 4 := by
  obtain ⟨doneIe, errIe, werrIe⟩ := e
  cases doneIe <;> cases errIe <;> cases werrIe <;> decide

theorem Cause.toWord_lt (c : Cause) : c.toWord.toNat < 2 ^ 8 := by
  cases c <;> decide

/-- IRQ_EN's bits below its reserved range: bit 0 reads 0, the enables stand at bits 1 to 3 (R109). -/
theorem IrqEn.toWord_bits (e : IrqEn) :
    e.toWord.getLsbD 0 = false ∧ e.toWord.getLsbD 1 = e.doneIe ∧ e.toWord.getLsbD 2 = e.errIe ∧
      e.toWord.getLsbD 3 = e.werrIe := by
  obtain ⟨doneIe, errIe, werrIe⟩ := e
  cases doneIe <;> cases errIe <;> cases werrIe <;> decide

/-- What IRQ_EN reads after a write: bits 1 to 3 of the word (R109). -/
theorem IrqEn.getLsbD_toWord_ofWord (v : Word) (n : Nat) :
    (IrqEn.ofWord v).toWord.getLsbD n = (decide (1 ≤ n) && decide (n ≤ 3) && v.getLsbD n) := by
  obtain ⟨h0, h1, h2, h3⟩ := (IrqEn.ofWord v).toWord_bits
  match n with
  | 0 => exact h0
  | 1 => simpa [IrqEn.ofWord] using h1
  | 2 => simpa [IrqEn.ofWord] using h2
  | 3 => simpa [IrqEn.ofWord] using h3
  | n + 4 => simpa using getLsbD_eq_false_of_toNat_lt (IrqEn.ofWord v).toWord_lt (Nat.le_add_left 4 n)

/-- A STATUS write in the bits of the number on the bus (R108). -/
theorem Status.write_ofNat (s : Status) (v : Nat) :
    s.write (BitVec.ofNat 32 v) =
      ⟨s.busy, s.done && !v.testBit 1, s.err && !v.testBit 2, s.werr && !v.testBit 3⟩ := by
  simp only [Status.write, BitVec.getLsbD_ofNat]
  rfl

/-- What IRQ_EN reads after a write, in the bits of the number on the bus (R109). -/
theorem IrqEn.getLsbD_toWord_ofNat (v n : Nat) :
    (IrqEn.ofWord (BitVec.ofNat 32 v)).toWord.getLsbD n = (decide (1 ≤ n) && decide (n ≤ 3) && v.testBit n) := by
  rw [IrqEn.getLsbD_toWord_ofWord, BitVec.getLsbD_ofNat]
  by_cases hn : n ≤ 3
  · rw [decide_eq_true (show n < 32 by omega), Bool.true_and]
  · simp [hn]

/-- A STATUS write looks at bits 1 to 3 of the word alone (R108). -/
theorem Status.write_congr (s : Status) {v v' : Word} (h : ∀ n, 1 ≤ n → n ≤ 3 → v.getLsbD n = v'.getLsbD n) :
    s.write v = s.write v' := by
  simp only [Status.write, h 1, h 2, h 3, Nat.reduceLeDiff]

/-- An IRQ_EN write looks at bits 1 to 3 of the word alone (R109). -/
theorem IrqEn.ofWord_congr {v v' : Word} (h : ∀ n, 1 ≤ n → n ≤ 3 → v.getLsbD n = v'.getLsbD n) :
    IrqEn.ofWord v = IrqEn.ofWord v' := by
  simp only [IrqEn.ofWord, h 1, h 2, h 3, Nat.reduceLeDiff]

end Sys2Proof.Machine
end

section
/-! The statements about 10_state.md section 1: O8, O10, O11, O12, O15 and O18. -/

namespace Sys2Proof.Machine

/-- Settles O8: a busy write to CMD or the descriptor is `State.dropWrite`; STATUS and IRQ_EN do not ask for BUSY. -/
theorem busyWritesAreDropped : Obligations.BusyWritesAreDropped := by
  intro s agent v rest hb hf
  refine ⟨fun hin => ?cmd, fun r hin => ?desc, fun hin => ?status, fun hin => ?irqEn⟩
  case cmd =>
    rw [step_writeCmd hin hf, State.cmdWrite_busy (s := { s with inputs := rest }) hb]
    rfl
  case desc =>
    rw [step_writeDesc r hin hf, State.writeReg_desc_busy (s := { s with inputs := rest }) hb]
    rfl
  case status =>
    rw [step_writeRegister hin hf (r := .status) (by decide) (by decide) rfl nofun]
    simp only [State.writeReg, Status.write_ofNat, hb]
  case irqEn =>
    exact ⟨_, step_writeRegister hin hf (r := .irqEn) (by decide) (by decide) rfl nofun, rfl,
      IrqEn.getLsbD_toWord_ofNat v⟩

/-- Settles O10, by what a descriptor write leaves in every register of the window. -/
theorem descriptorWriteThenRead : Obligations.DescriptorWriteThenRead := by
  intro s agent v rest r
  refine ⟨fun hin hf hb => ?write, fun hin => ?read⟩
  case write =>
    have hwrite := State.readReg_writeReg_desc (s := { s with inputs := rest }) hb agent v r
    refine ⟨State.writeReg { s with inputs := rest } agent v (.desc r), ?_, ?_, fun n hn => ?_, ?_, ?_⟩
    · simpa using step_writeDesc r hin hf
    · simpa using hwrite (.desc r)
    · simpa [hn] using hwrite n
    · rw [State.writeReg_desc_idle (s := { s with inputs := rest }) hb]
    · rw [State.writeReg_desc_idle (s := { s with inputs := rest }) hb]
  case read =>
    simpa using step_readRegister hin r.offset_lt r.offset_aligned

/-- Settles O12: the offsets name the reserved register, the words stay below their reserved bits, and a write looks at
bits 1 to 3 alone. -/
theorem reservedSpaceIsInert : Obligations.ReservedSpaceIsInert := by
  refine ⟨fun s agent v offset rest h4 hoff => ?offsets, fun s n => ?bits, fun s agent v v' h => ?writes⟩
  case offsets =>
    have hres : regAt offset = .reserved := regAt_reserved (by omega)
    have hlt : offset < 256 := by omega
    refine ⟨fun hin => ?_, fun hf hin => step_writeRegister hin hf hlt h4 hres nofun⟩
    rw [step_readRegister hin hlt h4, hres]
    rfl
  case bits =>
    refine ⟨getLsbD_eq_false_of_toNat_lt s.status.toWord_lt, ?_, getLsbD_eq_false_of_toNat_lt s.errCause.toWord_lt⟩
    rintro (rfl | hn)
    · exact s.irqEn.toWord_bits.1
    · exact getLsbD_eq_false_of_toNat_lt s.irqEn.toWord_lt hn
  case writes =>
    refine ⟨?_, ?_, rfl⟩
    · simp only [State.writeReg, s.status.write_congr h]
    · simp only [State.writeReg, IrqEn.ofWord_congr h]

/-- Settles O11: `State.readReg` gives the constants and `State.writeReg` ignores the four registers. -/
theorem identificationIsReadOnly : Obligations.IdentificationIsReadOnly := by
  intro s agent v rest
  refine ⟨fun hin => step_readRegister hin (by decide) (by decide),
    fun hin => step_readRegister hin (by decide) (by decide), fun hf => ?_⟩
  rintro (hin | hin | hin | hin)
  · exact step_writeRegister hin hf (r := .id) (by decide) (by decide) rfl nofun
  · exact step_writeRegister hin hf (r := .version) (by decide) (by decide) rfl nofun
  · exact step_writeRegister hin hf (r := .errCause) (by decide) (by decide) rfl nofun
  · exact step_writeRegister hin hf (r := .errInfo) (by decide) (by decide) rfl nofun

/-- Settles O15: such an access reaches `Target.badRegister`, which both bus accesses refuse. -/
theorem registerAccessIsAlignedWord : Obligations.RegisterAccessIsAlignedWord := by
  intro s agent addr n v rest hlo hhi hpos hbad
  have htarget : State.target { s with inputs := rest } addr n = .badRegister :=
    State.target_badRegister _ hlo hhi hpos hbad
  refine ⟨fun hin => ?write, fun hin => ?read⟩
  case write => simp only [step, hin, State.take, State.busWrite, htarget]
  case read => simp only [step, hin, State.take, State.busRead, htarget]

/-- Settles O18, register by register. -/
theorem resetStateReadsResetValues : Obligations.ResetStateReadsResetValues := by
  refine ⟨fun n => ?_, rfl, rfl⟩
  cases n with
  | desc r => exact Descriptor.get_zero r
  | _ => rfl

end Sys2Proof.Machine
end

section
/-! The statement about 20_memory.md's MemRead and MemWrite: O58. -/

namespace Sys2Proof.Machine

/-- MemRead is the sum of its bytes, the byte at the lowest address lowest (R203). Peeling that byte leaves the sum over
the rest, each weight a factor 2^8 larger. -/
theorem Memory.read?_eq_sum (m : Memory) (n : Nat) : ∀ addr : Nat, m.covers addr n = true →
    m.read? addr n = some ((List.range n).map fun k => ((m.byte? (addr + k)).getD 0).toNat * 2 ^ (8 * k)).sum := by
  induction n with
  | zero => intro addr _; rfl
  | succ n ih =>
    intro addr h
    rw [Memory.covers, Bool.and_eq_true] at h
    obtain ⟨hlow, hrest⟩ := h
    obtain ⟨b, hb⟩ := Option.isSome_iff_exists.mp hlow
    have hweight (k : Nat) : ((m.byte? (addr + (k + 1))).getD 0).toNat * 2 ^ (8 * (k + 1)) =
        256 * (((m.byte? (addr + 1 + k)).getD 0).toNat * 2 ^ (8 * k)) := by
      rw [show addr + (k + 1) = addr + 1 + k by omega]
      ring
    simp only [Memory.read?, hb, ih (addr + 1) hrest, List.range_succ_eq_map, List.map_cons, List.map_map, List.sum_cons,
      Function.comp_def, Nat.succ_eq_add_one, hweight, List.sum_map_mul_left]
    simp [hb]

/-- Settles O58: MemRead is the sum of its bytes, a write reads back, and a byte outside the written ones keeps its value. -/
theorem memoryIsLittleEndian : Obligations.MemoryIsLittleEndian := by
  refine ⟨fun m a n h => m.read?_eq_sum n a h, fun m a n v h => ⟨?readBack, fun x hx => m.byte?_write_ne n a v x hx⟩⟩
  case readBack => rw [Memory.read?_write n m a v h, Nat.pow_mul]

end Sys2Proof.Machine
end

section
/-! The command word (30_encoding.md): its fields as numbers, an equation for every end of the decoder, what a decoded word
is, and which words select a row of R303's table. -/

namespace Sys2Proof

/-! ### The fields of a word as numbers (R301) -/

theorem toNat_opField (w : Word) : (opField w).toNat = w.toNat % 16 := by
  simp [opField]

theorem toNat_dstField (w : Word) : (dstField w).toNat = w.toNat / 16 % 16 := by
  simp [dstField, Nat.shiftRight_eq_div_pow]

theorem toNat_reservedField (w : Word) : (reservedField w).toNat = w.toNat / 2 ^ 12 := by
  have := w.isLt
  rw [reservedField, BitVec.extractLsb'_toNat, Nat.shiftRight_eq_div_pow]
  omega

/-- The DST field in the form R305's numbers give it. -/
theorem dstField_eq_ofNat (w : Word) : dstField w = BitVec.ofNat 4 (w.toNat / 16) :=
  BitVec.eq_of_toNat_eq (by rw [toNat_dstField, BitVec.toNat_ofNat])

theorem reservedField_eq_zero_iff (w : Word) : reservedField w = 0#20 ↔ w.toNat / 2 ^ 12 = 0 := by
  rw [← BitVec.toNat_inj, toNat_reservedField]
  rfl

/-- The encoder's flag bits are the word's bits 11:8. -/
theorem encodeFlags_flagsField (w : Word) : encodeFlags (flagsField w) = 256 * (w.toNat / 256 % 16) := by
  simp only [encodeFlags, flagsField, flagBit, BitVec.getLsbD, Nat.testBit_eq_decide_div_mod_eq, decide_eq_true_eq]
  split_ifs <;> omega

/-- GEMM_F's forbidden flags are bits 11:9 (R301, R305), as a number. -/
theorem floatLegal_flagsField_iff_toNat (w : Word) :
    (flagsField w).floatLegal = true ↔ w.toNat / 2 ^ 9 % 2 ^ 3 = 0 := by
  simp only [Flags.floatLegal, flagsField, BitVec.getLsbD, Nat.testBit_eq_decide_div_mod_eq, Bool.and_eq_true,
    Bool.not_eq_true', decide_eq_false_iff_not]
  omega

/-- GEMM_F's forbidden flags as the field the decoder tests. -/
theorem floatLegal_flagsField (w : Word) : (flagsField w).floatLegal = true ↔ w.extractLsb' 9 3 = 0#3 := by
  rw [floatLegal_flagsField_iff_toNat, ← BitVec.toNat_inj, BitVec.extractLsb'_toNat, Nat.shiftRight_eq_div_pow]
  rfl

/-! ### The decoder's ends, one equation each (R305) -/

/-- The DST code of a destination type (R301). -/
def QDst.code : QDst → BitVec 4
  | .u8 => 1#4
  | .i8 => 2#4
  | .i16 => 3#4
  | .i32 => 4#4

theorem QDst.exists_code_iff (b : BitVec 4) : (∃ d : QDst, b = d.code) ↔ 1 ≤ b.toNat ∧ b.toNat ≤ 4 := by
  constructor
  · rintro ⟨d, rfl⟩
    cases d <;> decide
  · rintro ⟨hlo, hhi⟩
    obtain h | h | h | h : b = 1#4 ∨ b = 2#4 ∨ b = 3#4 ∨ b = 4#4 := by bv_omega
    · exact ⟨.u8, h⟩
    · exact ⟨.i8, h⟩
    · exact ⟨.i16, h⟩
    · exact ⟨.i32, h⟩

theorem decode_zero : decode 0#32 = .ok .nop := rfl

theorem decode_reserved {w : Word} (h : reservedField w ≠ 0#20) : decode w = .error (.illegalCmd w) := by
  simp [decode, h]

section
variable {w : Word} (hr : reservedField w = 0#20)
include hr

theorem decode_op_outside (hop : 3 ≤ (opField w).toNat) : decode w = .error (.illegalCmd w) := by
  have h (n : Nat) (hn : n < 3) : opField w ≠ BitVec.ofNat 4 n := by
    rintro he
    rw [he, BitVec.toNat_ofNat] at hop
    omega
  simp [decode, hr, h 0, h 1, h 2]

theorem decode_nop_extra (hop : opField w = 0#4) (hw : w ≠ 0#32) : decode w = .error (.illegalCmd w) := by
  have h : w.extractLsb' 4 8 ≠ 0#8 := by
    intro hmid
    have hhigh := (reservedField_eq_zero_iff w).mp hr
    have hlow := toNat_opField w
    rw [hop] at hlow
    rw [← BitVec.toNat_inj, BitVec.extractLsb'_toNat, Nat.shiftRight_eq_div_pow] at hmid
    bv_omega
  simp [decode, hr, hop, h]

theorem decode_quant (hop : opField w = 1#4) {d : QDst} (hd : dstField w = d.code) :
    decode w = .ok (Machine.quantInstr d (flagsField w)) := by
  cases d <;> simp [decode, hr, hop, hd, QDst.code, Machine.quantInstr]

theorem decode_quant_dst (hop : opField w = 1#4) (hd : ∀ d : QDst, dstField w ≠ d.code) :
    decode w = .error (.illegalDstType (dstField w)) := by
  have h1 := hd .u8
  have h2 := hd .i8
  have h3 := hd .i16
  have h4 := hd .i32
  simp only [QDst.code] at h1 h2 h3 h4
  simp [decode, hr, hop, h1, h2, h3, h4]

theorem decode_float_flags (hop : opField w = 2#4) (hf : (flagsField w).floatLegal = false) :
    decode w = .error (.illegalCmd w) := by
  have : w.extractLsb' 9 3 ≠ 0#3 := fun h => by simp [(floatLegal_flagsField w).mpr h] at hf
  simp [decode, hr, hop, this]

theorem decode_float_dst (hop : opField w = 2#4) (hf : (flagsField w).floatLegal = true) (hd : dstField w ≠ 0#4) :
    decode w = .error (.illegalDstType (dstField w)) := by
  simp [decode, hr, hop, (floatLegal_flagsField w).mp hf, hd]

theorem decode_float (hop : opField w = 2#4) (hf : (flagsField w).floatLegal = true) (hd : dstField w = 0#4) :
    decode w = .ok (.gemmFF32 (flagsField w)) := by
  simp [decode, hr, hop, (floatLegal_flagsField w).mp hf, hd]

end

/-- A word is one of the commands, each with the fields it is read from, or is rejected with itself or with its DST. -/
theorem decode_cases (w : Word) :
    (w = 0#32 ∧ decode w = .ok .nop) ∨
    (reservedField w = 0#20 ∧ opField w = 1#4 ∧
      ∃ d : QDst, dstField w = d.code ∧ decode w = .ok (Machine.quantInstr d (flagsField w))) ∨
    (reservedField w = 0#20 ∧ opField w = 2#4 ∧ dstField w = 0#4 ∧ (flagsField w).floatLegal = true ∧
      decode w = .ok (.gemmFF32 (flagsField w))) ∨
    decode w = .error (.illegalCmd w) ∨ decode w = .error (.illegalDstType (dstField w)) := by
  by_cases hr : reservedField w = 0#20
  case neg => simp [decode_reserved hr]
  obtain hop | hop | hop | hop : opField w = 0#4 ∨ opField w = 1#4 ∨ opField w = 2#4 ∨ 3 ≤ (opField w).toNat := by
    bv_omega
  · by_cases hw : w = 0#32
    · exact .inl ⟨hw, hw ▸ decode_zero⟩
    · simp [decode_nop_extra hr hop hw]
  · by_cases hd : ∃ d : QDst, dstField w = d.code
    · obtain ⟨d, hd⟩ := hd
      exact .inr (.inl ⟨hr, hop, d, hd, decode_quant hr hop hd⟩)
    · simp [decode_quant_dst hr hop (not_exists.mp hd)]
  · cases hf : (flagsField w).floatLegal
    · simp [decode_float_flags hr hop hf]
    · by_cases hd : dstField w = 0#4
      · exact .inr (.inr (.inl ⟨hr, hop, hd, rfl, decode_float hr hop hf hd⟩))
      · simp [decode_float_dst hr hop hf hd]
  · simp [decode_op_outside hr hop]

/-- A rejection carries the word or its DST field (R304). -/
theorem decode_error {w : Word} {e : DecodeError} (h : decode w = .error e) :
    e = .illegalCmd w ∨ e = .illegalDstType (dstField w) := by
  obtain ⟨-, hd⟩ | ⟨-, -, _, -, hd⟩ | ⟨-, -, -, -, hd⟩ | hd | hd := decode_cases w
  all_goals
    rw [h] at hd
    cases hd
  · exact .inl rfl
  · exact .inr rfl

/-! ### The word of a command (R301, R303) -/

theorem encode_quantInstr (d : QDst) (f : Flags) :
    encode (Machine.quantInstr d f) = BitVec.ofNat 32 (1 + 16 * d.code.toNat + encodeFlags f) := by
  cases d <;> rfl

/-- A word that decodes is the well-formed command's own. -/
theorem encode_of_decode {w : Word} {i : Instr} (h : decode w = .ok i) : i.wellFormed = true ∧ encode i = w := by
  have hlt := w.isLt
  have hres := toNat_reservedField w
  have hopw := toNat_opField w
  have hdstw := toNat_dstField w
  obtain ⟨rfl, hd⟩ | ⟨hr, hop, d, hdst, hd⟩ | ⟨hr, hop, hdst, hf, hd⟩ | hd | hd := decode_cases w
  all_goals
    rw [h] at hd
    cases hd
  · decide
  · refine ⟨by cases d <;> rfl, BitVec.eq_of_toNat_eq ?_⟩
    rw [hr] at hres
    rw [hop] at hopw
    rw [encode_quantInstr, encodeFlags_flagsField, ← hdst]
    bv_omega
  · refine ⟨hf, BitVec.eq_of_toNat_eq ?_⟩
    rw [hr] at hres
    rw [hop] at hopw
    rw [hdst] at hdstw
    rw [encode, encodeFlags_flagsField]
    bv_omega

/-! ### The rows a word selects (R303) -/

/-- A field inside the mask is read off the masked word. -/
theorem extractLsb'_of_and_eq {w m p : Word} (h : w &&& m = p) (start len : Nat)
    (hm : m.extractLsb' start len = BitVec.allOnes len) : w.extractLsb' start len = p.extractLsb' start len := by
  rw [← h, BitVec.extractLsb'_and, hm, BitVec.and_allOnes]

/-- A word that selects the row of a GEMM_Q command decodes to that command with the word's own flags. -/
theorem decode_of_quantInstr_row_selects {d : QDst} {f : Flags} {w : Word}
    (h : (Machine.quantInstr d f).row.selects w = true) :
    decode w = .ok (Machine.quantInstr d (flagsField w)) := by
  have hw : w &&& 0xFFFFF0FF#32 = encode (Machine.quantInstr d .none) := by
    cases d <;> exact beq_iff_eq.mp h
  have hop : opField w = 1#4 := (extractLsb'_of_and_eq hw 0 4 (by decide)).trans (by cases d <;> decide)
  have hdst : dstField w = d.code := (extractLsb'_of_and_eq hw 4 4 (by decide)).trans (by cases d <;> decide)
  have hr : reservedField w = 0#20 := (extractLsb'_of_and_eq hw 12 20 (by decide)).trans (by cases d <;> decide)
  exact decode_quant hr hop hdst

/-- A word that selects a command's row decodes to a command of that row. -/
theorem decode_of_row_selects {i : Instr} {w : Word} (h : i.row.selects w = true) :
    ∃ j, decode w = .ok j ∧ j.row = i.row := by
  cases i with
  | nop =>
    have hw : w &&& BitVec.allOnes 32 = 0#32 := beq_iff_eq.mp h
    rw [BitVec.and_allOnes] at hw
    exact ⟨.nop, hw ▸ decode_zero, rfl⟩
  | gemmQU8 f => exact ⟨_, decode_of_quantInstr_row_selects (d := .u8) (f := f) h, rfl⟩
  | gemmQI8 f => exact ⟨_, decode_of_quantInstr_row_selects (d := .i8) (f := f) h, rfl⟩
  | gemmQI16 f => exact ⟨_, decode_of_quantInstr_row_selects (d := .i16) (f := f) h, rfl⟩
  | gemmQI32 f => exact ⟨_, decode_of_quantInstr_row_selects (d := .i32) (f := f) h, rfl⟩
  | gemmFF32 f =>
    have hw : w &&& 0xFFFFFEFF#32 = 0x00000002#32 := beq_iff_eq.mp h
    have hop : opField w = 2#4 := (extractLsb'_of_and_eq hw 0 4 (by decide)).trans (by decide)
    have hdst : dstField w = 0#4 := (extractLsb'_of_and_eq hw 4 4 (by decide)).trans (by decide)
    have hf : w.extractLsb' 9 3 = 0#3 := (extractLsb'_of_and_eq hw 9 3 (by decide)).trans (by decide)
    have hr : reservedField w = 0#20 := (extractLsb'_of_and_eq hw 12 20 (by decide)).trans (by decide)
    exact ⟨_, decode_float hr hop ((floatLegal_flagsField w).mpr hf) hdst, rfl⟩

/-- The table's facts about one command, for all of them. -/
theorem tableRow_statement (i : Instr) : Laws.TableRow.Statement i := by
  cases i with
  | nop => exact Laws.TableRow.nop
  | gemmQU8 f => exact Laws.TableRow.gemmQU8 f
  | gemmQI8 f => exact Laws.TableRow.gemmQI8 f
  | gemmQI16 f => exact Laws.TableRow.gemmQI16 f
  | gemmQI32 f => exact Laws.TableRow.gemmQI32 f
  | gemmFF32 f => exact Laws.TableRow.gemmFF32 f

/-- A word that decodes selects the row of the command it decodes to. -/
theorem row_selects_of_decode {w : Word} {i : Instr} (h : decode w = .ok i) :
    i.row ∈ opcodeRows ∧ i.row.selects w = true := by
  obtain ⟨hwf, rfl⟩ := encode_of_decode h
  obtain ⟨hmem, -, hsel⟩ := tableRow_statement i
  exact ⟨hmem, hsel hwf⟩

/-- The row that a word selects is that of the command it decodes to. -/
theorem decode_of_selects {row : OpcodeRow} (hrow : row ∈ opcodeRows) {w : Word} (h : row.selects w = true) :
    ∃ i, decode w = .ok i ∧ i.row = row := by
  obtain ⟨i, -, rfl⟩ := List.mem_map.mp hrow
  exact decode_of_row_selects h

/-- A word that selects no row is rejected. -/
theorem exists_decode_error {w : Word} (h : ∀ row ∈ opcodeRows, row.selects w = false) :
    ∃ e, decode w = .error e := by
  cases hd : decode w with
  | error e => exact ⟨e, rfl⟩
  | ok i =>
    obtain ⟨hmem, hsel⟩ := row_selects_of_decode hd
    simp [h _ hmem] at hsel

end Sys2Proof

namespace Sys2Proof.Machine

/-- A CMD write of a word that is rejected, while idle (R304). -/
theorem State.cmdWrite_error {s : State} (hb : s.status.busy = false) {w : Word} {e : DecodeError}
    (he : decode w = .error e) (run : Instr → State → Host.Outcome State Fault Refusal) :
    s.cmdWrite w run = .next (State.rejectWord { s with owner := none } e) := by
  simp [State.cmdWrite, hb, he]

end Sys2Proof.Machine
end

section
/-! The statements about 30_encoding.md: O1, O3, O4 and O7. -/

namespace Sys2Proof.Machine

/-- Settles O1, word by word. -/
theorem workedWordsDecode : Obligations.WorkedWordsDecode := by
  unfold Obligations.WorkedWordsDecode
  decide

/-- Settles O3: a decoded word is its command's, and the row it selects is that command's. -/
theorem validWordsAreTheTable : Obligations.ValidWordsAreTheTable := by
  refine ⟨fun w i h => encode_of_decode h, fun w => ⟨?_, ?_⟩, fun w i h row hrow => ⟨?_, ?_⟩⟩
  · rintro ⟨i, h⟩
    exact ⟨i.row, row_selects_of_decode h⟩
  · rintro ⟨row, hrow, hsel⟩
    obtain ⟨i, h, -⟩ := decode_of_selects hrow hsel
    exact ⟨i, h⟩
  · intro hsel
    obtain ⟨j, hj, rfl⟩ := decode_of_selects hrow hsel
    rw [h] at hj
    cases hj
    rfl
  · rintro rfl
    exact (row_selects_of_decode h).2

/-- Settles O4: R305's numeric tests are those of the fields, whose ends the decoder's equations give. -/
theorem rejectionOrder : Obligations.RejectionOrder := by
  intro w
  refine ⟨fun h => decode_reserved (mt (reservedField_eq_zero_iff w).mp h), fun h => ?_⟩
  have hr := (reservedField_eq_zero_iff w).mpr h
  have hop (n : Nat) (heq : w.toNat % 16 = n) : opField w = BitVec.ofNat 4 n := by
    rw [← heq, ← toNat_opField, BitVec.ofNat_toNat, BitVec.setWidth_eq]
  have hfloat : (flagsField w).floatLegal = true ↔ w.toNat / 2 ^ 9 = 0 := by
    rw [floatLegal_flagsField_iff_toNat]
    omega
  refine ⟨fun h3 => decode_op_outside hr (by rwa [toNat_opField]),
    fun h0 hne => decode_nop_extra hr (hop 0 h0) (by rintro rfl; exact hne rfl),
    fun h0 => ?nop,
    fun h2 hbits => decode_float_flags hr (hop 2 h2) (by simpa using mt hfloat.mp hbits),
    fun h1 hdst => ?quantDst, fun h2 hbits hdst => ?floatDst, fun h1 hlo hhi => ?quant, fun h2 hbits hdst => ?float⟩
  case nop =>
    obtain rfl : w = 0#32 := BitVec.eq_of_toNat_eq h0
    exact decode_zero
  case quantDst =>
    rw [← dstField_eq_ofNat]
    refine decode_quant_dst hr (hop 1 h1) (not_exists.mp ?_)
    rw [QDst.exists_code_iff, toNat_dstField]
    omega
  case floatDst =>
    rw [← dstField_eq_ofNat]
    refine decode_float_dst hr (hop 2 h2) (hfloat.mpr hbits) fun hd => hdst ?_
    rw [← toNat_dstField, hd]
    rfl
  case quant =>
    obtain ⟨d, hd⟩ := (QDst.exists_code_iff (dstField w)).mpr (by rw [toNat_dstField]; exact ⟨hlo, hhi⟩)
    exact ⟨d, _, decode_quant hr (hop 1 h1) hd⟩
  case float =>
    have hd : dstField w = 0#4 := BitVec.eq_of_toNat_eq (by rw [toNat_dstField, hdst]; rfl)
    exact ⟨_, decode_float hr (hop 2 h2) (hfloat.mpr hbits) hd⟩

/-- Settles O7: a word that selects no row does not decode, so `State.rejectWord` takes it. -/
theorem illegalWordEndsInError : Obligations.IllegalWordEndsInError := by
  intro s agent w rest hin hf
  have hstep : step s = State.cmdWrite { s with inputs := rest } w exec := by
    simpa using step_writeCmd hin hf
  refine ⟨fun hsel hb => ?illegal, fun hb => ?busy⟩
  case illegal =>
    obtain ⟨e, he⟩ := exists_decode_error hsel
    refine ⟨_, hstep.trans (State.cmdWrite_error (s := { s with inputs := rest }) hb he exec), rfl, rfl, rfl, rfl, rfl,
      ?_⟩
    rw [he]
    obtain rfl | rfl := decode_error he
    · exact .inl ⟨rfl, rfl, rfl⟩
    · exact .inr ⟨rfl, rfl, rfl⟩
  case busy => exact hstep.trans (State.cmdWrite_busy (s := { s with inputs := rest }) hb w exec)

end Sys2Proof.Machine
end

section
/-! What a GEMM command does on an idle block before its kernel runs: the start checks of R410 to R413, one equation per
end, and how a failed check, or none, shows in the command's answer. -/

namespace Sys2Proof.Machine

/-! ### A GEMM command on an idle block (R406, R1003) -/

/-- A well-formed GEMM command on an idle block is its kernel's command. -/
theorem exec_eq_runCommand {i : Instr} {l : Latch} {s : State} (hl : i.latch = some l) (hw : i.wellFormed = true)
    (hb : s.status.busy = false) : exec i s = s.runCommand l := by
  cases i with
  | nop => cases hl
  | gemmFF32 f =>
    cases hl
    have hf : f.floatLegal = true := hw
    simp [exec, execGemmFF32, hb, hf]
  | _ => cases hl; rfl

theorem State.runCommand_of_startCheck {s : State} {l : Latch} {c : Cause} {info : Word} (hb : s.status.busy = false)
    (h : s.startCheck l = some (c, info)) : s.runCommand l = .next ((s.accept l).raiseError c info) := by
  simp [State.runCommand, State.command, hb, h]

theorem Cause.toWord_eq_errorCode (c : Cause) : c.toWord = errorCode c := by
  cases c <;> rfl

/-- An accepted command that raises an error ends in it, with nothing else of the state changed (R1003). -/
theorem State.endsError_raiseError (s : State) (l : Latch) (c : Cause) (info : Word) :
    EndsError (.next ((s.accept l).raiseError c info)) s c info :=
  ⟨_, rfl, rfl, rfl, c.toWord_eq_errorCode, rfl, rfl, ⟨rfl, rfl, rfl, rfl, rfl, rfl, rfl⟩⟩

section
variable {i : Instr} {l : Latch} {s : State} (hl : i.latch = some l) (hw : i.wellFormed = true)
  (hb : s.status.busy = false)
include hl hw hb

/-- A failed start check is how the command ends. -/
theorem exec_endsError_of_startCheck {c : Cause} {info : Word} (h : s.startCheck l = some (c, info)) :
    EndsError (exec i s) s c info := by
  rw [exec_eq_runCommand hl hw hb, State.runCommand_of_startCheck hb h]
  exact s.endsError_raiseError l c info

/-- A command records no cause but that of its failed start check. -/
theorem exec_errCause_ne {c : Cause} (hne : c ≠ .none) (hc : ∀ info, s.startCheck l ≠ some (c, info)) {t : State}
    (h : exec i s = .next t) : t.errCause ≠ c := by
  rw [exec_eq_runCommand hl hw hb] at h
  rcases State.runCommand_next h with ⟨hbusy, -⟩ | ⟨-, c', info, hc', rfl⟩ | ⟨-, -, -, ws, -, rfl⟩
  · simp [hb] at hbusy
  · rintro rfl
    exact hc info hc'
  · exact hne.symm

end

/-! ### The start checks one by one (R410) -/

theorem State.startCheck_geometry {s : State} (hg : s.geometryMask ≠ 0) (l : Latch) :
    s.startCheck l = some (.badGeometry, BitVec.ofNat 32 s.geometryMask) := by
  simp [State.startCheck, hg]

theorem State.startCheck_depth {s : State} {l : Latch} (hg : s.geometryMask = 0) (hd : s.badDepth l.kernel = true) :
    s.startCheck l = some (.badDepth, s.desc.get .depth) := by
  simp [State.startCheck, hg, hd]

theorem State.startCheck_pointers {s : State} {l : Latch} (hg : s.geometryMask = 0) (hd : s.badDepth l.kernel = false) :
    s.startCheck l = (s.misaligned? l).map fun p => (.misaligned, BitVec.ofNat 32 p.lo.offset) := by
  simp only [State.startCheck, hg, hd]
  cases s.misaligned? l <;> simp

/-- BAD_GEOMETRY is reported by the geometry check alone. -/
theorem State.startCheck_ne_badGeometry {s : State} (hg : s.geometryMask = 0) (l : Latch) (info : Word) :
    s.startCheck l ≠ some (.badGeometry, info) := by
  cases hd : s.badDepth l.kernel with
  | true => simp [State.startCheck_depth hg hd]
  | false => simp [State.startCheck_pointers hg hd]

/-- BAD_DEPTH is reported by the depth check alone. -/
theorem State.startCheck_ne_badDepth {s : State} {l : Latch} (hg : s.geometryMask = 0)
    (hd : s.badDepth l.kernel = false) (info : Word) : s.startCheck l ≠ some (.badDepth, info) := by
  simp [State.startCheck_pointers hg hd]

/-! ### The geometry mask (R411) -/

@[simp] theorem bitAt_eq_zero_iff (b : Bool) (n : Nat) : bitAt b n = 0 ↔ b = false := by
  cases b <;> simp [bitAt]

theorem bitAt_eq_toNat_mul (b : Bool) (n : Nat) : bitAt b n = b.toNat * 2 ^ n := by
  cases b <;> simp [bitAt]

theorem State.geometryMask_eq_zero_iff (s : State) :
    s.geometryMask = 0 ↔
      0 ≤ s.sreg .startRow ∧ 0 ≤ s.sreg .startCol ∧ s.sreg .startRow ≤ s.sreg .lastRow ∧
        s.sreg .startCol ≤ s.sreg .lastCol ∧ s.sreg .lastRow < s.sreg .dstRows ∧
        s.sreg .lastCol < s.sreg .dstCols := by
  simp [State.geometryMask, and_assoc]

/-- R411's condition `n`. -/
def State.geometryFails (s : State) : Nat → Bool
  | 0 => decide (s.sreg .startRow < 0)
  | 1 => decide (s.sreg .startCol < 0)
  | 2 => decide (s.sreg .startRow > s.sreg .lastRow)
  | 3 => decide (s.sreg .startCol > s.sreg .lastCol)
  | 4 => decide (s.sreg .lastRow ≥ s.sreg .dstRows)
  | 5 => decide (s.sreg .lastCol ≥ s.sreg .dstCols)
  | _ => false

theorem State.geometryMask_eq_ofBits (s : State) : s.geometryMask = Nat.ofBits fun n : Fin 6 => s.geometryFails n := by
  simp only [State.geometryMask, bitAt_eq_toNat_mul, Nat.ofBits_succ, Nat.ofBits_zero, Function.comp_apply, Fin.val_succ,
    Fin.val_zero, Nat.reduceAdd, State.geometryFails]
  omega

/-- Bit `n` of the mask that ERR_INFO receives is condition `n` (R411). -/
theorem State.getLsbD_geometryMask (s : State) (n : Nat) :
    (BitVec.ofNat 32 s.geometryMask).getLsbD n = s.geometryFails n := by
  rw [BitVec.getLsbD_ofNat, s.geometryMask_eq_ofBits]
  by_cases hn : n < 6
  · simp [Nat.testBit_ofBits_lt _ n hn, show n < 32 by omega]
  · obtain ⟨m, rfl⟩ := Nat.exists_eq_add_of_le' (Nat.le_of_not_lt hn)
    simp [Nat.testBit_ofBits_ge, State.geometryFails]

/-! ### DEPTH and the pointers (R412, R413) -/

theorem State.badDepth_iff (s : State) (k : Kernel) :
    s.badDepth k = true ↔ s.sreg .depth < 0 ∨ (k ≠ .float ∧ s.sreg .depth % 4 ≠ 0) := by
  cases k <;> simp [State.badDepth, Kernel.unroll]

/-- The pointers the model checks are the rows of R413's table. -/
theorem State.pointerUses_eq_alignmentTable (s : State) (l : Latch) :
    s.pointerUses l = (s.alignmentTable l).map fun u => (u.pointer, u.used, u.alignment) := by
  obtain ⟨(_ | _ | _ | _) | _, f⟩ := l <;>
    simp [State.pointerUses, State.alignmentTable, State.usesLhsSums, State.usesRhsSums, Latch.usesMultArrays,
      Kernel.packedSize, Kernel.elemSize]

/-- A row of R413's table gives the offset of its pointer's low register. -/
theorem State.alignmentTable_offset {s : State} {l : Latch} {u : AlignmentRow} (h : u ∈ s.alignmentTable l) :
    u.offset = u.pointer.lo.offset := by
  simp only [State.alignmentTable, List.mem_cons, List.not_mem_nil, or_false] at h
  rcases h with rfl | rfl | rfl | rfl | rfl | rfl | rfl | rfl <;> rfl

/-- Whether the pointer of a row of R413's table fails its check. -/
def State.failsAlignment (s : State) (u : AlignmentRow) : Bool :=
  u.used && decide (s.ptr u.pointer % u.alignment ≠ 0)

theorem State.failsAlignment_iff (s : State) (u : AlignmentRow) :
    s.failsAlignment u = true ↔ u.used = true ∧ s.ptr u.pointer % u.alignment ≠ 0 := by
  simp [State.failsAlignment]

theorem State.failsAlignment_eq_false_iff (s : State) (u : AlignmentRow) :
    s.failsAlignment u = false ↔ (u.used = true → s.ptr u.pointer % u.alignment = 0) := by
  rw [← Bool.not_eq_true, s.failsAlignment_iff, not_and, not_ne_iff]

theorem State.misaligned?_eq_find? (s : State) (l : Latch) :
    s.misaligned? l = ((s.alignmentTable l).find? s.failsAlignment).map AlignmentRow.pointer := by
  simp only [State.misaligned?, s.pointerUses_eq_alignmentTable, List.find?_map, Option.map_map]
  rfl

end Sys2Proof.Machine
end

section
/-! The tiles of a command (R420, R421, R424): the rectangle as the valid elements of the tiles, the element writes of a
tile and of a list of tiles, the block arithmetic on s32 values, and what the side vectors hold in masked lanes. -/

namespace Sys2Proof.Machine

/-! ### The rectangle in blocks of eight (R420, R424) -/

/-- The indices from `start` in `n` blocks of eight, cut at `edge`, block by block. -/
theorem exists_block_iff (start n edge i : Nat) :
    (start ≤ i ∧ i < min (start + 8 * n) edge) ↔
      ∃ b r, b < n ∧ r < min (edge - (start + 8 * b)) 8 ∧ i = start + 8 * b + r := by
  constructor
  · rintro ⟨hlo, hhi⟩
    exact ⟨(i - start) / 8, (i - start) % 8, by omega, by omega, by omega⟩
  · rintro ⟨b, r, hb, hr, rfl⟩
    omega

/-- R424's rectangle is the valid elements of the tiles. -/
theorem State.writes_iff (s : State) (i j : Nat) :
    s.writes i j ↔ ∃ cb rb c r, (cb, rb) ∈ s.tiles ∧ c < s.residualCols cb ∧ r < s.residualRows rb ∧
      i = s.rowOf rb + r ∧ j = s.colOf cb + c := by
  rw [State.writes, exists_block_iff, exists_block_iff]
  constructor
  · rintro ⟨⟨rb, r, hrb, hr, hi⟩, cb, c, hcb, hc, hj⟩
    exact ⟨cb, rb, c, r, (s.mem_tiles cb rb).mpr ⟨hcb, hrb⟩, hc, hr, hi, hj⟩
  · rintro ⟨cb, rb, c, r, ht, hc, hr, hi, hj⟩
    obtain ⟨hcb, hrb⟩ := (s.mem_tiles cb rb).mp ht
    exact ⟨⟨rb, r, hrb, hr, hi⟩, cb, c, hcb, hc, hj⟩

/-! ### The element writes of the tiles -/

/-- A tile's run ends in its element writes. -/
theorem State.eq_tileStores_of_tileRun {s : State} {l : Latch} {cb rb : Nat} {w : List Store}
    (h : s.tileRun? l cb rb = some w) : ∃ acc y, w = s.tileStores l cb rb acc y := by
  simp only [State.tileRun?, Option.bind_eq_bind, Option.bind_eq_some_iff, Option.pure_def, Option.some.injEq] at h
  obtain ⟨-, -, acc, -, scaled, -, rfl⟩ := h
  exact ⟨acc, scaled.y, rfl⟩

/-- The element writes of every tile of a run are among those of the run. -/
theorem State.exists_tileRun_of_mem {s : State} {l : Latch} {t : Nat × Nat} {ts : List (Nat × Nat)} {ws : List Store}
    (h : s.tilesRun? l ts = some ws) (ht : t ∈ ts) : ∃ w, s.tileRun? l t.1 t.2 = some w ∧ w ⊆ ws := by
  induction ts generalizing ws with
  | nil => cases ht
  | cons head rest ih =>
    obtain ⟨w, more, hw, hmore, -, rfl⟩ := (s.tilesRun_cons l head.1 head.2 rest ws).mp h
    rcases List.mem_cons.mp ht with rfl | ht
    · exact ⟨w, hw, List.subset_append_left w more⟩
    · obtain ⟨w', hw', hsub⟩ := ih hmore ht
      exact ⟨w', hw', List.subset_append_of_subset_right w hsub⟩

/-- An element write of a command is that of one element of R424's rectangle. -/
theorem State.exists_element_of_mem_kernelRun {s : State} {l : Latch} {ws : List Store} {st : Store}
    (h : s.kernelRun? l = some ws) (hst : st ∈ ws) :
    ∃ i j, s.writes i j ∧ st.addr = s.dstAddr l.kernel i j ∧ st.size = l.kernel.elemSize := by
  obtain ⟨cb, rb, w, ht, hw, hmem, -⟩ := State.mem_tilesRun h hst
  obtain ⟨acc, y, rfl⟩ := State.eq_tileStores_of_tileRun hw
  obtain ⟨c, r, hc, hr, rfl⟩ := (s.mem_tileStores ..).mp hmem
  exact ⟨_, _, (s.writes_iff _ _).mpr ⟨cb, rb, c, r, ht, hc, hr, rfl, rfl⟩, rfl, rfl⟩

/-- Each element of R424's rectangle has an element write of the command. -/
theorem State.exists_mem_kernelRun_of_writes {s : State} {l : Latch} {ws : List Store} {i j : Nat}
    (h : s.kernelRun? l = some ws) (hij : s.writes i j) : ∃ st ∈ ws, st.addr = s.dstAddr l.kernel i j := by
  obtain ⟨cb, rb, c, r, ht, hc, hr, rfl, rfl⟩ := (s.writes_iff i j).mp hij
  obtain ⟨w, hw, hsub⟩ := State.exists_tileRun_of_mem h ht
  obtain ⟨acc, y, rfl⟩ := State.eq_tileStores_of_tileRun hw
  exact ⟨_, hsub ((s.mem_tileStores ..).mpr ⟨c, r, hc, hr, rfl⟩), rfl⟩

/-! ### Blocks and residual extents on s32 values, in one dimension (R420, R421) -/

section
variable {start last edge : Int} (hstart : 0 ≤ start)
include hstart

/-- A block is one of the `(last - start) / 8 + 1` blocks exactly where its first index is at most `last`. -/
theorem block_lt_iff (hlast : start ≤ last) (b : Nat) :
    b < (last.toNat - start.toNat) / 8 + 1 ↔ start + 8 * b ≤ last := by
  omega

theorem cast_blocks (hlast : start ≤ last) :
    (((last.toNat - start.toNat) / 8 + 1 : Nat) : Int) = (last - start) / 8 + 1 := by
  omega

theorem cast_blockFirst (b : Nat) : ((start.toNat + 8 * b : Nat) : Int) = start + 8 * b := by
  omega

theorem cast_residual (b : Nat) (hb : start + 8 * b ≤ edge) :
    ((min (edge.toNat - (start.toNat + 8 * b)) 8 : Nat) : Int) = min (edge - (start + 8 * b)) 8 := by
  omega

end

/-! ### The order of the tiles (R420) -/

/-- The tiles stand in column-major order. -/
theorem State.pairwise_tiles (s : State) : s.tiles.Pairwise fun x y => x.1 < y.1 ∨ (x.1 = y.1 ∧ x.2 < y.2) := by
  refine List.pairwise_flatMap.mpr ⟨fun cb _ => ?column, ?columns⟩
  case column => exact List.pairwise_map.mpr (List.pairwise_lt_range.imp fun hlt => .inr ⟨rfl, hlt⟩)
  case columns =>
    refine List.pairwise_lt_range.imp fun hlt x hx y hy => .inl ?_
    obtain ⟨_, -, rfl⟩ := List.mem_map.mp hx
    obtain ⟨_, -, rfl⟩ := List.mem_map.mp hy
    exact hlt

/-! ### Masked lanes (R143, R430) -/

theorem State.sideLane_masked (s : State) (p : Ptr) (used : Bool) (first : Nat) {n i : Nat} (h : n ≤ i) :
    s.sideLane? p used first n i = some 0 := by
  simp [State.sideLane?, Nat.not_lt.mpr h]

theorem State.scaleLane_masked (s : State) (l : Latch) (p : Ptr) (scalar : DescReg) (row : Nat) {rr r : Nat}
    (h : rr ≤ r) : s.scaleLane? l p scalar row rr r = some 0 := by
  simp [State.scaleLane?, s.sideLane_masked p true row h, Nat.not_lt.mpr h]

theorem State.sideVec_masked {s : State} {p : Ptr} {used : Bool} {first n : Nat} {v : Oct Word}
    (h : s.sideVec? p used first n = some v) {i : Nat} (hi : i < 8) (hn : n ≤ i) : v.get i = 0 :=
  Option.some.inj (((Oct.all?_eq_some _ _).mp h i hi).symm.trans (s.sideLane_masked p used first hn))

theorem State.scaleVec_masked {s : State} {l : Latch} {p : Ptr} {scalar : DescReg} {row rr : Nat} {v : Oct Word}
    (h : s.scaleVec? l p scalar row rr = some v) {r : Nat} (hr : r < 8) (hrr : rr ≤ r) : v.get r = 0 :=
  Option.some.inj (((Oct.all?_eq_some _ _).mp h r hr).symm.trans (s.scaleLane_masked l p scalar row hrr))

/-- What the first stage of a quantized tile puts in the masked lanes of ROWINIT and COLCORR. -/
theorem State.tileStart_masked {s : State} {d : QDst} {f : Flags} {cb rb : Nat} {first : TileStart}
    (h : s.tileStart? ⟨.quant d, f⟩ cb rb = some first) {n : Nat} (hn : n < 8) :
    (s.residualRows rb ≤ n → first.rowInit.get n = 0) ∧ (s.residualCols cb ≤ n → first.colCorr.get n = 0) := by
  simp only [State.tileStart?, Option.bind_eq_bind, Option.bind_eq_some_iff, Option.pure_def, Option.some.injEq] at h
  obtain ⟨bias, hbias, lsums, hlsums, rsums, -, rfl⟩ := h
  refine ⟨fun hrow => ?_, fun hcol => ?_⟩
  · simp [rowInits, rowTerms, hn, State.sideVec_masked hbias hn hrow, State.sideVec_masked hlsums hn hrow, zpProduct,
      s32, trunc32]
  · simp [colTerms, hn, Nat.not_lt.mpr hcol]

/-- What the requantization of a tile puts in the masked rows of MVEC and EVEC. -/
theorem State.tileScale_masked {s : State} {d : QDst} (hd : d ≠ .i32) {f : Flags} {rb : Nat} {acc : Tile Word}
    {t : TileScaled} (h : s.tileScale? ⟨.quant d, f⟩ rb acc = some t) {n : Nat} (hn : n < 8)
    (hrow : s.residualRows rb ≤ n) : t.mvec.get n = 0 ∧ t.evec.get n = 0 := by
  cases d with
  | i32 => exact absurd rfl hd
  | _ =>
    simp only [State.tileScale?, Option.bind_eq_bind, Option.bind_eq_some_iff, Option.pure_def, Option.some.injEq] at h
    obtain ⟨mvec, hmvec, evec, hevec, rfl⟩ := h
    exact ⟨State.scaleVec_masked hmvec hn hrow, State.scaleVec_masked hevec hn hrow⟩

end Sys2Proof.Machine
end

section
/-! The statements about 40_tile_iterator.md: O20, O25, O26, O29, O30 and O31. -/

namespace Sys2Proof.Machine

/-- Settles O29: the mask is the six conditions bit by bit, and the first check reports it. -/
theorem geometryCheck : Obligations.GeometryCheck := by
  intro i l s hl hw hb fails
  have hfails : fails ↔ s.geometryMask ≠ 0 := by
    rw [ne_eq, s.geometryMask_eq_zero_iff]
    omega
  refine ⟨fun h => ⟨_, exec_endsError_of_startCheck hl hw hb (State.startCheck_geometry (hfails.mp h) l), ?bits⟩,
    fun h => ?passes⟩
  case bits =>
    simp only [s.getLsbD_geometryMask]
    refine ⟨decide_eq_true_iff, decide_eq_true_iff, decide_eq_true_iff, decide_eq_true_iff, decide_eq_true_iff,
      decide_eq_true_iff, fun n hn => ?_⟩
    obtain ⟨m, rfl⟩ := Nat.exists_eq_add_of_le' hn
    rfl
  case passes =>
    have hg : s.geometryMask = 0 := not_ne_iff.mp (mt hfails.mpr h)
    exact ⟨hg, fun t => exec_errCause_ne hl hw hb (by decide) (State.startCheck_ne_badGeometry hg l)⟩

/-- Settles O30: with the geometry good the depth check decides, and no later check reports BAD_DEPTH. -/
theorem depthCheck : Obligations.DepthCheck := by
  intro i l s hl hw hb hg
  rw [← s.badDepth_iff]
  refine ⟨fun h => exec_endsError_of_startCheck hl hw hb (State.startCheck_depth hg h), fun h t => ?_⟩
  exact exec_errCause_ne hl hw hb (by decide) (State.startCheck_ne_badDepth hg (eq_false_of_ne_true h))

/-- Settles O31: the model's list is R413's table, in which the first failing row is searched. -/
theorem alignmentCheck : Obligations.AlignmentCheck := by
  intro i l s hl hw hb hg hd
  have hcheck := State.startCheck_pointers hg hd
  rw [s.misaligned?_eq_find?] at hcheck
  refine ⟨fun before u after htable hused hptr hbefore => ?_, fun hall t => ?_⟩
  · have hfind : (s.alignmentTable l).find? s.failsAlignment = some u :=
      List.find?_eq_some_iff_append.mpr ⟨(s.failsAlignment_iff u).mpr ⟨hused, hptr⟩, before, after, htable,
        fun b hb => by simpa using (s.failsAlignment_eq_false_iff b).mpr (hbefore b hb)⟩
    rw [hfind] at hcheck
    rw [State.alignmentTable_offset (List.mem_of_find?_eq_some hfind)]
    exact exec_endsError_of_startCheck hl hw hb hcheck
  · have hfind : (s.alignmentTable l).find? s.failsAlignment = none :=
      List.find?_eq_none.mpr fun u hu => by simpa using (s.failsAlignment_eq_false_iff u).mpr (hall u hu)
    rw [hfind] at hcheck
    exact exec_errCause_ne hl hw hb (by decide) (by simp [hcheck])

/-- Settles O20: a word with OP = 0 that is not 0 has a bit set in its reserved field or in DST and FLAGS. -/
theorem nopChangesNothing : Obligations.NopChangesNothing := by
  refine ⟨fun s hb => by simp [exec, execNop, hb], fun s hb => by simp [exec, execNop, hb, State.dropWrite],
    fun w hop hw => ?_⟩
  by_cases hr : reservedField w = 0#20
  · exact decode_nop_extra hr (BitVec.eq_of_toNat_eq (by rw [toNat_opField, hop]; rfl)) hw
  · exact decode_reserved hr

/-- Settles O25: the element writes of a command and the elements of R424's rectangle give each other. -/
theorem writtenRectangle : Obligations.WrittenRectangle := by
  intro s l ws _ h
  refine ⟨fun st hst => ?size, fun a => ⟨?inside, ?covered⟩⟩
  case size =>
    obtain ⟨_, _, -, -, hsize⟩ := State.exists_element_of_mem_kernelRun h hst
    exact hsize
  case inside =>
    rintro ⟨st, hst, rfl⟩
    obtain ⟨i, j, hij, haddr, -⟩ := State.exists_element_of_mem_kernelRun h hst
    exact ⟨i, j, hij, haddr⟩
  case covered =>
    rintro ⟨i, j, hij, rfl⟩
    exact State.exists_mem_kernelRun_of_writes h hij

/-- Settles O26: rows and columns are each a case of the one-dimensional block arithmetic. -/
theorem residualExtents : Obligations.ResidualExtents := by
  intro s hg
  obtain ⟨hrow, hcol, hlastRow, hlastCol, hdstRows, hdstCols⟩ := s.geometryMask_eq_zero_iff.mp hg
  have htiles (cb rb : Nat) : (cb, rb) ∈ s.tiles ↔
      s.sreg .startRow + 8 * rb ≤ s.sreg .lastRow ∧ s.sreg .startCol + 8 * cb ≤ s.sreg .lastCol := by
    rw [s.mem_tiles, and_comm]
    exact and_congr (block_lt_iff hrow hlastRow rb) (block_lt_iff hcol hlastCol cb)
  refine ⟨htiles, s.pairwise_tiles, cast_blocks hrow hlastRow, cast_blocks hcol hlastCol, fun cb rb ht => ?_⟩
  obtain ⟨hrb, hcb⟩ := (htiles cb rb).mp ht
  have hresRows : (s.residualRows rb : Int) = min (s.sreg .dstRows - (s.sreg .startRow + 8 * rb)) 8 :=
    cast_residual hrow rb (by omega)
  have hresCols : (s.residualCols cb : Int) = min (s.sreg .dstCols - (s.sreg .startCol + 8 * cb)) 8 :=
    cast_residual hcol cb (by omega)
  exact ⟨cast_blockFirst hrow rb, cast_blockFirst hcol cb, hresRows, hresCols, by omega, by omega, by omega, by omega,
    fun _ _ _ h _ hn => State.tileStart_masked h hn, fun _ _ _ _ hd h _ hn hr => State.tileScale_masked hd h hn hr⟩

end Sys2Proof.Machine
end

section
/-! Accumulation (41_accumulate.md, R501 to R504): what a packed operand can be, the range of a product, a chunk's quads as packed operands
by depth, and the accumulator after the first chunks. -/

namespace Sys2Proof.Machine

/-! ### The range of a product of two operands (R502) -/

theorem operandValue_int8 (b : Byte) :
    operandValue .int8 b = if b.toNat < 128 then (b.toNat : Int) else b.toNat - 256 := by
  simp only [operandValue, BitVec.toInt_eq_toNat_cond]
  split_ifs <;> omega

theorem operandValue_uint8 (b : Byte) : operandValue .uint8 b = b.toNat := rfl

/-- The numbers an operand type can read from a byte, least and greatest. -/
def operandBounds : OperandType → Int × Int
  | .int8 => (-128, 127)
  | .uint8 => (0, 255)

theorem operandValue_bounds (t : OperandType) (b : Byte) :
    (operandBounds t).1 ≤ operandValue t b ∧ operandValue t b ≤ (operandBounds t).2 := by
  have hlt := b.isLt
  cases t with
  | int8 =>
    simp only [operandValue_int8, operandBounds]
    split_ifs <;> omega
  | uint8 =>
    simp only [operandValue_uint8, operandBounds]
    omega

/-- A product stays in the table's range: each bound is a combination of the four products of distances to the bounds of the
two operands, none of which is negative. -/
theorem mul_mem_dotRange {tl tr : OperandType} {x y : Int}
    (hx : (operandBounds tl).1 ≤ x ∧ x ≤ (operandBounds tl).2)
    (hy : (operandBounds tr).1 ≤ y ∧ y ≤ (operandBounds tr).2) :
    (dotRange tl tr).productLo ≤ x * y ∧ x * y ≤ (dotRange tl tr).productHi := by
  obtain ⟨hxlo, hxhi⟩ := hx
  obtain ⟨hylo, hyhi⟩ := hy
  have hlolo := mul_nonneg (sub_nonneg.mpr hxlo) (sub_nonneg.mpr hylo)
  have hlohi := mul_nonneg (sub_nonneg.mpr hxlo) (sub_nonneg.mpr hyhi)
  have hhilo := mul_nonneg (sub_nonneg.mpr hxhi) (sub_nonneg.mpr hylo)
  have hhihi := mul_nonneg (sub_nonneg.mpr hxhi) (sub_nonneg.mpr hyhi)
  cases tl <;> cases tr
  all_goals
    simp only [operandBounds, dotRange] at *
    exact ⟨by linarith, by linarith⟩

theorem exists_mul_eq_productLo (tl tr : OperandType) :
    ∃ a b, operandValue tl a * operandValue tr b = (dotRange tl tr).productLo :=
  match tl, tr with
  | .int8, .int8 => ⟨0x80#8, 0x7F#8, rfl⟩
  | .uint8, .int8 => ⟨0xFF#8, 0x80#8, rfl⟩
  | .int8, .uint8 => ⟨0x80#8, 0xFF#8, rfl⟩
  | .uint8, .uint8 => ⟨0x00#8, 0x00#8, rfl⟩

theorem exists_mul_eq_productHi (tl tr : OperandType) :
    ∃ a b, operandValue tl a * operandValue tr b = (dotRange tl tr).productHi :=
  match tl, tr with
  | .int8, .int8 => ⟨0x80#8, 0x80#8, rfl⟩
  | .uint8, .int8 => ⟨0xFF#8, 0x7F#8, rfl⟩
  | .int8, .uint8 => ⟨0x7F#8, 0xFF#8, rfl⟩
  | .uint8, .uint8 => ⟨0xFF#8, 0xFF#8, rfl⟩

/-- The table's bounds of a sum are four times those of a product. -/
theorem dotRange_sum (tl tr : OperandType) :
    (dotRange tl tr).sumLo = 4 * (dotRange tl tr).productLo ∧ (dotRange tl tr).sumHi = 4 * (dotRange tl tr).productHi := by
  cases tl <;> cases tr <;> decide

/-! ### The packed operands of a tile by depth (R214) -/

/-- The operand of row or column `i` of a packed block at depth `d`. -/
def State.packedOperand (s : State) (t : OperandType) (blk i d : Nat) : Int :=
  operandValue t ((s.mem.byte? (blk + 32 * (d / 4) + 4 * i + d % 4)).getD 0)

/-- The depths of chunk `k` stand in its 32 bytes, four to a row or column. -/
theorem State.packedOperand_chunk (s : State) (t : OperandType) (blk i k : Nat) {j : Nat} (hj : j < 4) :
    s.packedOperand t blk i (4 * k + j) = operandValue t ((s.mem.byte? (blk + 32 * k + 4 * i + j)).getD 0) := by
  rw [State.packedOperand, show (4 * k + j) / 4 = k by omega, show (4 * k + j) % 4 = j by omega]

theorem State.lhsTile_eq_packedOperand (s : State) (k : Kernel) (rb r d : Nat) :
    s.lhsTile k rb r d = s.packedOperand s.params.operandTypeLhs (s.lhsBlk k rb) r d := rfl

theorem State.rhsTile_eq_packedOperand (s : State) (k : Kernel) (cb c d : Nat) :
    s.rhsTile k cb c d = s.packedOperand s.params.operandTypeRhs (s.rhsBlk k cb) c d := rfl

/-- A chunk that exists holds, for each row or column, the operands at its four depths. -/
theorem State.get_of_chunk {s : State} {t : OperandType} {blk k : Nat} {o : Oct Quad} (h : s.chunk? t blk k = some o)
    {i : Nat} (hi : i < 8) :
    o.get i = ⟨s.packedOperand t blk i (4 * k), s.packedOperand t blk i (4 * k + 1), s.packedOperand t blk i (4 * k + 2),
      s.packedOperand t blk i (4 * k + 3)⟩ := by
  have hquad := (Oct.all?_eq_some _ _).mp h i hi
  simp only [State.quad?, Option.bind_eq_bind, Option.bind_eq_some_iff, Option.pure_def, Option.some.injEq] at hquad
  obtain ⟨b0, h0, b1, h1, b2, h2, b3, h3, hq⟩ := hquad
  have hdepth0 := s.packedOperand_chunk t blk i k (j := 0) (by decide)
  rw [Nat.add_zero, Nat.add_zero] at hdepth0
  simp [← hq, hdepth0, State.packedOperand_chunk, h0, h1, h2, h3]

/-! ### The accumulator (R501, R503, R504) -/

/-- One chunk adds to each cell the four products at its depths, modulo 2^32. -/
theorem State.at_accumulateChunk {s : State} {k : Kernel} {cb rb n : Nat} {acc acc' : Tile Word}
    (h : s.accumulateChunk? k cb rb n acc = some acc') {c r : Nat} (hc : c < 8) (hr : r < 8) :
    Oct.at acc' c r = trunc32 (s32 (Oct.at acc c r) +
      ((List.range 4).map fun j => s.lhsTile k rb r (4 * n + j) * s.rhsTile k cb c (4 * n + j)).sum) := by
  simp only [State.accumulateChunk?, Option.bind_eq_bind, Option.bind_eq_some_iff, Option.pure_def,
    Option.some.injEq] at h
  obtain ⟨lhs, hlhs, rhs, hrhs, rfl⟩ := h
  rw [rank4, Oct.at_tileOf _ hc hr, State.get_of_chunk hlhs hr, State.get_of_chunk hrhs hc]
  simp [dot4, State.lhsTile_eq_packedOperand, State.rhsTile_eq_packedOperand, List.range_succ, add_assoc]

/-- After `n` chunks each cell is its start plus the products over `4 * n` depths, modulo 2^32: by induction over the chunks,
since a start that was cut to 32 bits adds as the integer it was cut from. -/
theorem State.at_tileDepths_quant {s : State} {d : QDst} {f : Flags} {cb rb n : Nat} {init acc : Tile Word}
    (h : s.tileDepths? ⟨.quant d, f⟩ cb rb n init = some acc) {c r : Nat} (hc : c < 8) (hr : r < 8) :
    Oct.at acc c r = trunc32 (s32 (Oct.at init c r) +
      ((List.range (4 * n)).map fun k => s.lhsTile (.quant d) rb r k * s.rhsTile (.quant d) cb c k).sum) := by
  induction n generalizing acc with
  | zero =>
    cases h
    simp
  | succ n ih =>
    obtain ⟨before, hbefore, hchunk⟩ := Option.bind_eq_some_iff.mp h
    rw [State.at_accumulateChunk hchunk hc hr, ih hbefore, trunc32_add, Nat.mul_succ, List.range_add, List.map_append,
      List.map_map, List.sum_append, add_assoc]
    rfl

/-- An integer that fits an s32 is its own wrap (R14). -/
theorem wrap32_of_fits {v : Int} (hlo : -(2 ^ 31) ≤ v) (hhi : v < 2 ^ 31) : wrap32 v = v := by
  rw [wrap32_eq]
  omega

end Sys2Proof.Machine
end

section
/-! The statements about 41_accumulate.md: O43 and O44. -/

namespace Sys2Proof.Machine

/-- Settles O43: the four products of a sum are each in a product's range, and four equal products attain a sum's bounds. -/
theorem dotProductRange : Obligations.DotProductRange := by
  refine ⟨fun b => ⟨operandValue_int8 b, operandValue_uint8 b⟩, fun tl tr => ?_⟩
  have hproduct (a b : Byte) := mul_mem_dotRange (operandValue_bounds tl a) (operandValue_bounds tr b)
  obtain ⟨hsumLo, hsumHi⟩ := dotRange_sum tl tr
  obtain ⟨aLo, bLo, hlo⟩ := exists_mul_eq_productLo tl tr
  obtain ⟨aHi, bHi, hhi⟩ := exists_mul_eq_productHi tl tr
  refine ⟨fun a b => rfl, hproduct, ⟨aLo, bLo, hlo⟩, ⟨aHi, bHi, hhi⟩, fun a b => ?sumRange,
    ⟨fun _ => aLo, fun _ => bLo, ?sumLo⟩, ⟨fun _ => aHi, fun _ => bHi, ?sumHi⟩⟩
  case sumRange =>
    have h0 := hproduct (a 0) (b 0)
    have h1 := hproduct (a 1) (b 1)
    have h2 := hproduct (a 2) (b 2)
    have h3 := hproduct (a 3) (b 3)
    simp only [dot4]
    omega
  case sumLo =>
    simp only [dot4, hlo]
    omega
  case sumHi =>
    simp only [dot4, hhi]
    omega

/-- Settles O44: the signed reading of the cell's word is the wrap, and a sum that fits an s32 is its own wrap. -/
theorem accumulatorClosedForm : Obligations.AccumulatorClosedForm := by
  intro s d f cb rb n init acc h c r hc hr total
  have hwrap : s32 (Oct.at acc c r) = wrap32 total := congrArg s32 (State.at_tileDepths_quant h hc hr)
  exact ⟨hwrap, fun hlo hhi => hwrap.trans (wrap32_of_fits hlo hhi)⟩

end Sys2Proof.Machine
end

section
/-! A command reads its latch only for its kernel and for which of the optional arrays it uses (R201): two latches that agree
there are one command. -/

namespace Sys2Proof.Machine

/-- Two latches of one kernel that use the same optional arrays. -/
structure State.SameUse (s : State) (l l' : Latch) : Prop where
  kernel : l'.kernel = l.kernel
  bias : l'.flags.bias = l.flags.bias
  lhsSums : s.usesLhsSums l' = s.usesLhsSums l
  rhsSums : s.usesRhsSums l' = s.usesRhsSums l
  mult : l'.usesMultArrays = l.usesMultArrays

/-- Where a kernel requantizes, PERCHANNEL is what says that it uses the multiplier arrays (R119, R702). -/
theorem Latch.usesMultArrays_of_ne_i32 {l : Latch} {d : QDst} (hk : l.kernel = .quant d) (hd : d ≠ .i32) :
    l.usesMultArrays = l.flags.perch := by
  cases d with
  | i32 => exact absurd rfl hd
  | _ => simp only [Latch.usesMultArrays, hk]

section
variable {s : State} {l l' : Latch} (h : s.SameUse l l')
include h

/-! ### The checks and the contract -/

theorem State.SameUse.misaligned : s.misaligned? l' = s.misaligned? l := by
  simp only [State.misaligned?, State.pointerUses, h.kernel, h.bias, h.lhsSums, h.rhsSums, h.mult]

theorem State.SameUse.startCheck : s.startCheck l' = s.startCheck l := by
  rw [State.startCheck, State.startCheck, h.kernel, h.misaligned]

theorem State.SameUse.readFootprint : s.readFootprint l' = s.readFootprint l := by
  simp only [State.readFootprint, State.tileReads, h.kernel, h.bias, h.lhsSums, h.rhsSums, h.mult]

theorem State.SameUse.writeFootprint : s.writeFootprint l' = s.writeFootprint l := by
  simp only [State.writeFootprint, State.tileWrites, h.kernel]

theorem State.SameUse.aliases : s.aliases l' = s.aliases l := by
  rw [State.aliases, State.aliases, h.readFootprint, h.writeFootprint]

theorem State.SameUse.footprintsExist : s.footprintsExist l' = s.footprintsExist l := by
  rw [State.footprintsExist, State.footprintsExist, h.readFootprint, h.writeFootprint]

theorem State.SameUse.contractStop : s.contractStop l' = s.contractStop l := by
  rw [State.contractStop, State.contractStop, h.readFootprint, h.writeFootprint, h.aliases, h.footprintsExist]

/-! ### The stages of a tile -/

theorem State.SameUse.tileStart (cb rb : Nat) : s.tileStart? l' cb rb = s.tileStart? l cb rb := by
  simp only [State.tileStart?, h.kernel, h.bias, h.lhsSums, h.rhsSums]

theorem State.SameUse.tileDepths (cb rb n : Nat) (acc : Tile Word) :
    s.tileDepths? l' cb rb n acc = s.tileDepths? l cb rb n acc := by
  have hstep : s.tileDepth? l' cb rb = s.tileDepth? l cb rb := by
    funext k a
    simp only [State.tileDepth?, h.kernel]
  induction n with
  | zero => rfl
  | succ n ih => rw [State.tileDepths?, State.tileDepths?, ih, hstep]

theorem State.SameUse.tileScale (rb : Nat) (acc : Tile Word) : s.tileScale? l' rb acc = s.tileScale? l rb acc := by
  have hscale {d : QDst} (hk : l.kernel = .quant d) (hd : d ≠ .i32) : s.scaleVec? l' = s.scaleVec? l := by
    have hperch : l'.flags.perch = l.flags.perch := by
      rw [← Latch.usesMultArrays_of_ne_i32 (h.kernel.trans hk) hd, ← Latch.usesMultArrays_of_ne_i32 hk hd, h.mult]
    funext p scalar row rr
    exact congrArg Oct.all? (funext fun r => by rw [State.scaleLane?, State.scaleLane?, hperch])
  unfold State.tileScale?
  rw [h.kernel]
  split
  · rfl
  · rename_i d hd hk
    rw [hscale hk hd]
  · rfl

theorem State.SameUse.tileStores (cb rb : Nat) (acc : Tile Word) (y : Tile Int) :
    s.tileStores l' cb rb acc y = s.tileStores l cb rb acc y := by
  simp only [State.tileStores, State.elementStore, State.elementBits, h.kernel]

theorem State.SameUse.kernelRun : s.kernelRun? l' = s.kernelRun? l := by
  have htile (cb rb : Nat) : s.tileRun? l' cb rb = s.tileRun? l cb rb := by
    simp only [State.tileRun?, h.tileStart, h.tileDepths, h.tileScale, h.tileStores, h.kernel]
  have htiles (ts : List (Nat × Nat)) : s.tilesRun? l' ts = s.tilesRun? l ts := by
    induction ts with
    | nil => rfl
    | cons t ts ih => rw [State.tilesRun?, State.tilesRun?, ih, htile]
  exact htiles s.tiles

/-! ### The command -/

/-- The answer of a command holds nothing of its latch: an end leaves an idle engine (R142). -/
theorem State.SameUse.runCommand : s.runCommand l' = s.runCommand l := by
  simp only [State.runCommand, State.command, State.startCheck_accept, State.contractStop_accept, State.runKernel,
    State.kernelRun_accept, h.startCheck, h.contractStop, h.kernelRun]
  rfl

end

/-- A quantized command is the command of its latch. -/
theorem exec_quantInstr (d : QDst) (f : Flags) (s : State) : exec (quantInstr d f) s = s.runCommand ⟨.quant d, f⟩ := by
  cases d <;> rfl

end Sys2Proof.Machine
end

section
/-! Zero-point correction (42_zero_point.md, R601 to R606): the start of a cell and its accumulator in the terms of the
scalar reference, and the sum of zero-point-shifted products. -/

namespace Sys2Proof.Machine

/-! ### The terms of one cell (R601 to R603) -/

/-- The word of a side array's lane: the array's element where the array is used and the lane valid, else 0. -/
theorem State.eq_of_sideLane {s : State} {p : Ptr} {used : Bool} {first n i : Nat} {w : Word}
    (h : s.sideLane? p used first n i = some w) :
    w = if used = true ∧ i < n then s.memWord (s.sideAddr p (first + i)) else 0 := by
  by_cases hread : used = true ∧ i < n
  · simp only [State.sideLane?, hread, decide_true, Bool.and_self, if_true, State.sideWord?, Option.map_eq_some_iff] at h
    obtain ⟨v, hv, rfl⟩ := h
    simp [hread, State.memWord, hv]
  · rw [if_neg hread]
    simp only [State.sideLane?, Bool.and_eq_true, decide_eq_true_eq, if_neg hread, Option.some.injEq] at h
    exact h.symm

@[simp] theorem s32_zero : s32 0#32 = 0 := rfl

@[simp] theorem trunc32_zero : trunc32 0 = 0#32 := rfl

/-- The correction of a cell by terms that were cut to 32 bits before. -/
theorem zeroPointCell_trunc32 (bias row col : Int) :
    zeroPointCell (trunc32 bias) (trunc32 row) (trunc32 col) = trunc32 (bias - row - col) := by
  rw [zeroPointCell, trunc32_sub_right, sub_right_comm, trunc32_sub_right, sub_sub, trunc32_sub, sub_add_eq_sub_sub_swap]

theorem State.usesLhsSums_quant (s : State) (d : QDst) (f : Flags) :
    s.usesLhsSums ⟨.quant d, f⟩ = true ↔ f.lsums = true ∧ s.sreg .rhsZp ≠ 0 := by
  simp [State.usesLhsSums]

theorem State.usesRhsSums_quant (s : State) (d : QDst) (f : Flags) :
    s.usesRhsSums ⟨.quant d, f⟩ = true ↔ f.rsums = true ∧ s.sreg .lhsZp ≠ 0 := by
  simp [State.usesRhsSums]

section
variable {s : State} {d : QDst} {f : Flags} {first n i : Nat} {w : Word}

/-- The bias of a lane, 0 where the lane is masked (R430, R500). -/
theorem State.bias_eq_trunc32 (h : s.sideLane? .bias f.bias first n i = some w) :
    w = trunc32 (if i < n then s.biasRef f (first + i) else 0) := by
  rw [State.eq_of_sideLane h, State.biasRef]
  by_cases hi : i < n <;> by_cases hb : f.bias = true <;> simp [hi, hb]

/-- The row term of a lane, 0 where the lane is masked (R430, R601). -/
theorem State.rowTerm_eq_trunc32 (h : s.sideLane? .lhsSums (s.usesLhsSums ⟨.quant d, f⟩) first n i = some w) :
    zpProduct (s.sreg .rhsZp) w = trunc32 (if i < n then s.rowTermRef f (first + i) else 0) := by
  simp only [State.eq_of_sideLane h, zpProduct, State.rowTermRef, s.usesLhsSums_quant]
  by_cases hi : i < n <;> by_cases hu : f.lsums = true ∧ s.sreg .rhsZp ≠ 0 <;> simp [hi, hu]

/-- The column term of a valid column, in both modes (R602). -/
theorem State.colTerm_eq_trunc32 (h : s.sideLane? .rhsSums (s.usesRhsSums ⟨.quant d, f⟩) first n i = some w)
    (hi : i < n) :
    colTerm s.params.prodZpMode (s.usesRhsSums ⟨.quant d, f⟩) (s.sreg .lhsZp) (s.sreg .prodZpDepth) w =
      trunc32 (s.colTermRef f (first + i)) := by
  simp only [State.eq_of_sideLane h, hi, and_true, State.colTermRef, ← s.usesRhsSums_quant d]
  cases s.params.prodZpMode <;> cases s.usesRhsSums ⟨.quant d, f⟩ <;> simp [colTerm, zpProduct, trunc32_sub]

end

/-! ### The start of a cell and its accumulator (R603, R504) -/

/-- A cell of a quantized tile starts from the bias less the row term, in a valid row, less the column term, in a valid
column. -/
theorem State.at_tileStart_quant {s : State} {d : QDst} {f : Flags} {cb rb c r : Nat} {first : TileStart}
    (h : s.tileStart? ⟨.quant d, f⟩ cb rb = some first) (hc : c < 8) (hr : r < 8) :
    Oct.at first.acc c r = trunc32 ((if r < s.residualRows rb then s.biasRef f (s.rowOf rb + r) else 0) -
      (if r < s.residualRows rb then s.rowTermRef f (s.rowOf rb + r) else 0) -
      (if c < s.residualCols cb then s.colTermRef f (s.colOf cb + c) else 0)) := by
  have hcell := State.cellStart_of_tileStart h hc hr
  simp only [State.cellStart?, Option.bind_eq_bind, Option.bind_eq_some_iff, Option.pure_def, Option.some.injEq] at hcell
  obtain ⟨bias, hbias, lsum, hlsum, rsum, hrsum, hcell⟩ := hcell
  rw [← hcell, State.bias_eq_trunc32 hbias, State.rowTerm_eq_trunc32 hlsum, ← zeroPointCell_trunc32]
  congr 1
  split_ifs with hcol
  · exact State.colTerm_eq_trunc32 hrsum hcol
  · rfl

/-- The block of an index and its lane there, as the reference finds them (R214). -/
theorem block_and_lane_of_index (start b : Nat) {n : Nat} (hn : n < 8) :
    (start + 8 * b + n - start) / 8 = b ∧ (start + 8 * b + n - start) % 8 = n := by
  omega

theorem State.lhsTile_eq_lhsRef (s : State) (d : QDst) (rb k : Nat) {r : Nat} (hr : r < 8) :
    s.lhsTile (.quant d) rb r k = s.lhsRef (s.rowOf rb + r) k := by
  simp only [State.lhsTile, State.lhsRef, State.packedByte, State.lhsBlk, State.rowOf, block_and_lane_of_index _ rb hr,
    Kernel.packedSize, one_mul]

theorem State.rhsTile_eq_rhsRef (s : State) (d : QDst) (cb k : Nat) {c : Nat} (hc : c < 8) :
    s.rhsTile (.quant d) cb c k = s.rhsRef (s.colOf cb + c) k := by
  simp only [State.rhsTile, State.rhsRef, State.packedByte, State.rhsBlk, State.colOf, block_and_lane_of_index _ cb hc,
    Kernel.packedSize, one_mul]

/-- A DEPTH that passes its check is four per iteration of the depth loop (R412, R501). -/
theorem State.four_mul_depthSteps {s : State} {d : QDst} (hd : s.badDepth (.quant d) = false) :
    4 * s.depthSteps (.quant d) = s.nreg .depth := by
  have hgood := mt (s.badDepth_iff (.quant d)).mpr (Bool.eq_false_iff.mp hd)
  simp only [ne_eq, reduceCtorEq, not_false_eq_true, true_and] at hgood
  simp only [State.depthSteps, Kernel.unroll, State.nreg]
  omega

theorem wrap32_eq_wrapRef (v : Int) : wrap32 v = wrapRef v := wrap32_eq v

/-- After the depth loop every valid cell is the reference's accumulator. -/
theorem State.s32_at_tileDepths {s : State} {d : QDst} {f : Flags} {cb rb c r : Nat} {first : TileStart} {acc : Tile Word}
    (hd : s.badDepth (.quant d) = false) (hfirst : s.tileStart? ⟨.quant d, f⟩ cb rb = some first)
    (hacc : s.tileDepths? ⟨.quant d, f⟩ cb rb (s.depthSteps (.quant d)) first.acc = some acc)
    (hr : r < s.residualRows rb) (hc : c < s.residualCols cb) :
    s32 (Oct.at acc c r) = s.accRef f (s.rowOf rb + r) (s.colOf cb + c) := by
  have hr8 : r < 8 := lt_of_lt_of_le hr (Nat.min_le_right _ _)
  have hc8 : c < 8 := lt_of_lt_of_le hc (Nat.min_le_right _ _)
  have hdot : ((List.range (4 * s.depthSteps (.quant d))).map fun k =>
      s.lhsTile (.quant d) rb r k * s.rhsTile (.quant d) cb c k).sum = s.dotRef (s.rowOf rb + r) (s.colOf cb + c) := by
    simp only [State.four_mul_depthSteps hd, s.lhsTile_eq_lhsRef d rb _ hr8, s.rhsTile_eq_rhsRef d cb _ hc8, State.dotRef]
  rw [State.at_tileDepths_quant hacc hc8 hr8, State.at_tileStart_quant hfirst hc8 hr8, trunc32_add, hdot, if_pos hr,
    if_pos hr, if_pos hc, State.accRef, ← wrap32_eq_wrapRef, wrap32]
  congr 2
  ring

/-! ### The sum of shifted products (R605) -/

theorem sum_shifted_mul (x y : Nat → Int) (a b : Int) (n : Nat) :
    ((List.range n).map fun k => (x k - a) * (y k - b)).sum =
      ((List.range n).map fun k => x k * y k).sum - b * ((List.range n).map x).sum - a * ((List.range n).map y).sum +
        a * b * n := by
  induction n with
  | zero => simp
  | succ n ih =>
    simp only [List.sum_range_succ, ih, Nat.cast_succ]
    ring

/-- With its flag the row term is RHS_ZP times the row sum, for RHS_ZP = 0 too. -/
theorem State.rowTermRef_of_lsums (s : State) {f : Flags} (hf : f.lsums = true) (i : Nat) :
    s.rowTermRef f i = s.sreg .rhsZp * s32 (s.memWord (s.sideAddr .lhsSums i)) := by
  by_cases hz : s.sreg .rhsZp = 0 <;> simp [State.rowTermRef, hf, hz]

/-- With its flag the column term is the same in both modes, where PROD_ZP_DEPTH is 0 for LHS_ZP = 0. -/
theorem State.colTermRef_of_rsums (s : State) {f : Flags} (hf : f.rsums = true)
    (hprod : s.sreg .lhsZp = 0 → s.sreg .prodZpDepth = 0) (j : Nat) :
    s.colTermRef f j = s.sreg .lhsZp * s32 (s.memWord (s.sideAddr .rhsSums j)) - s.sreg .prodZpDepth := by
  by_cases hz : s.sreg .lhsZp = 0
  · cases hm : s.params.prodZpMode <;> simp [State.colTermRef, hm, hz, hprod hz]
  · cases hm : s.params.prodZpMode <;> simp [State.colTermRef, hm, hz, hf]

/-! ### Zero points 0 (R606) -/

/-- With both zero points 0 the sums flags do not say which arrays a quantized command uses. -/
theorem State.sameUse_sums_of_zeroPoints {s : State} (hl : s.sreg .lhsZp = 0) (hr : s.sreg .rhsZp = 0) (d : QDst)
    (f : Flags) (lsums rsums : Bool) :
    s.SameUse ⟨.quant d, f⟩ ⟨.quant d, { f with lsums := lsums, rsums := rsums }⟩ where
  kernel := rfl
  bias := rfl
  lhsSums := by simp [State.usesLhsSums, hr]
  rhsSums := by simp [State.usesRhsSums, hl]
  mult := rfl

theorem State.rowTermRef_of_zeroPoint {s : State} (hr : s.sreg .rhsZp = 0) (f : Flags) (i : Nat) :
    s.rowTermRef f i = 0 := by
  simp [State.rowTermRef, hr]

theorem State.colTermRef_of_zeroPoint {s : State} (hl : s.sreg .lhsZp = 0)
    (hmode : s.params.prodZpMode = .withRhsSums ∨ s.sreg .prodZpDepth = 0) (f : Flags) (j : Nat) :
    s.colTermRef f j = 0 := by
  cases hm : s.params.prodZpMode with
  | withRhsSums => simp [State.colTermRef, hm, hl]
  | wheneverNonzero =>
    have hprod : s.sreg .prodZpDepth = 0 := by simpa [hm] using hmode
    simp [State.colTermRef, hm, hl, hprod]

end Sys2Proof.Machine
end

section
/-! The statements about 42_zero_point.md: O45 and O46. -/

namespace Sys2Proof.Machine

/-- Settles O45: the accumulator is the reference's, whose terms are with true sums the cross terms of the shifted dot
product. -/
theorem zeroPointCorrectionIsShiftedDotProduct : Obligations.ZeroPointCorrectionIsShiftedDotProduct := by
  intro s d f cb rb r c first acc i j hlsums hrsums _ hdepth _ hr hc hfirst hacc hlhs hrhs hprod
  have hprodZero : s.sreg .lhsZp = 0 → s.sreg .prodZpDepth = 0 := fun hz => by simp [hprod, hz]
  rw [State.s32_at_tileDepths hdepth hfirst hacc hr hc, State.accRef, ← wrap32_eq_wrapRef, s.rowTermRef_of_lsums hlsums,
    s.colTermRef_of_rsums hrsums hprodZero, hlhs, hrhs, hprod, State.dotRef, sum_shifted_mul]
  congr 1
  ring

/-- Settles O46: the sums flags reach a command only through which arrays it uses, and both terms are 0. -/
theorem zeroPointFastPath : Obligations.ZeroPointFastPath := by
  intro s d f lsums rsums hl hr
  refine ⟨?flags, fun hmode cb rb first hfirst c r hc hr8 => ?start⟩
  case flags =>
    rw [exec_quantInstr, exec_quantInstr]
    exact (State.sameUse_sums_of_zeroPoints hl hr d f lsums rsums).runCommand
  case start =>
    rw [State.at_tileStart_quant hfirst hc hr8, State.rowTermRef_of_zeroPoint hr, State.colTermRef_of_zeroPoint hl hmode,
      State.biasRef]
    by_cases hrow : r < s.residualRows rb <;> by_cases hb : f.bias = true <;> simp [hrow, hb]

end Sys2Proof.Machine
end

section
/-! RHAZ on each sign of its argument is a floor (R18, R706, R707), and its multiple of 2^s lies within half of the argument
(R704); the clamp beyond its bounds (R802). -/

namespace Sys2Proof.Machine

variable {p : Int} {s : Nat}

/-- RHAZ's divisor is twice the half that it adds. -/
theorem two_pow_eq_two_mul_half (hs : 0 < s) : (2 : Int) ^ s = 2 * 2 ^ (s - 1) :=
  (mul_pow_sub_one hs.ne' 2).symm

theorem rhaz_of_nonneg (hs : 0 < s) (hp : 0 ≤ p) : rhaz p s = (p + 2 ^ (s - 1)) / 2 ^ s := by
  rw [rhaz, if_neg hs.ne', if_pos hp]

/-- Below 0 the floor that RHAZ negates becomes a ceiling of p - half, which is the floor with half less one added. -/
theorem rhaz_of_neg (hs : 0 < s) (hp : p < 0) : rhaz p s = (p + 2 ^ (s - 1) - 1) / 2 ^ s := by
  have hpow : (0 : Int) < 2 ^ s := by positivity
  have hhalf := two_pow_eq_two_mul_half hs
  obtain ⟨hle, hlt⟩ := (Int.ediv_eq_iff_of_pos hpow).mp (rfl : (-p + 2 ^ (s - 1)) / 2 ^ s = _)
  rw [rhaz, if_neg hs.ne', if_neg hp.not_ge, eq_comm, Int.ediv_eq_iff_of_pos hpow, neg_mul]
  omega

/-- From 0 on, RHAZ's multiple is within half of p, and exactly half off only above it. -/
theorem rhaz_mul_sub_of_nonneg (hs : 0 < s) (hp : 0 ≤ p) :
    -2 ^ (s - 1) < rhaz p s * 2 ^ s - p ∧ rhaz p s * 2 ^ s - p ≤ 2 ^ (s - 1) := by
  have hhalf := two_pow_eq_two_mul_half hs
  obtain ⟨hle, hlt⟩ := (Int.ediv_eq_iff_of_pos (by positivity)).mp (rhaz_of_nonneg hs hp).symm
  omega

/-- Below 0, RHAZ's multiple is within half of p, and exactly half off only below it. -/
theorem rhaz_mul_sub_of_neg (hs : 0 < s) (hp : p < 0) :
    -2 ^ (s - 1) ≤ rhaz p s * 2 ^ s - p ∧ rhaz p s * 2 ^ s - p < 2 ^ (s - 1) := by
  have hhalf := two_pow_eq_two_mul_half hs
  obtain ⟨hle, hlt⟩ := (Int.ediv_eq_iff_of_pos (by positivity)).mp (rhaz_of_neg hs hp).symm
  omega

/-- RHAZ(p, s) is the integer nearest to p / 2^s, ties away from zero. -/
theorem rhaz_nearest (p : Int) (hs : 0 < s) :
    2 * |rhaz p s * 2 ^ s - p| ≤ 2 ^ s ∧
    (2 * |rhaz p s * 2 ^ s - p| = 2 ^ s → |p| < |rhaz p s * 2 ^ s|) := by
  have hhalf := two_pow_eq_two_mul_half hs
  simp only [Int.abs_eq_natAbs]
  rcases le_or_gt 0 p with hp | hp
  · have hdist := rhaz_mul_sub_of_nonneg hs hp
    omega
  · have hdist := rhaz_mul_sub_of_neg hs hp
    omega

/-- One less under a floor matters only to a multiple of the divisor. -/
theorem sub_one_ediv (a : Int) {n : Int} (hn : 0 < n) : (a - 1) / n = a / n - if n ∣ a then 1 else 0 := by
  obtain ⟨hle, hlt⟩ := (Int.ediv_eq_iff_of_pos hn).mp (rfl : a / n = _)
  rw [Int.ediv_eq_iff_of_pos hn]
  split
  case isTrue hdvd =>
    have hmul := Int.ediv_mul_cancel hdvd
    rw [sub_one_mul]
    omega
  case isFalse hdvd =>
    have hne : a / n * n ≠ a := fun h => hdvd (Dvd.intro_left _ h)
    rw [sub_zero]
    omega

/-- The sum with half is a multiple of 2^s exactly where p is a tie, halfway between two multiples. -/
theorem two_pow_dvd_add_half_iff (hs : 0 < s) : (2 : Int) ^ s ∣ p + 2 ^ (s - 1) ↔ p % 2 ^ s = 2 ^ (s - 1) := by
  have hhalf := two_pow_eq_two_mul_half hs
  have hpos : (0 : Int) < 2 ^ (s - 1) := by positivity
  have hmod : (2 : Int) ^ (s - 1) % 2 ^ s = 2 ^ (s - 1) := Int.emod_eq_of_lt hpos.le (by omega)
  have hsum : p + 2 ^ (s - 1) = p - 2 ^ (s - 1) + 2 ^ s := by omega
  rw [hsum, dvd_add_self_right, Int.dvd_iff_emod_eq_zero, ← Int.emod_eq_emod_iff_emod_sub_eq_zero, hmod]

/-- EXACT's value is RHAZ of the exact product, with the shift split of R703 written out. -/
theorem requantValue_exact (x m e : Int) :
    requantValue .exact x m e = rhaz (x * 2 ^ (max e 0).toNat * m) (31 + (max (-e) 0).toNat) := by
  have hleft : leftShift e = (max e 0).toNat := by rw [leftShift]; omega
  have hright : rightShift e = (max (-e) 0).toNat := by rw [rightShift]; omega
  rw [requantValue, rqExact, hleft, hright]

/-! ### The range of an s32 and the clamp beyond its bounds (R802) -/

theorem le_s32 (w : Word) : -(2 ^ 31) ≤ s32 w := w.le_toInt

theorem s32_lt (w : Word) : s32 w < 2 ^ 31 := w.toInt_lt

theorem clampInt_of_hi_le {z lo hi : Int} (h : hi ≤ z) : clampInt z lo hi = max hi lo := by
  rw [clampInt, min_eq_right h]

theorem clampInt_of_le_lo {z lo hi : Int} (h : z ≤ lo) : clampInt z lo hi = lo := by
  rw [clampInt, max_eq_right (min_le_of_left_le h)]

end Sys2Proof.Machine
end

section
/-! The statements about 43_requant.md: O37, O39 and O40. -/

namespace Sys2Proof.Machine

/-- Settles O37: RQ is RHAZ of the exact product, and RHAZ rounds to the nearest integer. -/
theorem requantRoundsToNearest : Obligations.RequantRoundsToNearest := by
  intro x m e n p
  rw [requantValue_exact]
  exact rhaz_nearest p (Nat.add_pos_left (by decide) _)

/-- Settles O39: below 0 RHAZ is the floor with half less one added, and the one matters only in a tie. -/
theorem shiftRouteAgainstRounding : Obligations.ShiftRouteAgainstRounding := by
  intro p s hs
  rcases le_or_gt 0 p with hp | hp
  · simp [rhaz_of_nonneg hs hp, hp.not_gt]
  · have hfloor := sub_one_ediv (p + 2 ^ (s - 1)) (n := 2 ^ s) (by positivity)
    simp only [two_pow_dvd_add_half_iff hs] at hfloor
    rw [← rhaz_of_neg hs hp] at hfloor
    refine ⟨fun htie => ?_, fun htie => ?_, fun _ => (rhaz_of_neg hs hp).symm⟩
    · rw [hfloor, if_neg fun h => htie ⟨hp, h⟩, sub_zero]
    · rw [hfloor, if_pos htie.2, sub_add_cancel]

/-- Settles O40: a Y that the saturation changes is so far out that its sum with an s32 zero point, and the sum of the bound
that it is saturated to, lie beyond every s32 clamp bound. -/
theorem saturationBeforeClampIsInvisible : Obligations.SaturationBeforeClampIsInvisible := by
  intro y zp lo hi
  have hzpLo := le_s32 zp
  have hzpHi := s32_lt zp
  simp only [addDstZp]
  rcases lt_or_ge (2 ^ 32) y with habove | hle
  · have hhi := s32_lt hi
    rw [clampInt_of_hi_le (by omega), clampInt_of_hi_le (by omega)]
  rcases lt_or_ge y (-(2 ^ 32)) with hbelow | hge
  · have hlo := le_s32 lo
    rw [clampInt_of_le_lo (by omega), clampInt_of_le_lo (by omega)]
  · rw [min_eq_left hle, max_eq_left hge]

end Sys2Proof.Machine
end

section
/-! The integer clamp within its bounds, and the statement about 44_clamp_pack.md: O41. -/

namespace Sys2Proof.Machine

theorem lo_le_clampInt (z lo hi : Int) : lo ≤ clampInt z lo hi := le_max_right _ _

theorem clampInt_le_hi {lo hi : Int} (z : Int) (h : lo ≤ hi) : clampInt z lo hi ≤ hi :=
  max_le (min_le_right z hi) h

theorem clampInt_of_between {z lo hi : Int} (hlo : lo ≤ z) (hhi : z ≤ hi) : clampInt z lo hi = z := by
  rw [clampInt, min_eq_left hhi, max_eq_left hlo]

/-- Where the bounds are inverted, or meet, the later comparison wins (R802). -/
theorem clampInt_of_hi_le_lo {lo hi : Int} (z : Int) (h : hi ≤ lo) : clampInt z lo hi = lo := by
  rw [clampInt, max_eq_right (min_le_of_right_le h)]

/-- Settles O41: one law of the clamp for each clause. -/
theorem clampSaturates : Obligations.ClampSaturates := by
  intro z lo hi
  refine ⟨fun hord => ?within, fun hlo hhi => ?kept, fun hord habove => ?above, fun hbelow => ?below, fun hinv => ?inverted⟩
  case within => exact ⟨lo_le_clampInt z lo hi, clampInt_le_hi z hord⟩
  case kept => exact clampInt_of_between hlo hhi
  case above => rw [clampInt_of_hi_le habove.le, max_eq_left hord]
  case below => exact clampInt_of_le_lo hbelow.le
  case inverted => exact clampInt_of_hi_le_lo z hinv.le

end Sys2Proof.Machine
end

section
/-! A command reads the descriptor only in the registers its kernel reads (R201, R404, R909): on two descriptors that agree
there it does the same. -/

namespace Sys2Proof

/-- Whether a command of the kernel can read the register: the zero points and the sums are of the quantized path only, and
the multipliers of its destinations other than I32 (R201, R404, R909). -/
def Kernel.readsReg (k : Kernel) : Machine.DescReg → Bool
  | .lhsZp | .rhsZp | .dstZp | .prodZpDepth | .lhsSumsLo | .lhsSumsHi | .rhsSumsLo | .rhsSumsHi => k != .float
  | .multFp | .multExp | .multFpPtrLo | .multFpPtrHi | .multExpPtrLo | .multExpPtrHi => k != .float && k != .quant .i32
  | _ => true

/-- A kernel that requantizes reads every register (R119, R702). -/
theorem Kernel.readsReg_of_ne_i32 {d : QDst} (hd : d ≠ .i32) (r : Machine.DescReg) :
    (Kernel.quant d).readsReg r = true := by
  cases r <;> simp [Kernel.readsReg, hd]

end Sys2Proof

namespace Sys2Proof.Machine

/-- Two states with the same memory and parameters whose descriptors agree in every register the kernel reads. -/
structure State.SameReads (k : Kernel) (s t : State) : Prop where
  params : t.params = s.params
  mem : t.mem = s.mem
  get : ∀ r, k.readsReg r = true → t.desc.get r = s.desc.get r

/-- A register the kernel does not read can hold anything. -/
theorem State.sameReads_set {k : Kernel} {r : DescReg} (hr : k.readsReg r = false) (s : State) (v : Word) :
    State.SameReads k s { s with desc := s.desc.set v r } where
  params := rfl
  mem := rfl
  get q hq := by
    have hne : q ≠ r := by
      rintro rfl
      simp [hr] at hq
    simp [Descriptor.get_set, hne]

section
variable {l : Latch} {s t : State} (h : State.SameReads l.kernel s t)
include h

/-! ### Operands, geometry and addresses (R302, R420, R421, R214 to R216) -/

theorem State.SameReads.sreg {r : DescReg} (hr : l.kernel.readsReg r = true) : t.sreg r = s.sreg r := by
  rw [State.sreg, State.sreg, h.get r hr]

theorem State.SameReads.ureg {r : DescReg} (hr : l.kernel.readsReg r = true) : t.ureg r = s.ureg r := by
  rw [State.ureg, State.ureg, h.get r hr]

theorem State.SameReads.nreg {r : DescReg} (hr : l.kernel.readsReg r = true) : t.nreg r = s.nreg r := by
  rw [State.nreg, State.nreg, h.sreg hr]

theorem State.SameReads.ptr {p : Ptr} (hlo : l.kernel.readsReg p.lo = true) (hhi : l.kernel.readsReg p.hi = true) :
    t.ptr p = s.ptr p := by
  rw [State.ptr, State.ptr, h.ureg hlo, h.ureg hhi]

theorem State.SameReads.rowBlocks : t.rowBlocks = s.rowBlocks := by
  rw [State.rowBlocks, State.rowBlocks, h.nreg rfl, h.nreg rfl]

theorem State.SameReads.colBlocks : t.colBlocks = s.colBlocks := by
  rw [State.colBlocks, State.colBlocks, h.nreg rfl, h.nreg rfl]

theorem State.SameReads.tiles : t.tiles = s.tiles := by
  rw [State.tiles, State.tiles, h.colBlocks, h.rowBlocks]

theorem State.SameReads.rowOf (rb : Nat) : t.rowOf rb = s.rowOf rb := by
  rw [State.rowOf, State.rowOf, h.nreg rfl]

theorem State.SameReads.colOf (cb : Nat) : t.colOf cb = s.colOf cb := by
  rw [State.colOf, State.colOf, h.nreg rfl]

theorem State.SameReads.residualRows (rb : Nat) : t.residualRows rb = s.residualRows rb := by
  rw [State.residualRows, State.residualRows, h.rowOf, h.nreg rfl]

theorem State.SameReads.residualCols (cb : Nat) : t.residualCols cb = s.residualCols cb := by
  rw [State.residualCols, State.residualCols, h.colOf, h.nreg rfl]

theorem State.SameReads.depthSteps : t.depthSteps l.kernel = s.depthSteps l.kernel := by
  rw [State.depthSteps, State.depthSteps, h.nreg rfl]

theorem State.SameReads.lhsBlk (rb : Nat) : t.lhsBlk l.kernel rb = s.lhsBlk l.kernel rb := by
  rw [State.lhsBlk, State.lhsBlk, h.ptr rfl rfl, h.ureg rfl]

theorem State.SameReads.rhsBlk (cb : Nat) : t.rhsBlk l.kernel cb = s.rhsBlk l.kernel cb := by
  rw [State.rhsBlk, State.rhsBlk, h.ptr rfl rfl, h.ureg rfl]

theorem State.SameReads.dstAddr (i j : Nat) : t.dstAddr l.kernel i j = s.dstAddr l.kernel i j := by
  rw [State.dstAddr, State.dstAddr, h.ptr rfl rfl, h.nreg rfl, h.nreg rfl, h.ureg rfl]

/-! ### The optional arrays (R201): one that is used is at the same address -/

theorem State.SameReads.usesLhsSums : t.usesLhsSums l = s.usesLhsSums l := by
  obtain ⟨d | _, f⟩ := l
  · simp only [State.usesLhsSums, h.sreg (r := .rhsZp) rfl]
  · rfl

theorem State.SameReads.usesRhsSums : t.usesRhsSums l = s.usesRhsSums l := by
  obtain ⟨d | _, f⟩ := l
  · simp only [State.usesRhsSums, h.sreg (r := .lhsZp) rfl]
  · rfl

theorem State.SameReads.ptr_lhsSums (hu : s.usesLhsSums l = true) : t.ptr .lhsSums = s.ptr .lhsSums := by
  obtain ⟨d | _, f⟩ := l
  · exact h.ptr rfl rfl
  · cases hu

theorem State.SameReads.ptr_rhsSums (hu : s.usesRhsSums l = true) : t.ptr .rhsSums = s.ptr .rhsSums := by
  obtain ⟨d | _, f⟩ := l
  · exact h.ptr rfl rfl
  · cases hu

/-- A command that uses the multiplier arrays reads every register. -/
theorem State.SameReads.ptr_of_usesMultArrays (hu : l.usesMultArrays = true) (p : Ptr) : t.ptr p = s.ptr p := by
  obtain ⟨d | _, f⟩ := l
  · have hd : d ≠ .i32 := by
      rintro rfl
      cases hu
    exact h.ptr (Kernel.readsReg_of_ne_i32 hd _) (Kernel.readsReg_of_ne_i32 hd _)
  · cases hu

/-! ### The checks and the contract (R410, R221) -/

theorem State.SameReads.geometryMask : t.geometryMask = s.geometryMask := by
  simp only [State.geometryMask, h.sreg (r := .startRow) rfl, h.sreg (r := .lastRow) rfl, h.sreg (r := .startCol) rfl,
    h.sreg (r := .lastCol) rfl, h.sreg (r := .dstRows) rfl, h.sreg (r := .dstCols) rfl]

theorem State.SameReads.badDepth : t.badDepth l.kernel = s.badDepth l.kernel := by
  rw [State.badDepth, State.badDepth, h.sreg rfl]

theorem State.SameReads.misaligned : t.misaligned? l = s.misaligned? l := by
  have huses : t.pointerUses l = s.pointerUses l := by
    rw [State.pointerUses, State.pointerUses, h.usesLhsSums, h.usesRhsSums]
  have hptr : ∀ u ∈ s.pointerUses l, u.2.1 = true → t.ptr u.1 = s.ptr u.1 := by
    simp only [State.pointerUses, List.forall_mem_cons, List.not_mem_nil, false_imp_iff, implies_true, and_true]
    exact ⟨fun _ => h.ptr rfl rfl, fun _ => h.ptr rfl rfl, fun _ => h.ptr rfl rfl, fun _ => h.ptr rfl rfl,
      h.ptr_lhsSums, h.ptr_rhsSums, fun hu => h.ptr_of_usesMultArrays hu _, fun hu => h.ptr_of_usesMultArrays hu _⟩
  rw [State.misaligned?, State.misaligned?, huses]
  refine congrArg _ (List.find?_congr fun u hu => ?_)
  cases hused : u.2.1
  · simp only [Bool.false_and]
  · rw [hptr u hu hused]

theorem State.SameReads.startCheck : t.startCheck l = s.startCheck l := by
  rw [State.startCheck, State.startCheck, h.geometryMask, h.badDepth, h.misaligned, h.get .depth rfl]

theorem State.SameReads.tileReads (cb rb : Nat) : t.tileReads l cb rb = s.tileReads l cb rb := by
  have hside {p : Ptr} {used : Bool} (hp : used = true → t.ptr p = s.ptr p) (first n : Nat) :
      (if used then [(⟨t.sideAddr p first, n⟩ : Interval)] else []) =
        if used then [⟨s.sideAddr p first, n⟩] else [] := by
    cases used
    · simp only [Bool.false_eq_true, if_false]
    · simp only [State.sideAddr, hp rfl]
  simp only [State.tileReads, h.lhsBlk, h.rhsBlk, h.nreg (r := .depth) rfl, h.rowOf, h.colOf, h.residualRows,
    h.residualCols, h.usesLhsSums, h.usesRhsSums, hside fun _ => h.ptr (p := .bias) rfl rfl, hside h.ptr_lhsSums,
    hside h.ptr_rhsSums, hside fun hu => h.ptr_of_usesMultArrays hu .multFpPtr,
    hside fun hu => h.ptr_of_usesMultArrays hu .multExpPtr]

theorem State.SameReads.readFootprint : t.readFootprint l = s.readFootprint l := by
  simp only [State.readFootprint, h.tiles, h.tileReads]

theorem State.SameReads.writeFootprint : t.writeFootprint l = s.writeFootprint l := by
  simp only [State.writeFootprint, State.tileWrites, h.tiles, h.residualRows, h.residualCols, h.rowOf, h.colOf, h.dstAddr]

theorem State.SameReads.aliases : t.aliases l = s.aliases l := by
  rw [State.aliases, State.aliases, h.readFootprint, h.writeFootprint]

theorem State.SameReads.footprintsExist : t.footprintsExist l = s.footprintsExist l := by
  rw [State.footprintsExist, State.footprintsExist, h.readFootprint, h.writeFootprint, h.mem]

theorem State.SameReads.contractStop : t.contractStop l = s.contractStop l := by
  rw [State.contractStop, State.contractStop, h.readFootprint, h.writeFootprint, h.aliases, h.footprintsExist, h.params]

/-! ### The stages of a tile (R407, R900) -/

theorem State.SameReads.sideVec {p : Ptr} {used : Bool} (hp : used = true → t.ptr p = s.ptr p) (first n : Nat) :
    t.sideVec? p used first n = s.sideVec? p used first n := by
  refine congrArg Oct.all? (funext fun i => ?_)
  cases used
  · rfl
  · simp only [State.sideLane?, State.sideWord?, State.sideAddr, hp rfl, h.mem]

theorem State.SameReads.tileStart (cb rb : Nat) : t.tileStart? l cb rb = s.tileStart? l cb rb := by
  simp only [State.tileStart?, h.residualRows, h.residualCols, h.rowOf, h.colOf, h.usesLhsSums, h.usesRhsSums, h.params,
    h.sideVec fun _ => h.ptr (p := .bias) rfl rfl, h.sideVec h.ptr_lhsSums, h.sideVec h.ptr_rhsSums]
  obtain ⟨d | _, f⟩ := l
  · rw [h.sreg rfl, h.sreg rfl, h.sreg rfl]
  · rfl

theorem State.SameReads.tileDepths (cb rb n : Nat) (acc : Tile Word) :
    t.tileDepths? l cb rb n acc = s.tileDepths? l cb rb n acc := by
  have hstep : t.tileDepth? l cb rb = s.tileDepth? l cb rb := by
    funext k a
    simp only [State.tileDepth?, State.accumulateChunk?, State.accumulateStepF?, State.chunk?, State.quad?,
      State.floatStep?, h.lhsBlk, h.rhsBlk, h.params, h.mem]
  induction n with
  | zero => rfl
  | succ n ih => rw [State.tileDepths?, State.tileDepths?, ih, hstep]

/-- MVEC and EVEC, where the kernel reads the multiplier registers. -/
theorem State.SameReads.scaleVec (hr : ∀ r, l.kernel.readsReg r = true) (p : Ptr) (scalar : DescReg) (row rr : Nat) :
    t.scaleVec? l p scalar row rr = s.scaleVec? l p scalar row rr := by
  refine congrArg Oct.all? (funext fun r => ?_)
  simp only [State.scaleLane?, State.sideLane?, State.sideWord?, State.sideAddr, h.ptr (hr p.lo) (hr p.hi),
    h.get scalar (hr scalar), h.mem]

theorem State.SameReads.tileScale (rb : Nat) (acc : Tile Word) : t.tileScale? l rb acc = s.tileScale? l rb acc := by
  unfold State.tileScale?
  split
  · rfl
  · rename_i d hd hk
    have hr : ∀ r, l.kernel.readsReg r = true := fun r => hk ▸ Kernel.readsReg_of_ne_i32 hd r
    simp only [h.scaleVec hr, h.rowOf, h.residualRows, h.params]
  · rfl

theorem State.SameReads.elementBits (acc : Word) (y : Int) : t.elementBits l acc y = s.elementBits l acc y := by
  obtain ⟨d | _, f⟩ := l
  · simp only [State.elementBits, State.quantValue, State.zeroPointed, h.sreg (r := .dstZp) rfl, h.sreg (r := .clampMin) rfl,
      h.sreg (r := .clampMax) rfl, h.params]
  · rw [State.elementBits, State.elementBits, h.params, h.get .clampMin rfl, h.get .clampMax rfl]

theorem State.SameReads.tileStores (cb rb : Nat) (acc : Tile Word) (y : Tile Int) :
    t.tileStores l cb rb acc y = s.tileStores l cb rb acc y := by
  simp only [State.tileStores, State.validCells, State.elementStore, h.residualRows, h.residualCols, h.rowOf, h.colOf,
    h.dstAddr, h.elementBits]

/-- The element writes of a command depend on its parameters, on memory and on the registers its kernel reads alone. -/
theorem State.SameReads.kernelRun : t.kernelRun? l = s.kernelRun? l := by
  have htile (cb rb : Nat) : t.tileRun? l cb rb = s.tileRun? l cb rb := by
    simp only [State.tileRun?, h.tileStart, h.tileDepths, h.depthSteps, h.tileScale, h.tileStores]
  have htiles (ts : List (Nat × Nat)) : t.tilesRun? l ts = s.tilesRun? l ts := by
    induction ts with
    | nil => rfl
    | cons x ts ih => rw [State.tilesRun?, State.tilesRun?, ih, htile, h.mem]
  rw [State.kernelRun?, State.kernelRun?, htiles, h.tiles]

end

/-! ### The command -/

theorem State.runCommand_of_kernelRun {s : State} {l : Latch} {ws : List Store} (hb : s.status.busy = false)
    (hc : s.startCheck l = none) (hs : s.contractStop l = none) (hk : s.kernelRun? l = some ws) :
    s.runCommand l = .next ((s.accept l).complete ws) := by
  simp [State.runCommand, State.command, State.runKernel, hb, hc, hs, hk]

/-- On a descriptor that agrees in the registers its kernel reads, a command does what it does, and leaves that descriptor. -/
theorem State.SameReads.runCommand {l : Latch} {s t : State} {d : Descriptor}
    (h : State.SameReads l.kernel s { s with desc := d }) (hrun : s.runCommand l = .next t) :
    State.runCommand { s with desc := d } l = .next { t with desc := d } := by
  rcases State.runCommand_next hrun with ⟨hb, rfl⟩ | ⟨hb, c, info, hc, rfl⟩ | ⟨hb, hc, hs, ws, hk, rfl⟩
  · exact if_pos hb
  · exact State.runCommand_of_startCheck hb (h.startCheck.trans hc)
  · exact State.runCommand_of_kernelRun hb (h.startCheck.trans hc) (h.contractStop.trans hs) (h.kernelRun.trans hk)

/-- No command changes the descriptor. -/
theorem exec_desc {i : Instr} {s t : State} (h : exec i s = .next t) : t.desc = s.desc := by
  rcases exec_next h with
    ⟨-, rfl⟩ | ⟨-, -, rfl⟩ | ⟨-, -, rfl⟩ | ⟨-, l, -, c, w, -, rfl⟩ | ⟨-, l, -, -, -, ws, -, rfl⟩ <;> rfl

end Sys2Proof.Machine
end

section
/-! The statement about 45_float.md: O52. -/

namespace Sys2Proof

theorem fields_encode_gemmFF32 (f : Flags) :
    reservedField (encode (.gemmFF32 f)) = 0#20 ∧ opField (encode (.gemmFF32 f)) = 2#4 ∧
      flagsField (encode (.gemmFF32 f)) = f := by
  obtain ⟨bias, lsums, rsums, perch⟩ := f
  revert bias lsums rsums perch
  decide

/-- The word of a gemmFF32 term with a sums or the per-channel flag is no command (R301, R305). -/
theorem decode_encode_gemmFF32_of_not_floatLegal {f : Flags} (hf : f.floatLegal = false) :
    decode (encode (.gemmFF32 f)) = .error (.illegalCmd (encode (.gemmFF32 f))) := by
  obtain ⟨hreserved, hop, hflags⟩ := fields_encode_gemmFF32 f
  exact decode_float_flags hreserved hop (by rw [hflags, hf])

end Sys2Proof

namespace Sys2Proof.Machine

/-- gemmFF32 on a descriptor that agrees in the registers the float kernel reads, its flags legal or not. -/
theorem exec_gemmFF32_of_sameReads {f : Flags} {s t : State} {d : Descriptor}
    (h : State.SameReads .float s { s with desc := d }) (hrun : exec (.gemmFF32 f) s = .next t) :
    exec (.gemmFF32 f) { s with desc := d } = .next { t with desc := d } := by
  simp only [exec, execGemmFF32] at hrun ⊢
  split_ifs at hrun ⊢
  · cases hrun; rfl
  · exact State.SameReads.runCommand h hrun
  · cases hrun; rfl

/-- Settles O52: the float kernel reads none of the listed registers, so a command does the same whatever they hold. -/
theorem floatIgnoresIntegerRegisters : Obligations.FloatIgnoresIntegerRegisters := by
  intro s t f v r hr
  refine ⟨fun hrun => ?unread, fun hflag => ?illegal⟩
  case unread =>
    have hunread : Kernel.readsReg .float r = false := by
      revert r
      decide
    rw [exec_desc hrun]
    exact exec_gemmFF32_of_sameReads (State.sameReads_set hunread s v) hrun
  case illegal =>
    refine decode_encode_gemmFF32_of_not_floatLegal ?_
    rcases hflag with h | h | h <;> simp [Flags.floatLegal, h]

end Sys2Proof.Machine
end

section
/-! What a step leaves of STATUS (R1000 to R1005, R108): the register a bus access reached, read back from the access; what
a CMD write keeps of WERR; and the one law of a step, by which DONE, ERR and WERR hold but for the clearing inputs. -/

namespace Sys2Proof.Machine

/-! ### The register an access reached (R100, R101) -/

theorem State.eq_of_target_register {s : State} {addr n offset : Nat} (h : s.target addr n = .register offset) :
    addr = s.params.base + offset ∧ n = 4 := by
  unfold State.target at h
  split_ifs at h with _ _ _ hreg
  obtain ⟨hlo, hn, -⟩ := hreg
  cases h
  exact ⟨by omega, hn⟩

theorem offset_of_regAt_cmd {offset : Nat} (h : regAt offset = .cmd) : offset = 0x008 := by
  unfold regAt at h
  split_ifs at h with _ _ hcmd
  · exact hcmd
  · split at h <;> cases h

theorem offset_of_regAt_status {offset : Nat} (h : regAt offset = .status) : offset = 0x00C := by
  unfold regAt at h
  split_ifs at h with _ _ _ hstatus
  · exact hstatus
  · split at h <;> cases h

/-- Only a 32-bit write at CMD's offset is a command word. -/
theorem State.eq_of_busWrite_command {s : State} {agent addr n v : Nat} {w : Word}
    (h : s.busWrite agent addr n v = .command w) :
    addr = s.params.base + 0x008 ∧ n = 4 ∧ w = BitVec.ofNat 32 v := by
  unfold State.busWrite at h
  split at h
  case h_1 offset htarget =>
    obtain ⟨haddr, hn⟩ := State.eq_of_target_register htarget
    split_ifs at h
    split at h
    · rename_i hcmd
      cases h
      exact ⟨offset_of_regAt_cmd hcmd ▸ haddr, hn, rfl⟩
    · cases h
  case h_3 => split_ifs at h
  all_goals cases h

/-- Every other bus write that goes through writes a register or memory. -/
theorem State.busWrite_next {s t : State} {agent addr n v : Nat} (h : s.busWrite agent addr n v = .done (.next t)) :
    (∃ offset, addr = s.params.base + offset ∧ n = 4 ∧ t = s.writeReg agent (BitVec.ofNat 32 v) (regAt offset)) ∨
    (∃ m, t = { s with mem := m }) := by
  unfold State.busWrite at h
  split at h
  case h_1 offset htarget =>
    obtain ⟨haddr, hn⟩ := State.eq_of_target_register htarget
    split_ifs at h
    · cases h
    · split at h
      · cases h
      · cases h
        exact .inl ⟨offset, haddr, hn, rfl⟩
  case h_3 =>
    split_ifs at h
    · cases h
    · cases h
      exact .inr ⟨_, rfl⟩
  all_goals cases h

/-! ### The status bits that hold (R1002) -/

/-- DONE, ERR and WERR are each 1 in `b` where they are 1 in `a`. -/
structure Status.HeldIn (a b : Status) : Prop where
  done : a.done = true → b.done = true
  err : a.err = true → b.err = true
  werr : a.werr = true → b.werr = true

theorem Status.HeldIn.refl (a : Status) : a.HeldIn a := ⟨id, id, id⟩

theorem State.heldIn_dropWrite (s : State) : s.status.HeldIn s.dropWrite.status := ⟨id, id, fun _ => rfl⟩

/-- No register write but STATUS's clears a status bit. -/
theorem State.heldIn_writeReg (s : State) (agent : Nat) (v : Word) {r : RegName} (hr : r ≠ .status) :
    s.status.HeldIn (s.writeReg agent v r).status := by
  cases r with
  | status => exact absurd rfl hr
  | desc r =>
    cases hb : s.status.busy with
    | true =>
      rw [State.writeReg_desc_busy hb]
      exact s.heldIn_dropWrite
    | false =>
      rw [State.writeReg_desc_idle hb]
      exact .refl _
  | _ => exact .refl _

/-- A STATUS write clears a bit only where its word has a 1 (R108). -/
theorem Status.write_holds_or_bit (a : Status) (v : Word) :
    (a.done = true → (a.write v).done = true ∨ v.getLsbD 1 = true) ∧
    (a.err = true → (a.write v).err = true ∨ v.getLsbD 2 = true) ∧
    (a.werr = true → (a.write v).werr = true ∨ v.getLsbD 3 = true) := by
  have held (bit : Bool) : (true && !bit) = true ∨ bit = true := by cases bit <;> decide
  refine ⟨fun hs => ?_, fun hs => ?_, fun hs => ?_⟩ <;> rw [Status.write, hs] <;> exact held _

/-- The engine clears no status bit: completion sets DONE and leaves ERR and WERR (R1001). -/
theorem State.heldIn_engineStep {s t : State} (h : s.engineStep? = some t) : s.status.HeldIn t.status := by
  obtain ⟨e, rfl, -⟩ | ⟨ws, rfl⟩ := State.engineStep_cases h
  · exact .refl _
  · exact ⟨fun _ => rfl, id, id⟩

theorem State.heldIn_engineTurn (s : State) : s.status.HeldIn s.engineTurn.status := by
  unfold State.engineTurn
  split_ifs
  · cases h : s.engineStep? with
    | none => exact .refl _
    | some t => exact State.heldIn_engineStep h
  · exact .refl _

/-- A bus read changes no status bit. -/
theorem State.busRead_status {s t : State} {addr n : Nat} (h : s.busRead addr n = .next t) : t.status = s.status := by
  unfold State.busRead at h
  split at h
  case h_3 =>
    split at h
    · cases h; rfl
    · cases h
  all_goals cases h
  rfl

/-! ### A CMD write (R406, R1000) -/

/-- A CMD write of a command's word, while idle. -/
theorem State.cmdWrite_ok {s : State} (hb : s.status.busy = false) {w : Word} {i : Instr} (hi : decode w = .ok i)
    (run : Instr → State → Host.Outcome State Fault Refusal) : s.cmdWrite w run = run i { s with owner := none } := by
  simp [State.cmdWrite, hb, hi]

theorem exec_nop_idle {s : State} (hb : s.status.busy = false) : exec .nop s = .next s := by
  simp [exec, execNop, hb]

theorem beginInstr_nop_idle {s : State} (hb : s.status.busy = false) : beginInstr .nop s = .next s := by
  simp [beginInstr, Instr.wellFormed, Instr.latch, hb]

/-- No meaning clears WERR. -/
theorem exec_keeps_werr {i : Instr} {s t : State} (h : exec i s = .next t) (hw : s.status.werr = true) :
    t.status.werr = true := by
  obtain ⟨-, rfl⟩ | ⟨-, -, rfl⟩ | ⟨-, -, rfl⟩ | ⟨-, l, -, c, w, -, rfl⟩ | ⟨-, l, -, -, -, ws, -, rfl⟩ := exec_next h
  · rfl
  all_goals exact hw

/-- What the acceptance of a command can leave when it answers a next state. -/
theorem State.beginCommand_next {s t : State} {l : Latch} (h : s.beginCommand l = .next t) :
    (s.status.busy = true ∧ t = s.dropWrite) ∨
    (s.status.busy = false ∧ ∃ c info, s.startCheck l = some (c, info) ∧ t = (s.accept l).raiseError c info) ∨
    (s.status.busy = false ∧ s.startCheck l = none ∧ s.contractStop l = none ∧ t = s.accept l) := by
  unfold State.beginCommand at h
  obtain ⟨hb, h'⟩ | ⟨hb, c, info, hc, h'⟩ | ⟨-, -, o, ho, h'⟩ | ⟨hb, hc, hs, h'⟩ := s.command_cases l .next <;>
    rw [h'] at h
  · cases h
    exact .inl ⟨hb, rfl⟩
  · cases h
    exact .inr (.inl ⟨hb, c, info, hc, rfl⟩)
  · exact absurd (h ▸ ho) State.contractStop_not_next
  · cases h
    exact .inr (.inr ⟨hb, hc, hs, rfl⟩)

/-- Nor does a start. -/
theorem beginInstr_keeps_werr {i : Instr} {s t : State} (h : beginInstr i s = .next t) (hw : s.status.werr = true) :
    t.status.werr = true := by
  unfold beginInstr at h
  split_ifs at h
  · cases h
    rfl
  · split at h
    · cases h
      exact hw
    · obtain ⟨-, rfl⟩ | ⟨-, c, info, -, rfl⟩ | ⟨-, -, -, rfl⟩ := State.beginCommand_next h
      · rfl
      all_goals exact hw
  · cases h
    exact hw

/-- A CMD write that clears a status bit is of a word other than 0 on an idle block, and keeps WERR. -/
theorem State.heldIn_cmdWrite {s t : State} {w : Word} {run : Instr → State → Host.Outcome State Fault Refusal}
    (hnop : ∀ {s : State}, s.status.busy = false → run .nop s = .next s)
    (hwerr : ∀ {i : Instr} {s t : State}, run i s = .next t → s.status.werr = true → t.status.werr = true)
    (h : s.cmdWrite w run = .next t) :
    s.status.HeldIn t.status ∨
      (s.status.busy = false ∧ w ≠ 0#32 ∧ (s.status.werr = true → t.status.werr = true)) := by
  cases hb : s.status.busy with
  | true =>
    rw [State.cmdWrite_busy hb] at h
    cases h
    exact .inl s.heldIn_dropWrite
  | false =>
    by_cases hw : w = 0#32
    · subst hw
      rw [State.cmdWrite_ok hb decode_zero, hnop (s := { s with owner := none }) hb] at h
      cases h
      exact .inl (.refl _)
    · refine .inr ⟨rfl, hw, fun hs => ?_⟩
      cases hd : decode w with
      | ok i => exact hwerr ((State.cmdWrite_ok hb hd run).symm.trans h) hs
      | error e =>
        rw [State.cmdWrite_error hb hd] at h
        cases h
        exact hs

/-! ### A step (R1002) -/

/-- What one input leaves of the status bits: they hold, or the input is reset, a STATUS write, or a CMD write of a word
other than 0 on an idle block, which keeps WERR. -/
theorem State.take_status {s t : State} {i : Input} (h : s.take i = .next t) :
    s.status.HeldIn t.status ∨ i = .reset ∨
    (∃ agent v, i = .write agent (s.params.base + 0x00C) 4 v ∧ t.status = s.status.write (BitVec.ofNat 32 v)) ∨
    (s.status.busy = false ∧ (s.status.werr = true → t.status.werr = true) ∧ ∃ agent v, BitVec.ofNat 32 v ≠ 0#32 ∧
      (i = .write agent (s.params.base + 0x008) 4 v ∨ i = .start agent (BitVec.ofNat 32 v))) := by
  cases i with
  | write agent addr n v =>
    simp only [State.take] at h
    cases hbus : s.busWrite agent addr n v with
    | command w =>
      rw [hbus] at h
      obtain ⟨rfl, rfl, rfl⟩ := State.eq_of_busWrite_command hbus
      obtain hheld | ⟨hb, hw, hwerr⟩ := State.heldIn_cmdWrite exec_nop_idle exec_keeps_werr h
      · exact .inl hheld
      · exact .inr (.inr (.inr ⟨hb, hwerr, agent, v, hw, .inl rfl⟩))
    | done o =>
      rw [hbus] at h
      subst h
      obtain ⟨offset, rfl, rfl, rfl⟩ | ⟨m, rfl⟩ := State.busWrite_next hbus
      · by_cases hr : regAt offset = .status
        · obtain rfl := offset_of_regAt_status hr
          exact .inr (.inr (.inl ⟨agent, v, rfl, rfl⟩))
        · exact .inl (s.heldIn_writeReg agent _ hr)
      · exact .inl (.refl _)
  | start agent w =>
    simp only [State.take] at h
    split_ifs at h
    obtain hheld | ⟨hb, hw, hwerr⟩ := State.heldIn_cmdWrite beginInstr_nop_idle beginInstr_keeps_werr h
    · exact .inl hheld
    · exact .inr (.inr (.inr ⟨hb, hwerr, agent, w.toNat, by simpa using hw, .inr (by simp)⟩))
  | read agent addr n => exact .inl (State.busRead_status h ▸ .refl _)
  | engine =>
    cases h
    exact .inl s.heldIn_engineTurn
  | reset => exact .inr (.inl rfl)

/-- With no input left no status bit is cleared. -/
theorem step_heldIn_of_no_inputs {s t : State} (hin : s.inputs = []) (h : step s = .next t) :
    s.status.HeldIn t.status := by
  simp only [step, hin] at h
  split_ifs at h
  · cases he : s.engineStep? with
    | none => rw [he] at h; cases h
    | some u =>
      rw [he] at h
      cases h
      exact State.heldIn_engineStep he
  · cases h
    exact .refl _

theorem step_eq_take {s : State} {i : Input} {rest : List Input} (hin : s.inputs = i :: rest) :
    step s = State.take { s with inputs := rest } i := by
  simp only [step, hin]

/-! ### The interrupt line (R1007) -/

/-- STATUS bit by bit (R108). -/
theorem Status.toWord_bits (s : Status) :
    s.toWord.getLsbD 0 = s.busy ∧ s.toWord.getLsbD 1 = s.done ∧ s.toWord.getLsbD 2 = s.err ∧
      s.toWord.getLsbD 3 = s.werr := by
  obtain ⟨busy, done, err, werr⟩ := s
  cases busy <;> cases done <;> cases err <;> cases werr <;> decide

theorem State.irq_iff (s : State) :
    s.irq = true ↔ (s.status.done = true ∧ s.irqEn.doneIe = true) ∨ (s.status.err = true ∧ s.irqEn.errIe = true) ∨
      (s.status.werr = true ∧ s.irqEn.werrIe = true) := by
  simp only [State.irq, Bool.or_eq_true, Bool.and_eq_true, or_assoc]

/-- IRQ in the bits of the two registers as the host reads them. -/
theorem State.irq_iff_exists_bit (s : State) :
    s.irq = true ↔ ∃ n, 1 ≤ n ∧ n ≤ 3 ∧ s.status.toWord.getLsbD n = true ∧ s.irqEn.toWord.getLsbD n = true := by
  obtain ⟨-, hdone, herr, hwerr⟩ := s.status.toWord_bits
  obtain ⟨-, hdoneIe, herrIe, hwerrIe⟩ := s.irqEn.toWord_bits
  rw [s.irq_iff]
  constructor
  · rintro (⟨hs, he⟩ | ⟨hs, he⟩ | ⟨hs, he⟩)
    · exact ⟨1, by decide, by decide, hdone.trans hs, hdoneIe.trans he⟩
    · exact ⟨2, by decide, by decide, herr.trans hs, herrIe.trans he⟩
    · exact ⟨3, by decide, by decide, hwerr.trans hs, hwerrIe.trans he⟩
  · rintro ⟨n, hlo, hhi, hs, he⟩
    obtain rfl | rfl | rfl : n = 1 ∨ n = 2 ∨ n = 3 := by omega
    · exact .inl ⟨hdone.symm.trans hs, hdoneIe.symm.trans he⟩
    · exact .inr (.inl ⟨herr.symm.trans hs, herrIe.symm.trans he⟩)
    · exact .inr (.inr ⟨hwerr.symm.trans hs, hwerrIe.symm.trans he⟩)

theorem State.irq_of_no_status {s : State} (hd : s.status.done = false) (he : s.status.err = false)
    (hw : s.status.werr = false) : s.irq = false := by
  simp [State.irq, hd, he, hw]

theorem State.irq_of_no_enable {s : State} (h : s.irqEn = ⟨false, false, false⟩) : s.irq = false := by
  simp [State.irq, h]

/-- Acceptance clears DONE and ERR, so an enabled WERR alone holds the line (R1000, R1007). -/
theorem State.irq_accept (s : State) (l : Latch) :
    (s.accept l).irq = true ↔ s.status.werr = true ∧ s.irqEn.werrIe = true := by
  simp [State.irq_iff]

end Sys2Proof.Machine
end

section
/-! The statements about 60_exceptions.md: O9 and O14. -/

namespace Sys2Proof.Machine

/-- Settles O9: an input keeps the status bits but for the clearing ones of `State.take_status`; a STATUS write clears a bit
only where its word has a 1. -/
theorem statusBitsHoldUntilCleared : Obligations.StatusBitsHoldUntilCleared := by
  intro s t h
  cases hin : s.inputs with
  | nil =>
    obtain ⟨hdone, herr, hwerr⟩ := step_heldIn_of_no_inputs hin h
    exact ⟨fun hs => .inl (hdone hs), fun hs => .inl (herr hs), fun hs => .inl (hwerr hs)⟩
  | cons i rest =>
    obtain ⟨hdone, herr, hwerr⟩ | rfl | ⟨agent, v, rfl, ht⟩ | ⟨hb, hwerr, agent, v, hv, hi⟩ :=
      State.take_status ((step_eq_take hin).symm.trans h)
    · exact ⟨fun hs => .inl (hdone hs), fun hs => .inl (herr hs), fun hs => .inl (hwerr hs)⟩
    · exact ⟨fun _ => .inr (.inl ⟨rest, rfl⟩), fun _ => .inr (.inl ⟨rest, rfl⟩), fun _ => .inr (.inl ⟨rest, rfl⟩)⟩
    · obtain ⟨hdone, herr, hwerr⟩ := s.status.write_holds_or_bit (BitVec.ofNat 32 v)
      rw [ht]
      exact ⟨fun hs => (hdone hs).imp_right fun hbit => .inr (.inl ⟨agent, v, rest, rfl, hbit⟩),
        fun hs => (herr hs).imp_right fun hbit => .inr (.inl ⟨agent, v, rest, rfl, hbit⟩),
        fun hs => (hwerr hs).imp_right fun hbit => .inr ⟨agent, v, rest, rfl, hbit⟩⟩
    · have haccepts : ∃ agent v rest', BitVec.ofNat 32 v ≠ 0#32 ∧
          (i :: rest = .write agent (s.params.base + 0x008) 4 v :: rest' ∨
            i :: rest = .start agent (BitVec.ofNat 32 v) :: rest') :=
        ⟨agent, v, rest, hv, hi.imp (congrArg (· :: rest)) (congrArg (· :: rest))⟩
      exact ⟨fun _ => .inr (.inr (.inr ⟨hb, haccepts⟩)), fun _ => .inr (.inr (.inr ⟨hb, haccepts⟩)),
        fun hs => .inl (hwerr hs)⟩

/-- Settles O14: IRQ by its three terms, each a bit of the two registers, and an IRQ_EN write by its bits. -/
theorem interruptLineIsEnabledStatus : Obligations.InterruptLineIsEnabledStatus := by
  intro s
  refine ⟨s.irq_iff_exists_bit, fun agent => ?statusWrite, fun agent => State.irq_of_no_enable rfl, s.irq_accept,
    State.irq_of_no_enable rfl, rfl, rfl, fun agent v rest hf hin => ?irqEnWrite⟩
  case statusWrite =>
    exact State.irq_of_no_status (Bool.and_false _) (Bool.and_false _) (Bool.and_false _)
  case irqEnWrite =>
    refine ⟨_, step_writeRegister hin hf (r := .irqEn) (by decide) (by decide) rfl nofun, rfl, ?_⟩
    rw [BitVec.ofNat_toNat, BitVec.setWidth_eq]
    exact IrqEn.getLsbD_toWord_ofWord v

end Sys2Proof.Machine
end

section
/-! What a step leaves of a running command (R103, R142, R1114): its descriptor, and its latch while it goes on. -/

namespace Sys2Proof.Machine

/-- From `s` to `t` the descriptor stays, and the command latch too unless the command has ended. -/
structure State.KeepsCommand (s t : State) : Prop where
  desc : t.desc = s.desc
  latch : t.status.busy = true → t.engine.latch = s.engine.latch

theorem State.KeepsCommand.of_eq {s t : State} (hd : t.desc = s.desc) (he : t.engine = s.engine) : s.KeepsCommand t :=
  ⟨hd, fun _ => congrArg Engine.latch he⟩

theorem State.keepsCommand_dropWrite (s : State) : s.KeepsCommand s.dropWrite := .of_eq rfl rfl

theorem State.keepsCommand_writeReg {s : State} (hb : s.status.busy = true) (agent : Nat) (v : Word) (r : RegName) :
    s.KeepsCommand (s.writeReg agent v r) := by
  cases r with
  | desc r =>
    rw [State.writeReg_desc_busy hb]
    exact s.keepsCommand_dropWrite
  | _ => exact .of_eq rfl rfl

theorem State.keepsCommand_cmdWrite {s t : State} (hb : s.status.busy = true) {w : Word}
    {run : Instr → State → Host.Outcome State Fault Refusal} (h : s.cmdWrite w run = .next t) : s.KeepsCommand t := by
  rw [State.cmdWrite_busy hb] at h
  cases h
  exact s.keepsCommand_dropWrite

/-- A bus read leaves everything but the bus value and the draws. -/
theorem State.busRead_next {s t : State} {addr n : Nat} (h : s.busRead addr n = .next t) :
    ∃ v d, t = { s with busData := v, draws := d } := by
  unfold State.busRead at h
  split at h
  case h_1 => cases h; exact ⟨_, s.draws, rfl⟩
  case h_3 =>
    split at h
    · cases h; exact ⟨_, _, rfl⟩
    · cases h
  all_goals cases h

/-- The engine changes its latch only where it stops, at completion (R142, R1001). -/
theorem State.keepsCommand_engineStep {s t : State} (h : s.engineStep? = some t) : s.KeepsCommand t := by
  obtain ⟨e, rfl, he⟩ | ⟨ws, rfl⟩ := State.engineStep_cases h
  · exact ⟨rfl, fun _ => he⟩
  · exact ⟨rfl, nofun⟩

theorem State.keepsCommand_engineTurn (s : State) : s.KeepsCommand s.engineTurn := by
  unfold State.engineTurn
  split_ifs
  · cases h : s.engineStep? with
    | none => exact .of_eq rfl rfl
    | some t => exact State.keepsCommand_engineStep h
  · exact .of_eq rfl rfl

/-- While BUSY every input but reset keeps the command. -/
theorem State.keepsCommand_take {s t : State} {i : Input} (hb : s.status.busy = true) (hi : i ≠ .reset)
    (h : s.take i = .next t) : s.KeepsCommand t := by
  cases i with
  | write agent addr n v =>
    simp only [State.take] at h
    cases hbus : s.busWrite agent addr n v with
    | command w =>
      rw [hbus] at h
      exact State.keepsCommand_cmdWrite hb h
    | done o =>
      rw [hbus] at h
      subst h
      obtain ⟨offset, -, -, rfl⟩ | ⟨m, rfl⟩ := State.busWrite_next hbus
      · exact State.keepsCommand_writeReg hb agent _ _
      · exact .of_eq rfl rfl
  | start agent w =>
    simp only [State.take] at h
    split_ifs at h
    exact State.keepsCommand_cmdWrite hb h
  | read agent addr n =>
    obtain ⟨v, d, rfl⟩ := State.busRead_next h
    exact .of_eq rfl rfl
  | engine =>
    cases h
    exact s.keepsCommand_engineTurn
  | reset => exact absurd rfl hi

/-- With no input left, a running block's step is the engine's. -/
theorem step_busy_of_no_inputs {s t : State} (hin : s.inputs = []) (hb : s.status.busy = true) (h : step s = .next t) :
    s.engineStep? = some t := by
  simp only [step, hin, if_pos hb] at h
  cases he : s.engineStep? with
  | none => rw [he] at h; cases h
  | some u => rw [he] at h; cases h; rfl

end Sys2Proof.Machine
end

section
/-! The statement about 70_reset_and_hazards.md: O55. -/

namespace Sys2Proof.Machine

/-- Settles O55: each input but reset, and the engine's own step, keeps the running command's descriptor and latch. -/
theorem descriptorIsImmutableWhileBusy : Obligations.DescriptorIsImmutableWhileBusy := by
  intro s t hb h hreset
  cases hin : s.inputs with
  | nil =>
    have hkeeps : s.KeepsCommand t := State.keepsCommand_engineStep (step_busy_of_no_inputs hin hb h)
    exact ⟨hkeeps.desc, hkeeps.latch⟩
  | cons i rest =>
    have hi : i ≠ .reset := fun hi => hreset rest (hi ▸ hin)
    have htake : State.take { s with inputs := rest } i = .next t := (step_eq_take hin).symm.trans h
    have hkeeps : State.KeepsCommand { s with inputs := rest } t := State.keepsCommand_take hb hi htake
    exact ⟨hkeeps.desc, hkeeps.latch⟩

end Sys2Proof.Machine
end

section
/-! The statement about the encoder of 30_encoding.md section 2: O2. A command's word holds the fields the decoder reads. -/

namespace Sys2Proof

theorem fields_encode_quantInstr (d : QDst) (f : Flags) :
    reservedField (encode (Machine.quantInstr d f)) = 0#20 ∧ opField (encode (Machine.quantInstr d f)) = 1#4 ∧
      dstField (encode (Machine.quantInstr d f)) = d.code ∧ flagsField (encode (Machine.quantInstr d f)) = f := by
  obtain ⟨bias, lsums, rsums, perch⟩ := f
  cases d <;> revert bias lsums rsums perch <;> decide

theorem decode_encode_quantInstr (d : QDst) (f : Flags) :
    decode (encode (Machine.quantInstr d f)) = .ok (Machine.quantInstr d f) := by
  obtain ⟨hreserved, hop, hdst, hflags⟩ := fields_encode_quantInstr d f
  rw [decode_quant hreserved hop hdst, hflags]

theorem dstField_encode_gemmFF32 (f : Flags) : dstField (encode (.gemmFF32 f)) = 0#4 := by
  obtain ⟨bias, lsums, rsums, perch⟩ := f
  revert bias lsums rsums perch
  decide

/-- The word of a gemmFF32 term with legal flags is its own (R301, R305). -/
theorem decode_encode_gemmFF32_of_floatLegal {f : Flags} (hf : f.floatLegal = true) :
    decode (encode (.gemmFF32 f)) = .ok (.gemmFF32 f) := by
  obtain ⟨hreserved, hop, hflags⟩ := fields_encode_gemmFF32 f
  rw [decode_float hreserved hop (by rw [hflags, hf]) (dstField_encode_gemmFF32 f), hflags]

end Sys2Proof

namespace Sys2Proof.Machine

/-- Settles O2: a command's word has the fields from which the decoder's equations give the command back. -/
theorem encodedCommandDecodesBack : Obligations.EncodedCommandDecodesBack := by
  intro i hw
  cases i with
  | nop => exact decode_zero
  | gemmQU8 f => exact decode_encode_quantInstr .u8 f
  | gemmQI8 f => exact decode_encode_quantInstr .i8 f
  | gemmQI16 f => exact decode_encode_quantInstr .i16 f
  | gemmQI32 f => exact decode_encode_quantInstr .i32 f
  | gemmFF32 f => exact decode_encode_gemmFF32_of_floatLegal hw

end Sys2Proof.Machine
end

section
/-! The engine's step, one equation per phase (R407, R434), and what a step leaves of the invariant: STATUS in agreement with
the cause registers (R108, R110, R111), and a running command past its checks with its iterator inside its tiles. -/

namespace Sys2Proof.Machine

/-! ### The engine's step by phase -/

section
variable {s : State}

theorem State.engineStep_start (h : s.engine.phase = .start) :
    s.engineStep? = (s.tileStart? s.engine.latch s.engine.cb s.engine.rb).map fun t =>
      { s with engine := s.engine.takeStart t } := by
  simp only [State.engineStep?, h]

theorem State.engineStep_depth (h : s.engine.phase = .depth) (hk : s.engine.k < s.depthSteps s.engine.latch.kernel) :
    s.engineStep? = (s.tileDepth? s.engine.latch s.engine.cb s.engine.rb s.engine.k s.engine.acc).map fun acc =>
      { s with engine := { s.engine with acc := acc, k := s.engine.k + 1 } } := by
  simp only [State.engineStep?, h, if_pos hk]

theorem State.engineStep_scale (h : s.engine.phase = .depth) (hk : ¬s.engine.k < s.depthSteps s.engine.latch.kernel) :
    s.engineStep? = (s.tileScale? s.engine.latch s.engine.rb s.engine.acc).map fun t =>
      { s with engine := s.engine.takeScaled t } := by
  simp only [State.engineStep?, h, if_neg hk]

theorem State.engineStep_store (h : s.engine.phase = .store) :
    s.engineStep? =
      let ws := s.tileStores s.engine.latch s.engine.cb s.engine.rb s.engine.acc s.engine.y
      if ws.all s.mem.holds then some (s.nextTile ws) else none := by
  simp only [State.engineStep?, h]

end

/-! ### The iterator (R141, R420) -/

/-- The iterator stands inside the command's tiles. -/
structure State.IteratorInside (s : State) (e : Engine) : Prop where
  cb : e.cb < s.colBlocks
  rb : e.rb < s.rowBlocks
  k : e.k ≤ s.depthSteps e.latch.kernel

theorem State.colBlocks_pos (s : State) : 0 < s.colBlocks := Nat.succ_pos _

theorem State.rowBlocks_pos (s : State) : 0 < s.rowBlocks := Nat.succ_pos _

/-- The engine goes on to a tile of the command, or completes it. -/
theorem State.nextTile_cases {s : State} (hin : s.IteratorInside s.engine) (ws : List Store) :
    (∃ e, s.nextTile ws = { s with engine := e } ∧ e.latch = s.engine.latch ∧ s.IteratorInside e) ∨
      s.nextTile ws = s.complete (s.engine.issued ++ ws) := by
  unfold State.nextTile
  dsimp only
  split_ifs with hrb hcb
  · exact .inl ⟨_, rfl, rfl, hin.cb, hrb, Nat.zero_le _⟩
  · exact .inl ⟨_, rfl, rfl, hcb, s.rowBlocks_pos, Nat.zero_le _⟩
  · exact .inr rfl

/-- An engine step changes the engine alone, with the iterator still inside the tiles, or it completes the command. -/
theorem State.engineStep_inside {s t : State} (hin : s.IteratorInside s.engine) (h : s.engineStep? = some t) :
    (∃ e, t = { s with engine := e } ∧ e.latch = s.engine.latch ∧ s.IteratorInside e) ∨ ∃ ws, t = s.complete ws := by
  cases hphase : s.engine.phase with
  | start =>
    rw [State.engineStep_start hphase, Option.map_eq_some_iff] at h
    obtain ⟨first, -, rfl⟩ := h
    exact .inl ⟨_, rfl, Engine.takeStart_latch _ _, by simpa using hin.cb, by simpa using hin.rb, by simp⟩
  | depth =>
    by_cases hk : s.engine.k < s.depthSteps s.engine.latch.kernel
    · rw [State.engineStep_depth hphase hk, Option.map_eq_some_iff] at h
      obtain ⟨acc, -, rfl⟩ := h
      exact .inl ⟨_, rfl, rfl, hin.cb, hin.rb, hk⟩
    · rw [State.engineStep_scale hphase hk, Option.map_eq_some_iff] at h
      obtain ⟨scaled, -, rfl⟩ := h
      exact .inl ⟨_, rfl, Engine.takeScaled_latch _ _, by simpa using hin.cb, by simpa using hin.rb, by simpa using hin.k⟩
  | store =>
    rw [State.engineStep_store hphase] at h
    dsimp only at h
    split_ifs at h
    cases h
    obtain hnext | hdone := State.nextTile_cases hin _
    · exact .inl hnext
    · exact .inr ⟨_, hdone⟩

/-! ### The parts of the invariant -/

/-- DONE and ERR are never both 1 and agree with the cause registers, which are clear while BUSY (R108, R110, R111). -/
structure Status.Agrees (a : Status) (c : Cause) (info : Word) : Prop where
  doneNotErr : a.done = true → a.err = false
  errHasCause : a.err = true → c ≠ .none
  doneNoCause : a.done = true → c = .none
  noCauseNoInfo : c = .none → info = 0
  busyClear : a.busy = true → a.done = false ∧ a.err = false ∧ c = .none

/-- A running command: no host amid programming, the checks passed, the contract kept, the iterator inside the tiles. -/
structure State.InRun (s : State) : Prop where
  owner : s.owner = none
  startCheck : s.startCheck s.engine.latch = none
  contractStop : s.contractStop s.engine.latch = none
  inside : s.IteratorInside s.engine

theorem State.inv_iff (s : State) :
    s.Inv ↔ s.mem.wf = true ∧ s.status.Agrees s.errCause s.errInfo ∧ (s.status.busy = true → s.InRun) := by
  constructor
  · rintro ⟨hmem, hdone, herr, hcause, hinfo, hclear, howner, hchecked, hinside⟩
    refine ⟨hmem, ⟨hdone, herr, hcause, hinfo, hclear⟩, fun hb => ?_⟩
    obtain ⟨hcheck, hstop⟩ := hchecked hb
    obtain ⟨hcb, hrb, hk⟩ := hinside hb
    exact ⟨howner hb, hcheck, Option.isNone_iff_eq_none.mp hstop, hcb, hrb, hk⟩
  · rintro ⟨hmem, ⟨hdone, herr, hcause, hinfo, hclear⟩, hrun⟩
    exact ⟨hmem, hdone, herr, hcause, hinfo, hclear, fun hb => (hrun hb).owner,
      fun hb => ⟨(hrun hb).startCheck, Option.isNone_iff_eq_none.mpr (hrun hb).contractStop⟩,
      fun hb => ⟨(hrun hb).inside.cb, (hrun hb).inside.rb, (hrun hb).inside.k⟩⟩

/-- An idle block has no running command to say anything of. -/
theorem State.inv_of_idle {s : State} (hb : s.status.busy = false) (hm : s.mem.wf = true)
    (ha : s.status.Agrees s.errCause s.errInfo) : s.Inv :=
  s.inv_iff.mpr ⟨hm, ha, fun hbusy => by simp [hb] at hbusy⟩

/-! ### STATUS and the cause registers at each end of a command (R1000, R1001, R1003) -/

theorem Status.agrees_running (w : Bool) : Status.Agrees ⟨true, false, false, w⟩ .none 0 :=
  ⟨nofun, nofun, nofun, fun _ => rfl, fun _ => ⟨rfl, rfl, rfl⟩⟩

theorem Status.agrees_done (w : Bool) : Status.Agrees ⟨false, true, false, w⟩ .none 0 :=
  ⟨fun _ => rfl, nofun, fun _ => rfl, fun _ => rfl, nofun⟩

theorem Status.agrees_error {c : Cause} (hc : c ≠ .none) (w : Bool) (info : Word) :
    Status.Agrees ⟨false, false, true, w⟩ c info :=
  ⟨nofun, fun _ => hc, nofun, fun h => absurd h hc, nofun⟩

theorem Status.agrees_reset : Status.Agrees ⟨false, false, false, false⟩ .none 0 :=
  ⟨nofun, nofun, nofun, fun _ => rfl, nofun⟩

section
variable {a : Status} {c : Cause} {info : Word} (h : a.Agrees c info)
include h

/-- WERR says nothing of causes. -/
theorem Status.Agrees.setWerr (w : Bool) : Status.Agrees { a with werr := w } c info :=
  ⟨h.doneNotErr, h.errHasCause, h.doneNoCause, h.noCauseNoInfo, h.busyClear⟩

/-- A STATUS write only clears DONE and ERR (R108). -/
theorem Status.Agrees.write (v : Word) : (a.write v).Agrees c info := by
  have held {x y : Bool} (hx : (x && !y) = true) : x = true := (Bool.and_eq_true_iff.mp hx).1
  refine ⟨fun hd => ?_, fun he => h.errHasCause (held he), fun hd => h.doneNoCause (held hd), h.noCauseNoInfo,
    fun hb => ?_⟩
  · simp [Status.write, h.doneNotErr (held hd)]
  · obtain ⟨hd, he, hc⟩ := h.busyClear hb
    simp [Status.write, hd, he, hc]

/-- While BUSY the whole STATUS is known but for WERR, and the cause registers are clear. -/
theorem Status.Agrees.eq_running (hb : a.busy = true) : a = ⟨true, false, false, a.werr⟩ ∧ c = .none ∧ info = 0 := by
  obtain ⟨hd, he, hc⟩ := h.busyClear hb
  have heta : a = ⟨a.busy, a.done, a.err, a.werr⟩ := rfl
  rw [hb, hd, he] at heta
  exact ⟨heta, hc, h.noCauseNoInfo hc⟩

end

/-! ### What keeps a command running -/

/-- A running command is a matter of the descriptor, the parameters, which bytes exist, the owner and the engine. -/
theorem State.InRun.congr {s t : State} (h : s.InRun) (hd : t.desc = s.desc) (hp : t.params = s.params)
    (hm : ∀ a, t.mem.has a = s.mem.has a) (ho : t.owner = s.owner) (he : t.engine = s.engine) : t.InRun where
  owner := ho.trans h.owner
  startCheck := by rw [he, State.startCheck_congr hd, h.startCheck]
  contractStop := by rw [he, State.contractStop_congr hd hp hm, h.contractStop]
  inside := by
    rw [he]
    exact ⟨State.colBlocks_congr hd ▸ h.inside.cb, State.rowBlocks_congr hd ▸ h.inside.rb,
      State.depthSteps_congr hd _ ▸ h.inside.k⟩

/-- The engine's own moves keep the command running. -/
theorem State.InRun.setEngine {s : State} (h : s.InRun) {e : Engine} (hl : e.latch = s.engine.latch)
    (hin : s.IteratorInside e) : State.InRun { s with engine := e } := by
  have hd : State.desc { s with engine := e } = s.desc := rfl
  refine ⟨h.owner, (State.startCheck_congr hd e.latch).trans ?_,
    (State.contractStop_congr hd rfl (fun _ => rfl) e.latch).trans ?_, State.colBlocks_congr hd ▸ hin.cb,
    State.rowBlocks_congr hd ▸ hin.rb, State.depthSteps_congr hd _ ▸ hin.k⟩
  · rw [hl, h.startCheck]
  · rw [hl, h.contractStop]

/-- A command that passed its checks is in its run once accepted (R406, R420). -/
theorem State.inRun_accept {s : State} {l : Latch} (ho : s.owner = none) (hc : s.startCheck l = none)
    (hs : s.contractStop l = none) : (s.accept l).InRun where
  owner := ho
  startCheck := (State.startCheck_accept s l l).trans hc
  contractStop := (State.contractStop_accept s l l).trans hs
  inside := ⟨s.colBlocks_pos, s.rowBlocks_pos, Nat.zero_le _⟩

end Sys2Proof.Machine
end

section
/-! Every input keeps the invariant, and the statements about it: O59 and O60. -/

namespace Sys2Proof.Machine

/-- The invariant asks of memory its form and which bytes exist, and nothing of the host interface. -/
theorem State.Inv.congr {s t : State} (h : s.Inv) (hst : t.status = s.status) (hc : t.errCause = s.errCause)
    (hi : t.errInfo = s.errInfo) (hd : t.desc = s.desc) (hp : t.params = s.params) (ho : t.owner = s.owner)
    (he : t.engine = s.engine) (hwf : t.mem.wf = s.mem.wf) (hm : ∀ a, t.mem.has a = s.mem.has a) : t.Inv := by
  obtain ⟨hmem, hagrees, hrun⟩ := s.inv_iff.mp h
  refine t.inv_iff.mpr ⟨hwf.trans hmem, ?_, fun hb => (hrun (hst ▸ hb)).congr hd hp hm ho he⟩
  rw [hst, hc, hi]
  exact hagrees

theorem State.Inv.setInputs {s : State} (h : s.Inv) (is : List Input) : State.Inv { s with inputs := is } :=
  h.congr rfl rfl rfl rfl rfl rfl rfl rfl fun _ => rfl

section
variable {s : State} (h : s.Inv)
include h

theorem State.Inv.dropWrite : s.dropWrite.Inv := by
  obtain ⟨hmem, hagrees, hrun⟩ := s.inv_iff.mp h
  exact s.dropWrite.inv_iff.mpr
    ⟨hmem, hagrees.setWerr true, fun hb => (hrun hb).congr rfl rfl (fun _ => rfl) rfl rfl⟩

theorem State.Inv.writeReg (agent : Nat) (v : Word) (r : RegName) : (s.writeReg agent v r).Inv := by
  obtain ⟨hmem, hagrees, hrun⟩ := s.inv_iff.mp h
  cases r with
  | status =>
    exact State.inv_iff _ |>.mpr
      ⟨hmem, hagrees.write v, fun hb => (hrun hb).congr rfl rfl (fun _ => rfl) rfl rfl⟩
  | desc r =>
    cases hb : s.status.busy with
    | true =>
      rw [State.writeReg_desc_busy hb]
      exact h.dropWrite
    | false =>
      rw [State.writeReg_desc_idle hb]
      exact State.inv_of_idle hb hmem hagrees
  | _ => exact h.congr rfl rfl rfl rfl rfl rfl rfl rfl fun _ => rfl

/-- A command ends in ERR from its acceptance or from its decode alike (R1003). -/
theorem State.Inv.raiseError (u : State) (hu : u.mem = s.mem) (hst : u.status = ⟨true, false, false, s.status.werr⟩)
    {c : Cause} (hc : c ≠ .none) (info : Word) : (u.raiseError c info).Inv := by
  refine State.inv_of_idle rfl (hu ▸ h.memWf) ?_
  rw [State.raiseError_status, hst]
  exact Status.agrees_error hc _ _

theorem State.Inv.accept {l : Latch} (ho : s.owner = none) (hc : s.startCheck l = none)
    (hs : s.contractStop l = none) : (s.accept l).Inv :=
  (s.accept l).inv_iff.mpr ⟨h.memWf, Status.agrees_running _, fun _ => State.inRun_accept ho hc hs⟩

/-- A running command completes (R1001). -/
theorem State.Inv.complete (hb : s.status.busy = true) (ws : List Store) : (s.complete ws).Inv := by
  obtain ⟨hmem, hagrees, -⟩ := s.inv_iff.mp h
  obtain ⟨hst, hc, hi⟩ := hagrees.eq_running hb
  refine State.inv_of_idle rfl ((Memory.wf_storeAll ws s.mem).trans hmem) ?_
  rw [State.complete_status, State.complete_errCause, State.complete_errInfo, hst, hc, hi]
  exact Status.agrees_done _

theorem State.Inv.engineStep (hb : s.status.busy = true) {t : State} (ht : s.engineStep? = some t) : t.Inv := by
  obtain ⟨hmem, hagrees, hrun⟩ := s.inv_iff.mp h
  obtain ⟨e, rfl, hl, hin⟩ | ⟨ws, rfl⟩ := State.engineStep_inside (hrun hb).inside ht
  · exact State.inv_iff _ |>.mpr ⟨hmem, hagrees, fun _ => (hrun hb).setEngine hl hin⟩
  · exact h.complete hb ws

theorem State.Inv.engineTurn : s.engineTurn.Inv := by
  unfold State.engineTurn
  split_ifs with hb
  · cases ht : s.engineStep? with
    | none => exact h
    | some t => exact h.engineStep hb ht
  · exact h

theorem State.Inv.resetBlock : s.resetBlock.Inv :=
  State.inv_of_idle rfl (s.wf_racedMem.trans h.memWf) Status.agrees_reset

/-! ### A CMD write -/

theorem State.Inv.exec {i : Instr} {t : State} (ht : exec i s = .next t) : t.Inv := by
  obtain ⟨-, rfl⟩ | ⟨-, -, rfl⟩ | ⟨-, -, rfl⟩ | ⟨-, l, -, c, w, hc, rfl⟩ | ⟨-, l, -, -, -, ws, -, rfl⟩ := exec_next ht
  · exact h.dropWrite
  · exact h
  · exact h.raiseError s.clearForCommand rfl rfl (Cause.decodeCause_ne_none _) _
  · exact h.raiseError (s.accept l) rfl rfl (State.startCheck_ne_none hc) _
  · exact State.inv_of_idle rfl ((Memory.wf_storeAll ws s.mem).trans h.memWf) (Status.agrees_done _)

theorem State.Inv.beginInstr (ho : s.owner = none) {i : Instr} {t : State} (ht : beginInstr i s = .next t) : t.Inv := by
  unfold Machine.beginInstr at ht
  split_ifs at ht
  · cases ht
    exact h.dropWrite
  · split at ht
    · cases ht
      exact h
    · obtain ⟨-, rfl⟩ | ⟨-, c, info, hc, rfl⟩ | ⟨-, hc, hs, rfl⟩ := State.beginCommand_next ht
      · exact h.dropWrite
      · exact h.raiseError (s.accept _) rfl rfl (State.startCheck_ne_none hc) _
      · exact h.accept ho hc hs
  · cases ht
    exact h.raiseError s.clearForCommand rfl rfl (Cause.decodeCause_ne_none _) _

theorem State.Inv.cmdWrite {w : Word} {run : Instr → State → Host.Outcome State Fault Refusal}
    (hrun : ∀ {i : Instr} {s t : State}, s.Inv → s.owner = none → run i s = .next t → t.Inv)
    {t : State} (ht : s.cmdWrite w run = .next t) : t.Inv := by
  cases hb : s.status.busy with
  | true =>
    rw [State.cmdWrite_busy hb] at ht
    cases ht
    exact h.dropWrite
  | false =>
    obtain ⟨hmem, hagrees, -⟩ := s.inv_iff.mp h
    have hfree : State.Inv { s with owner := none } := State.inv_of_idle hb hmem hagrees
    cases hd : decode w with
    | ok i => exact hrun hfree rfl ((State.cmdWrite_ok hb hd run).symm.trans ht)
    | error e =>
      rw [State.cmdWrite_error hb hd] at ht
      cases ht
      exact hfree.raiseError (State.clearForCommand { s with owner := none }) rfl rfl (Cause.decodeCause_ne_none e) _

/-! ### The bus -/

/-- A memory write of another agent keeps memory's form and the bytes that exist. -/
theorem State.Inv.busWrite {agent addr n v : Nat} {t : State} (ht : s.busWrite agent addr n v = .done (.next t)) :
    t.Inv := by
  unfold State.busWrite at ht
  split at ht
  case h_1 =>
    split_ifs at ht
    · cases ht
    · split at ht
      · cases ht
      · cases ht
        exact h.writeReg agent _ _
  case h_3 =>
    split_ifs at ht
    · cases ht
    · cases ht
      exact h.congr rfl rfl rfl rfl rfl rfl rfl (Memory.wf_write ..) fun a => Memory.has_write ..
  all_goals cases ht

theorem State.Inv.take {i : Input} {t : State} (ht : s.take i = .next t) : t.Inv := by
  cases i with
  | write agent addr n v =>
    simp only [State.take] at ht
    cases hbus : s.busWrite agent addr n v with
    | command w =>
      rw [hbus] at ht
      exact h.cmdWrite (fun hs _ => hs.exec) ht
    | done o =>
      rw [hbus] at ht
      subst ht
      exact h.busWrite hbus
  | start agent w =>
    simp only [State.take] at ht
    split_ifs at ht
    exact h.cmdWrite (fun hs ho => hs.beginInstr ho) ht
  | read agent addr n =>
    obtain ⟨v, d, rfl⟩ := State.busRead_next ht
    exact h.congr rfl rfl rfl rfl rfl rfl rfl rfl fun _ => rfl
  | engine =>
    cases ht
    exact h.engineTurn
  | reset =>
    cases ht
    exact h.resetBlock

end

/-- Settles O59: an input keeps the invariant of the state it is taken from, and so does the engine's own step. -/
theorem stepKeepsInvariant : Obligations.StepKeepsInvariant := by
  intro s t h ht
  cases hin : s.inputs with
  | nil =>
    cases hb : s.status.busy with
    | true => exact h.engineStep hb (step_busy_of_no_inputs hin hb ht)
    | false =>
      rw [step_ended (by simp [State.ended, hin, hb])] at ht
      cases ht
      exact h
  | cons i rest => exact (h.setInputs rest).take ((step_eq_take hin).symm.trans ht)

/-- Settles O60: the reset state is idle, with an empty memory and clear status and cause registers. -/
theorem resetMeetsInvariant : Obligations.ResetMeetsInvariant :=
  State.inv_of_idle rfl rfl Status.agrees_reset

end Sys2Proof.Machine
end

section
/-! A CMD write (R406, R1120) as a run to the command's end and as its acceptance alone, who may write when (R1018), and what
the ends of a command leave outside the elements it writes. -/

namespace Sys2Proof.Machine

/-! ### Acceptance alone -/

/-- A well-formed GEMM command on an idle block, begun, is its kernel's acceptance. -/
theorem beginInstr_eq_beginCommand {i : Instr} {l : Latch} {s : State} (hl : i.latch = some l)
    (hw : i.wellFormed = true) (hb : s.status.busy = false) : beginInstr i s = s.beginCommand l := by
  simp [beginInstr, hb, hw, hl]

section
variable {s : State} {l : Latch} (hb : s.status.busy = false) (hc : s.startCheck l = none)
include hb hc

/-- A command that passes its checks and keeps the contract is run from its acceptance. -/
theorem State.command_of_runs (hs : s.contractStop l = none) (run : State → Host.Outcome State Fault Refusal) :
    s.command l run = run (s.accept l) := by
  simp [State.command, hb, hc, hs]

/-- A broken contract is how the command ends, however it is run. -/
theorem State.command_of_contractStop {o : Host.Outcome State Fault Refusal} (hs : s.contractStop l = some o)
    (run : State → Host.Outcome State Fault Refusal) : s.command l run = o := by
  simp [State.command, hb, hc, hs]

theorem State.beginCommand_of_runs (hs : s.contractStop l = none) : s.beginCommand l = .next (s.accept l) :=
  State.command_of_runs hb hc hs .next

end

/-- A command that does not come to run does not ask how it would be run. -/
theorem State.command_eq_of_not_runs {s : State} {l : Latch} (h : ¬(s.startCheck l = none ∧ s.contractStop l = none))
    (run run' : State → Host.Outcome State Fault Refusal) : s.command l run = s.command l run' := by
  unfold State.command
  rw [State.startCheck_accept, State.contractStop_accept]
  cases hc : s.startCheck l with
  | some ci => rfl
  | none =>
    cases hs : s.contractStop l with
    | some o => rfl
    | none => exact absurd ⟨hc, hs⟩ h

/-- Where no command comes to run, a start is the plain command. -/
theorem beginInstr_eq_exec {i : Instr} {s : State} (hw : i.wellFormed = true) (hb : s.status.busy = false)
    (h : ∀ l, i.latch = some l → ¬(s.startCheck l = none ∧ s.contractStop l = none)) : beginInstr i s = exec i s := by
  cases hl : i.latch with
  | none =>
    cases i with
    | nop => rw [beginInstr_nop_idle hb, exec_nop_idle hb]
    | _ => cases hl
  | some l =>
    rw [beginInstr_eq_beginCommand hl hw hb, exec_eq_runCommand hl hw hb]
    exact State.command_eq_of_not_runs (h l hl) _ _

/-- Whether a command comes to run does not depend on the inputs or on who has been programming the block. -/
theorem State.checks_of_taken (s : State) (is : List Input) (l : Latch) :
    State.startCheck { s with inputs := is, owner := none } l = s.startCheck l ∧
      State.contractStop { s with inputs := is, owner := none } l = s.contractStop l := by
  have hd : State.desc { s with inputs := is, owner := none } = s.desc := rfl
  exact ⟨State.startCheck_congr hd l, State.contractStop_congr hd rfl (fun _ => rfl) l⟩

/-- A step that starts a command among other agents' accesses. -/
theorem step_start {s : State} {agent : Nat} {w : Word} {rest : List Input} (hin : s.inputs = .start agent w :: rest)
    (hf : s.foreign agent = false) : step s = State.cmdWrite { s with inputs := rest } w beginInstr := by
  have hf' : State.foreign { s with inputs := rest } agent = false := hf
  simp [step_eq_take hin, State.take, hf']

/-! ### Who may write (R1018) -/

theorem State.foreign_of_owner {s : State} {agent other : Nat} (ho : s.owner = some other) (hne : other ≠ agent) :
    s.foreign agent = true := by
  simp [State.foreign, ho, hne]

theorem State.foreign_of_no_owner {s : State} (ho : s.owner = none) (agent : Nat) : s.foreign agent = false := by
  simp [State.foreign, ho]

/-- A register write of another host than the one amid programming is refused, whatever the register. -/
theorem State.busWrite_foreign {s : State} {agent offset : Nat} (hf : s.foreign agent = true) (hlt : offset < 256)
    (h4 : offset % 4 = 0) (v : Nat) :
    s.busWrite agent (s.params.base + offset) 4 v = .done (.refused .twoHosts) := by
  simp [State.busWrite, s.target_register hlt h4, hf]

theorem offset_of_regAt_desc {offset : Nat} {r : DescReg} (h : regAt offset = .desc r) : r.offset = offset := by
  unfold regAt at h
  split_ifs at h
  split at h
  case h_1 q hq =>
    cases h
    simpa using List.find?_some hq
  case h_2 => cases h

/-- A descriptor write alone begins the time of R1018. -/
theorem State.writeReg_owner (s : State) (agent : Nat) (v : Word) {r : RegName} (hr : ∀ q, r ≠ .desc q) :
    (s.writeReg agent v r).owner = s.owner := by
  cases r with
  | desc q => exact absurd rfl (hr q)
  | _ => rfl

theorem exec_owner {i : Instr} {s t : State} (h : exec i s = .next t) : t.owner = s.owner := by
  rcases exec_next h with
    ⟨-, rfl⟩ | ⟨-, -, rfl⟩ | ⟨-, -, rfl⟩ | ⟨-, l, -, c, w, -, rfl⟩ | ⟨-, l, -, -, -, ws, -, rfl⟩ <;> rfl

/-- A CMD write ends the time of R1018, and begins none. -/
theorem State.cmdWrite_exec_owner {s t : State} {w : Word} (ho : s.owner = none) (h : s.cmdWrite w exec = .next t) :
    t.owner = none := by
  cases hb : s.status.busy with
  | true =>
    rw [State.cmdWrite_busy hb] at h
    cases h
    exact ho
  | false =>
    cases hd : decode w with
    | ok i => exact exec_owner ((State.cmdWrite_ok hb hd exec).symm.trans h)
    | error e =>
      rw [State.cmdWrite_error hb hd] at h
      cases h
      rfl

/-! ### What the ends of a command leave (R1003, R1001) -/

theorem State.sameOutside_raiseError (s : State) (l : Latch) (c : Cause) (info : Word) :
    s.SameOutside ((s.accept l).raiseError c info) := ⟨rfl, rfl, rfl, rfl, rfl, rfl, rfl⟩

theorem State.sameOutside_rejectWord (s : State) (e : DecodeError) : s.SameOutside (s.rejectWord e) :=
  ⟨rfl, rfl, rfl, rfl, rfl, rfl, rfl⟩

theorem State.sameOutside_complete (s : State) (l : Latch) (ws : List Store) :
    s.SameOutside ((s.accept l).complete ws) := ⟨rfl, rfl, rfl, rfl, rfl, rfl, rfl⟩

/-- A GEMM command that was not dropped ended in an error with memory as before, or in DONE with its element writes. -/
theorem exec_gemm_ends {i : Instr} {l : Latch} {s t : State} (hl : i.latch = some l) (hb : s.status.busy = false)
    (h : exec i s = .next t) :
    (s.SameOutside t ∧ t.mem = s.mem ∧ t.status.done = false) ∨
      ∃ ws, s.kernelRun? l = some ws ∧ t = (s.accept l).complete ws := by
  obtain ⟨hbusy, -⟩ | ⟨-, rfl, -⟩ | ⟨-, -, rfl⟩ | ⟨-, l', -, c, w, -, rfl⟩ | ⟨-, l', hl', -, -, ws, hk, rfl⟩ :=
    exec_next h
  · simp [hb] at hbusy
  · cases hl
  · exact .inl ⟨s.sameOutside_rejectWord _, rfl, rfl⟩
  · exact .inl ⟨s.sameOutside_raiseError l' c w, rfl, rfl⟩
  · cases hl.symm.trans hl'
    exact .inr ⟨ws, hk, rfl⟩

/-- The element writes of a command leave every byte outside the elements of the rectangle alone. -/
theorem State.byte?_storeAll_kernelRun {s : State} {l : Latch} {ws : List Store} {a : Nat}
    (hk : s.kernelRun? l = some ws)
    (ha : ∀ i j, s.writes i j → a < s.dstAddr l.kernel i j ∨ s.dstAddr l.kernel i j + l.kernel.elemSize ≤ a) :
    (s.mem.storeAll ws).byte? a = s.mem.byte? a := by
  refine Memory.byte?_storeAll_ne ws s.mem a fun st hst => ?_
  obtain ⟨i, j, hij, haddr, hsize⟩ := State.exists_element_of_mem_kernelRun hk hst
  rw [haddr, hsize]
  exact ha i j hij

/-! ### The control registers as numbers (R108 to R110) -/

theorem Status.toNat_toWord (s : Status) :
    s.toWord.toNat = bitValue s.busy 0 + bitValue s.done 1 + bitValue s.err 2 + bitValue s.werr 3 := by
  obtain ⟨busy, done, err, werr⟩ := s
  cases busy <;> cases done <;> cases err <;> cases werr <;> decide

theorem IrqEn.toNat_toWord (e : IrqEn) :
    e.toWord.toNat = bitValue e.doneIe 1 + bitValue e.errIe 2 + bitValue e.werrIe 3 := by
  obtain ⟨doneIe, errIe, werrIe⟩ := e
  cases doneIe <;> cases errIe <;> cases werrIe <;> decide

/-- A bit of STATUS after a write is held where it was 1 and its bit of the word is 0. -/
theorem and_not_eq_true_iff (x y : Bool) : (x && !y) = true ↔ x = true ∧ y = false := by
  rw [Bool.and_eq_true, Bool.not_eq_true']

end Sys2Proof.Machine
end

section
/-! The statements about CMD writes, hosts and the control registers: O5, O6, O13, O16, O17, O24, O28, O32 and O33. -/

namespace Sys2Proof.Machine

/-- Settles O5: a CMD write on an idle block runs what its word decodes to. -/
theorem stepRunsDecodedCommand : Obligations.StepRunsDecodedCommand := by
  intro s agent v rest i hin hf hb hi
  rw [step_writeCmd hin hf, State.cmdWrite_ok (s := { s with inputs := rest }) hb hi]

/-- Settles O6: a start is the CMD write with acceptance for the command's run, and the two agree where nothing runs. -/
theorem startOnlyAccepts : Obligations.StartOnlyAccepts := by
  intro s agent w rest hin starts
  refine ⟨fun other ho hne => ?foreign, fun hf hb => ?busy, fun hf hb hnone => ?notStarted,
    fun l hf hb hstarts => ?accepted⟩
  case foreign =>
    have hf : State.foreign { s with inputs := rest } agent = true := State.foreign_of_owner ho hne
    simp [step_eq_take hin, State.take, hf]
  case busy =>
    rw [step_start hin hf, State.cmdWrite_busy (s := { s with inputs := rest }) hb]
    rfl
  case notStarted =>
    have hwrite : step { s with inputs := .write agent (s.params.base + 0x008) 4 w.toNat :: rest } =
        State.cmdWrite { s with inputs := rest } w exec := by
      simpa using step_writeCmd (s := { s with inputs := .write agent (s.params.base + 0x008) 4 w.toNat :: rest }) rfl hf
    rw [step_start hin hf, hwrite]
    cases hd : decode w with
    | error e =>
      rw [State.cmdWrite_error (s := { s with inputs := rest }) hb hd,
        State.cmdWrite_error (s := { s with inputs := rest }) hb hd]
    | ok i =>
      rw [State.cmdWrite_ok (s := { s with inputs := rest }) hb hd,
        State.cmdWrite_ok (s := { s with inputs := rest }) hb hd]
      refine beginInstr_eq_exec (encode_of_decode hd).1 hb fun l hl hruns => hnone l ⟨i, hd, hl, ?_⟩
      obtain ⟨hc, hs⟩ := s.checks_of_taken rest l
      rwa [Option.isNone_iff_eq_none, ← hc, ← hs]
  case accepted =>
    obtain ⟨i, hd, hl, hc, hs⟩ := hstarts
    obtain ⟨hc', hs'⟩ := s.checks_of_taken rest l
    have hbegin := State.beginCommand_of_runs (s := { s with inputs := rest, owner := none }) hb (hc'.trans hc)
      (hs'.trans (Option.isNone_iff_eq_none.mp hs))
    refine ⟨State.accept { s with inputs := rest, owner := none } l, ?_, rfl, rfl, rfl, rfl, rfl, rfl, rfl, rfl, rfl, rfl,
      rfl⟩
    rw [step_start hin hf, State.cmdWrite_ok (s := { s with inputs := rest }) hb hd, ← hbegin]
    exact beginInstr_eq_beginCommand hl (encode_of_decode hd).1 hb

/-- Settles O13: the words of the control registers as sums of their bits, and a STATUS write bit by bit. -/
theorem statusReadAndClear : Obligations.StatusReadAndClear := by
  refine ⟨?read, fun s agent v rest hf hin => ?write⟩
  case read =>
    intro s agent offset rest hin reads
    have hread (hlt : offset < 256) (h4 : offset % 4 = 0) {n : Nat} (hn : (s.readReg (regAt offset)).toNat = n) :
        reads n := hn ▸ step_readRegister hin hlt h4
    refine ⟨?_, ?_, ?_, ?_, ?_⟩ <;> rintro rfl
    · exact hread (by decide) (by decide) rfl
    · exact hread (by decide) (by decide) s.status.toNat_toWord
    · exact hread (by decide) (by decide) s.irqEn.toNat_toWord
    · exact hread (by decide) (by decide) (congrArg BitVec.toNat s.errCause.toWord_eq_errorCode)
    · exact hread (by decide) (by decide) rfl
  case write =>
    obtain ⟨hbusy, hdone, herr, hwerr⟩ := s.status.toWord_bits
    exact ⟨hbusy, hdone, herr, hwerr, _, step_writeRegister hin hf (r := .status) (by decide) (by decide) rfl nofun, rfl,
      and_not_eq_true_iff _ _, and_not_eq_true_iff _ _, and_not_eq_true_iff _ _, rfl, rfl, rfl, rfl, rfl, rfl⟩

/-- Settles O16: the owner decides the refusal, a descriptor write sets it, and no other write does. -/
theorem twoHostsAreRefused : Obligations.TwoHostsAreRefused := by
  intro s agent offset v rest hlt h4 hin
  refine ⟨fun other ho hne => ?refused, fun r ho hb hr => ?begins, fun t ho hdesc ht => ?other⟩
  case refused =>
    have hbus := State.busWrite_foreign (s := { s with inputs := rest }) (State.foreign_of_owner ho hne) hlt h4 v
    simp only [step_eq_take hin, State.take, hbus]
  case begins =>
    subst hr
    refine ⟨_, step_writeDesc r hin (State.foreign_of_no_owner ho agent), ?_⟩
    rw [State.writeReg_desc_idle (s := { s with inputs := rest }) hb]
  case other =>
    have hf := State.foreign_of_no_owner ho agent
    by_cases hcmd : regAt offset = .cmd
    · obtain rfl := offset_of_regAt_cmd hcmd
      exact State.cmdWrite_exec_owner (s := { s with inputs := rest }) ho ((step_writeCmd hin hf).symm.trans ht)
    · rw [step_writeRegister hin hf hlt h4 rfl hcmd] at ht
      cases ht
      exact (State.writeReg_owner _ _ _ fun q hq => hdesc q (offset_of_regAt_desc hq)).trans ho

/-- Settles O17: the reset block's registers are the reset column, and an idle block has no memory in a race. -/
theorem resetGivesResetValues : Obligations.ResetGivesResetValues := by
  intro s rest hin
  refine ⟨_, step_eq_take hin, fun n => ?_, State.irq_of_no_enable rfl, rfl, rfl, fun hb => ?_⟩
  · cases n with
    | desc r => exact Descriptor.get_zero r
    | _ => rfl
  · rw [State.resetBlock_mem]
    simp [State.racedMem, hb]

/-- Settles O24: an error leaves memory as it is, and completion writes the elements of the rectangle alone. -/
theorem gemmCommandFrame : Obligations.GemmCommandFrame := by
  intro i l s t hl hb h
  obtain ⟨hsame, hmem, -⟩ | ⟨ws, hk, rfl⟩ := exec_gemm_ends hl hb h
  · exact ⟨hsame, fun a _ => by rw [hmem]⟩
  · exact ⟨s.sameOutside_complete l ws, fun a ha => State.byte?_storeAll_kernelRun (s := s) hk ha⟩

/-- Settles O28: the failed check is how the command ends. -/
theorem failedCheckEndsInError : Obligations.FailedCheckEndsInError := by
  intro i l s c w hl hw hb h
  exact exec_endsError_of_startCheck hl hw hb h

/-- Settles O32: a completed command has no ERR, and an engine step changes the engine or completes the command. -/
theorem errorsComeBeforeMemory : Obligations.ErrorsComeBeforeMemory := by
  refine ⟨fun i l s t hl hb h herr => ?command, fun s t _ herr h => ?engine⟩
  case command =>
    obtain ⟨-, hmem, hdone⟩ | ⟨ws, -, rfl⟩ := exec_gemm_ends hl hb h
    · exact ⟨hmem, hdone⟩
    · cases herr
  case engine =>
    obtain ⟨e, rfl, -⟩ | ⟨ws, rfl⟩ := State.engineStep_cases h <;> exact herr

/-- Settles O33: an ill-formed gemmFF32 term is the rejection of its word. -/
theorem floatWithForeignFlagIsIllegal : Obligations.FloatWithForeignFlagIsIllegal := by
  intro s f hf hb
  have hexec : exec (.gemmFF32 f) s = .next (s.rejectWord (.illegalCmd (encode (.gemmFF32 f)))) := by
    simp [exec, execGemmFF32, hb, hf]
  exact ⟨_, hexec, rfl, rfl, rfl, rfl, rfl, s.sameOutside_rejectWord _⟩

end Sys2Proof.Machine
end

section
/-! The bytes a command touches (R221): the tests of the contract as statements about them, the write footprint as the elements
of the rectangle, and that no two elements of a command without aliasing share a byte (R236). -/

namespace Sys2Proof

theorem Kernel.elemSize_pos (k : Kernel) : 0 < k.elemSize := by
  rcases k with (_ | _ | _ | _) | _ <;> decide

end Sys2Proof

namespace Sys2Proof.Machine

/-! ### Intervals as sets of addresses -/

theorem inInterval_iff (iv : Interval) (a : Nat) : inInterval iv a = true ↔ iv.lo ≤ a ∧ a < iv.lo + iv.len := by
  simp [inInterval]

theorem disjoint_iff (p q : Interval) : disjoint p q = true ↔ ∀ a, inInterval p a = true → inInterval q a = false := by
  refine ⟨fun h a hp => ?_, disjoint_of_no_common⟩
  rw [inInterval_iff] at hp
  simp only [disjoint, Bool.or_eq_true, beq_iff_eq, decide_eq_true_eq] at h
  rw [← Bool.not_eq_true, inInterval_iff]
  omega

theorem disjoint_symm {p q : Interval} (h : disjoint p q = true) : disjoint q p = true := by
  rw [disjoint_iff] at h ⊢
  intro a hq
  by_contra hp
  simp [h a (by simpa using hp)] at hq

theorem allDisjoint_iff (ps qs : List Interval) :
    allDisjoint ps qs = true ↔ ∀ p ∈ ps, ∀ q ∈ qs, ∀ a, inInterval p a = true → inInterval q a = false := by
  simp only [allDisjoint, List.all_eq_true, disjoint_iff]

theorem pairwiseDisjoint_iff (ps : List Interval) :
    pairwiseDisjoint ps = true ↔ ps.Pairwise fun p q => disjoint p q = true := by
  induction ps with
  | nil => simp [pairwiseDisjoint]
  | cons p rest ih => rw [pairwiseDisjoint, Bool.and_eq_true, List.all_eq_true, ih, List.pairwise_cons]

theorem below64_iff (iv : Interval) : below64 iv = true ↔ ∀ a, inInterval iv a = true → a < 2 ^ 64 := by
  simp only [below64, Bool.or_eq_true, beq_iff_eq, decide_eq_true_eq, inInterval_iff]
  constructor
  · intro h a ha
    omega
  · intro h
    have := h (iv.lo + iv.len - 1)
    omega

theorem Memory.covers_iff_forall_has (m : Memory) (iv : Interval) :
    m.covers iv.lo iv.len = true ↔ ∀ a, inInterval iv a = true → m.has a = true := by
  simp only [Memory.covers_iff, inInterval_iff, and_imp]

/-! ### The contract in the bytes a command touches (R218, R200, R212, R236, R240) -/

/-- The address is one of a byte in the command's footprints. -/
def State.Touches (s : State) (l : Latch) (a : Nat) : Prop :=
  ∃ iv ∈ s.readFootprint l ++ s.writeFootprint l, inInterval iv a = true

section
variable (s : State) (l : Latch)

theorem State.forall_touches_iff (p : Nat → Prop) :
    (∀ a, s.Touches l a → p a) ↔
      ∀ iv ∈ s.readFootprint l ++ s.writeFootprint l, ∀ a, inInterval iv a = true → p a := by
  simp only [State.Touches, forall_exists_index, and_imp]
  exact ⟨fun h iv hiv a ha => h a iv hiv ha, fun h a iv hiv ha => h iv hiv a ha⟩

theorem State.exists_touches_iff (p : Nat → Prop) :
    (∃ iv ∈ s.readFootprint l ++ s.writeFootprint l, ∃ a, inInterval iv a = true ∧ p a) ↔
      ∃ a, s.Touches l a ∧ p a := by
  simp only [State.Touches]
  exact ⟨fun ⟨iv, hiv, a, ha, hp⟩ => ⟨a, ⟨iv, hiv, ha⟩, hp⟩, fun ⟨a, ⟨iv, hiv, ha⟩, hp⟩ => ⟨iv, hiv, a, ha, hp⟩⟩

theorem State.all_below64_iff :
    (s.readFootprint l ++ s.writeFootprint l).all below64 = true ↔ ∀ a, s.Touches l a → a < 2 ^ 64 := by
  simp only [List.all_eq_true, below64_iff, s.forall_touches_iff l]

theorem State.allDisjoint_footprint_iff (others : List Interval) :
    allDisjoint (s.readFootprint l ++ s.writeFootprint l) others = true ↔
      ∀ a, s.Touches l a → ∀ other ∈ others, inInterval other a = false := by
  rw [allDisjoint_iff, s.forall_touches_iff l]
  exact ⟨fun h iv hiv a ha other ho => h iv hiv other ho a ha, fun h iv hiv other ho a ha => h iv hiv a ha other ho⟩

theorem State.footprintsExist_iff : s.footprintsExist l = true ↔ ∀ a, s.Touches l a → s.mem.has a = true := by
  simp only [State.footprintsExist, List.all_eq_true, Memory.covers_iff_forall_has, s.forall_touches_iff l]

theorem State.racesWith_iff (iv : Interval) :
    s.racesWith iv = true ↔ s.status.busy = true ∧ ∃ a, s.Touches s.engine.latch a ∧ inInterval iv a = true := by
  have hdisjoint := s.allDisjoint_footprint_iff s.engine.latch [iv]
  have hsymm : allDisjoint [iv] (s.readFootprint s.engine.latch ++ s.writeFootprint s.engine.latch) =
      allDisjoint (s.readFootprint s.engine.latch ++ s.writeFootprint s.engine.latch) [iv] := by
    rw [Bool.eq_iff_iff]
    simp only [allDisjoint, List.all_eq_true, List.mem_singleton, forall_eq]
    exact ⟨fun h q hq => disjoint_symm (h q hq), fun h q hq => disjoint_symm (h q hq)⟩
  rw [State.racesWith, hsymm, Bool.and_eq_true, Bool.not_eq_true', ← Bool.not_eq_true, hdisjoint]
  simp only [List.mem_singleton, forall_eq, not_forall, Bool.not_eq_false, exists_prop]

end

/-- Every byte the command touches is below 2^64, off the register window and off devices. -/
structure State.Reachable (s : State) (l : Latch) : Prop where
  below : ∀ a, s.Touches l a → a < 2 ^ 64
  offWindow : ∀ a, s.Touches l a → inInterval s.params.window a = false
  offDevices : ∀ a, s.Touches l a → ∀ dev ∈ s.params.deviceRegions, inInterval dev a = false

section
variable {s : State} {l : Latch}

theorem State.contractStop_overflow (h : ∃ a, s.Touches l a ∧ 2 ^ 64 ≤ a) :
    s.contractStop l = some (.fault .addressOverflow) := by
  obtain ⟨a, ha, hge⟩ := h
  have hnot : (s.readFootprint l ++ s.writeFootprint l).all below64 = false := by
    rw [← Bool.not_eq_true, s.all_below64_iff]
    exact fun hall => absurd (hall a ha) (Nat.not_lt.mpr hge)
  simp [State.contractStop, hnot]

section
variable (hlow : ∀ a, s.Touches l a → a < 2 ^ 64)
include hlow

theorem State.contractStop_window (h : ∃ a, s.Touches l a ∧ inInterval s.params.window a = true) :
    s.contractStop l = some (.refused .bufferInRegisterWindow) := by
  obtain ⟨a, ha, hin⟩ := h
  have hnot : allDisjoint (s.readFootprint l ++ s.writeFootprint l) [s.params.window] = false := by
    rw [← Bool.not_eq_true, s.allDisjoint_footprint_iff]
    exact fun hall => by simp [hall a ha] at hin
  simp only [State.contractStop, (s.all_below64_iff l).mpr hlow, hnot]
  rfl

theorem State.contractStop_device (hoff : ∀ a, s.Touches l a → inInterval s.params.window a = false)
    (h : ∃ a, s.Touches l a ∧ ∃ dev ∈ s.params.deviceRegions, inInterval dev a = true) :
    s.contractStop l = some (.refused .bufferInDevice) := by
  obtain ⟨a, ha, dev, hdev, hin⟩ := h
  have hwindow : allDisjoint (s.readFootprint l ++ s.writeFootprint l) [s.params.window] = true := by
    rw [s.allDisjoint_footprint_iff]
    simpa using hoff
  have hnot : allDisjoint (s.readFootprint l ++ s.writeFootprint l) s.params.deviceRegions = false := by
    rw [← Bool.not_eq_true, s.allDisjoint_footprint_iff]
    exact fun hall => by simp [hall a ha dev hdev] at hin
  simp only [State.contractStop, (s.all_below64_iff l).mpr hlow, hwindow, hnot]
  rfl

end

/-- A command whose buffers can be reached stops for aliasing alone, and only where every byte exists. -/
theorem State.contractStop_reachable (h : s.Reachable l) :
    s.contractStop l = if s.aliases l && s.footprintsExist l then some (.refused .footprintAliasing) else none := by
  have hwindow : allDisjoint (s.readFootprint l ++ s.writeFootprint l) [s.params.window] = true := by
    rw [s.allDisjoint_footprint_iff]
    simpa using h.offWindow
  simp only [State.contractStop, (s.all_below64_iff l).mpr h.below, hwindow,
    (s.allDisjoint_footprint_iff l _).mpr h.offDevices]
  rfl

/-- A command whose contract is kept has buffers that can be reached. -/
theorem State.reachable_of_contractStop (h : s.contractStop l = none) : s.Reachable l := by
  unfold State.contractStop at h
  dsimp only at h
  split_ifs at h with hlow hwindow hdevice
  simp only [Bool.not_eq_true', Bool.not_eq_false] at hlow hwindow hdevice
  rw [s.all_below64_iff] at hlow
  rw [s.allDisjoint_footprint_iff] at hwindow hdevice
  exact ⟨hlow, fun a ha => hwindow a ha _ (List.mem_singleton.mpr rfl), hdevice⟩

end

/-! ### The write footprint as elements (R216, R424) -/

/-- Down a column of a tile, the elements follow one another. -/
theorem State.dstAddr_row (s : State) (k : Kernel) (rb r j : Nat) :
    s.dstAddr k (s.rowOf rb + r) j = s.dstAddr k (s.rowOf rb) j + k.elemSize * r := by
  have hrow : s.rowOf rb + r - s.nreg .startRow = s.rowOf rb - s.nreg .startRow + r := by
    rw [State.rowOf]
    omega
  rw [State.dstAddr, State.dstAddr, hrow]
  ring

/-- The runs of a command's write footprint: a tile and one of its valid columns. -/
def State.writeRuns (s : State) : List ((Nat × Nat) × Nat) :=
  s.tiles.flatMap fun t => (List.range (s.residualCols t.1)).map fun c => (t, c)

/-- The bytes of a run: the valid rows of its column. -/
def State.writeRun (s : State) (l : Latch) (x : (Nat × Nat) × Nat) : Interval :=
  ⟨s.dstAddr l.kernel (s.rowOf x.1.2) (s.colOf x.1.1 + x.2), l.kernel.elemSize * s.residualRows x.1.2⟩

theorem State.writeFootprint_eq_map (s : State) (l : Latch) : s.writeFootprint l = s.writeRuns.map (s.writeRun l) := by
  simp only [State.writeFootprint, State.tileWrites, State.writeRuns, List.map_flatMap, List.map_map]
  rfl

theorem State.mem_writeRuns (s : State) (cb rb c : Nat) :
    ((cb, rb), c) ∈ s.writeRuns ↔ (cb, rb) ∈ s.tiles ∧ c < s.residualCols cb := by
  simp only [State.writeRuns, List.mem_flatMap, List.mem_map, List.mem_range, Prod.mk.injEq]
  constructor
  · rintro ⟨t, ht, c, hc, rfl, rfl⟩
    exact ⟨ht, hc⟩
  · rintro ⟨ht, hc⟩
    exact ⟨_, ht, c, hc, rfl, rfl⟩

/-- The bytes of the element (i, j). -/
def State.element (s : State) (l : Latch) (i j : Nat) : Interval := ⟨s.dstAddr l.kernel i j, l.kernel.elemSize⟩

/-- A run of `n` elements of `size` bytes, element by element. -/
theorem exists_element_iff {size : Nat} (hsize : 0 < size) (lo n a : Nat) :
    (lo ≤ a ∧ a < lo + size * n) ↔ ∃ r, r < n ∧ lo + size * r ≤ a ∧ a < lo + size * r + size := by
  constructor
  · rintro ⟨hlo, hhi⟩
    have hdiv := Nat.div_add_mod (a - lo) size
    have hmod := Nat.mod_lt (a - lo) hsize
    exact ⟨(a - lo) / size, Nat.div_lt_of_lt_mul (by omega), by omega, by omega⟩
  · rintro ⟨r, hr, hlo, hhi⟩
    have hmul : size * (r + 1) ≤ size * n := Nat.mul_le_mul_left size hr
    rw [Nat.mul_succ] at hmul
    omega

/-- A run's bytes are those of its column's valid elements. -/
theorem State.inInterval_writeRun_iff (s : State) (l : Latch) (cb rb c a : Nat) :
    inInterval (s.writeRun l ((cb, rb), c)) a = true ↔
      ∃ r, r < s.residualRows rb ∧ inInterval (s.element l (s.rowOf rb + r) (s.colOf cb + c)) a = true := by
  simp only [inInterval_iff, State.writeRun, State.element, s.dstAddr_row]
  exact exists_element_iff l.kernel.elemSize_pos _ _ _

/-- The write footprint's bytes are those of the rectangle's elements (R815). -/
theorem State.exists_writeFootprint_iff (s : State) (l : Latch) (a : Nat) :
    (∃ iv ∈ s.writeFootprint l, inInterval iv a = true) ↔ ∃ i j, s.writes i j ∧ inInterval (s.element l i j) a = true := by
  rw [s.writeFootprint_eq_map]
  simp only [List.mem_map, s.writes_iff]
  constructor
  · rintro ⟨_, ⟨⟨⟨cb, rb⟩, c⟩, hrun, rfl⟩, ha⟩
    obtain ⟨ht, hc⟩ := (s.mem_writeRuns cb rb c).mp hrun
    obtain ⟨r, hr, ha⟩ := (s.inInterval_writeRun_iff l cb rb c a).mp ha
    exact ⟨_, _, ⟨cb, rb, c, r, ht, hc, hr, rfl, rfl⟩, ha⟩
  · rintro ⟨_, _, ⟨cb, rb, c, r, ht, hc, hr, rfl, rfl⟩, ha⟩
    exact ⟨_, ⟨_, (s.mem_writeRuns cb rb c).mpr ⟨ht, hc⟩, rfl⟩, (s.inInterval_writeRun_iff l cb rb c a).mpr ⟨r, hr, ha⟩⟩

theorem State.touches_of_element {s : State} {l : Latch} {i j a : Nat} (hij : s.writes i j)
    (ha : inInterval (s.element l i j) a = true) : s.Touches l a := by
  obtain ⟨iv, hiv, hin⟩ := (s.exists_writeFootprint_iff l a).mpr ⟨i, j, hij, ha⟩
  exact ⟨iv, List.mem_append_right _ hiv, hin⟩

/-! ### Aliasing (R236) -/

theorem State.aliases_eq_false_iff (s : State) (l : Latch) :
    s.aliases l = false ↔
      allDisjoint (s.readFootprint l) (s.writeFootprint l) = true ∧ pairwiseDisjoint (s.writeFootprint l) = true := by
  rw [State.aliases, Bool.not_eq_false', Bool.and_eq_true]

/-- The runs of a command without aliasing are disjoint. -/
theorem State.writeRun_disjoint {s : State} {l : Latch} (h : s.aliases l = false) {x y : (Nat × Nat) × Nat}
    (hx : x ∈ s.writeRuns) (hy : y ∈ s.writeRuns) (hne : x ≠ y) : disjoint (s.writeRun l x) (s.writeRun l y) = true := by
  obtain ⟨-, hpair⟩ := (s.aliases_eq_false_iff l).mp h
  rw [s.writeFootprint_eq_map, pairwiseDisjoint_iff, List.pairwise_map] at hpair
  have hsymm : Std.Symm fun x y => disjoint (s.writeRun l x) (s.writeRun l y) = true := ⟨fun _ _ => disjoint_symm⟩
  exact hpair.forall hx hy hne

/-- Two elements of one run share no byte. -/
theorem State.row_eq_of_common {s : State} {l : Latch} {rb r r' j a : Nat}
    (h : inInterval (s.element l (s.rowOf rb + r) j) a = true)
    (h' : inInterval (s.element l (s.rowOf rb + r') j) a = true) : r = r' := by
  simp only [inInterval_iff, State.element, s.dstAddr_row] at h h'
  have hapart {x y : Nat} (hxy : x < y) : l.kernel.elemSize * x + l.kernel.elemSize ≤ l.kernel.elemSize * y := by
    rw [← Nat.mul_succ]
    exact Nat.mul_le_mul_left _ hxy
  rcases Nat.lt_trichotomy r r' with hlt | heq | hlt
  · have := hapart hlt
    omega
  · exact heq
  · have := hapart hlt
    omega

/-- A byte of a command without aliasing belongs to one element at most. -/
theorem State.element_eq_of_common {s : State} {l : Latch} (h : s.aliases l = false) {i j i' j' a : Nat}
    (hij : s.writes i j) (hij' : s.writes i' j') (ha : inInterval (s.element l i j) a = true)
    (ha' : inInterval (s.element l i' j') a = true) : i = i' ∧ j = j' := by
  obtain ⟨cb, rb, c, r, ht, hc, hr, rfl, rfl⟩ := (s.writes_iff i j).mp hij
  obtain ⟨cb', rb', c', r', ht', hc', hr', rfl, rfl⟩ := (s.writes_iff i' j').mp hij'
  have hrun : ((cb, rb), c) = ((cb', rb'), c') := by
    by_contra hne
    have hdisjoint := State.writeRun_disjoint h ((s.mem_writeRuns cb rb c).mpr ⟨ht, hc⟩)
      ((s.mem_writeRuns cb' rb' c').mpr ⟨ht', hc'⟩) hne
    have hout := (disjoint_iff _ _).mp hdisjoint a ((s.inInterval_writeRun_iff l cb rb c a).mpr ⟨r, hr, ha⟩)
    have hin := (s.inInterval_writeRun_iff l cb' rb' c' a).mpr ⟨r', hr', ha'⟩
    simp [hin] at hout
  cases hrun
  exact ⟨congrArg _ (State.row_eq_of_common ha ha'), rfl⟩

/-- A byte both read and written, or of two elements, is aliasing. -/
theorem State.aliases_of_common {s : State} {l : Latch}
    (h : (∃ ivr ∈ s.readFootprint l, ∃ ivw ∈ s.writeFootprint l, ∃ a, inInterval ivr a = true ∧ inInterval ivw a = true) ∨
      (∃ r c r' c' a, s.writes r c ∧ s.writes r' c' ∧ (r, c) ≠ (r', c') ∧ inInterval (s.element l r c) a = true ∧
        inInterval (s.element l r' c') a = true)) : s.aliases l = true := by
  by_contra hno
  rw [Bool.not_eq_true] at hno
  obtain ⟨ivr, hr, ivw, hw, a, har, haw⟩ | ⟨r, c, r', c', a, hrc, hrc', hne, ha, ha'⟩ := h
  · obtain ⟨hdisjoint, -⟩ := (s.aliases_eq_false_iff l).mp hno
    simp [(allDisjoint_iff _ _).mp hdisjoint ivr hr ivw hw a har] at haw
  · obtain ⟨rfl, rfl⟩ := State.element_eq_of_common hno hrc hrc' ha ha'
    exact hne rfl

end Sys2Proof.Machine
end

section
/-! The statements about the contract and about writes of other agents: O34, O35 and O57. -/

namespace Sys2Proof.Machine

/-- A GEMM command that passes its checks ends as its broken contract says. -/
theorem exec_of_contractStop {i : Instr} {l : Latch} {s : State} (hl : i.latch = some l) (hw : i.wellFormed = true)
    (hb : s.status.busy = false) (hc : s.startCheck l = none) {o : Host.Outcome State Fault Refusal}
    (hs : s.contractStop l = some o) : exec i s = o := by
  rw [exec_eq_runCommand hl hw hb]
  exact State.command_of_contractStop hb hc hs _

/-- Settles O34: 2^64 is the first test of the contract, and a shared byte is aliasing, which stops a command all of whose
bytes exist. -/
theorem contractViolationsStop : Obligations.ContractViolationsStop := by
  intro i l s hl hw hb hc
  refine ⟨fun hover => ?overflow, fun hall hcommon => ?aliasing⟩
  case overflow =>
    exact exec_of_contractStop hl hw hb hc (State.contractStop_overflow ((s.exists_touches_iff l _).mp hover))
  case aliasing =>
    rw [← s.forall_touches_iff l] at hall
    have hreach : s.Reachable l :=
      ⟨fun a ha => (hall a ha).1, fun a ha => (hall a ha).2.2.1, fun a ha => (hall a ha).2.2.2⟩
    have hexist : s.footprintsExist l = true := (s.footprintsExist_iff l).mpr fun a ha => (hall a ha).2.1
    refine exec_of_contractStop hl hw hb hc ?_
    rw [State.contractStop_reachable hreach, hexist, State.aliases_of_common hcommon]
    rfl

/-- Settles O35: after 2^64 the window is tested, and then the devices. -/
theorem bufferInRegisterWindowIsRefused : Obligations.BufferInRegisterWindowIsRefused := by
  intro i l s hl hw hb hc hlow meets
  have hlow' := (s.forall_touches_iff l _).mpr hlow
  have hmeets (other : Interval) : meets other ↔ ∃ a, s.Touches l a ∧ inInterval other a = true :=
    s.exists_touches_iff l _
  refine ⟨fun hwindow => ?window, fun hwindow hdev => ?device⟩
  case window => exact exec_of_contractStop hl hw hb hc (State.contractStop_window hlow' ((hmeets _).mp hwindow))
  case device =>
    obtain ⟨dev, hmem, hdev⟩ := hdev
    obtain ⟨a, ha, hin⟩ := (hmeets dev).mp hdev
    have hoff (a : Nat) (ha : s.Touches l a) : inInterval s.params.window a = false := by
      by_contra hin
      exact hwindow ((hmeets _).mpr ⟨a, ha, Bool.not_eq_false _ ▸ hin⟩)
    exact exec_of_contractStop hl hw hb hc (State.contractStop_device hlow' hoff ⟨a, ha, dev, hmem, hin⟩)

/-- Settles O57: the bus write reaches memory, where the race test is whether it meets a byte the running command touches. -/
theorem busyWriteToFootprintIsRefused : Obligations.BusyWriteToFootprintIsRefused := by
  intro s agent addr n v rest _ hcov hoff hin meets
  have htarget : State.target { s with inputs := rest } addr n = .memory :=
    State.target_memory (s := { s with inputs := rest }) hcov hoff
  have hmeets : meets ↔ ∃ a, s.Touches s.engine.latch a ∧ inInterval ⟨addr, n⟩ a = true := by
    simp only [meets, inInterval_iff, State.Touches]
    exact ⟨fun ⟨iv, hiv, a, hlo, hhi, ha⟩ => ⟨a, ⟨iv, hiv, ha⟩, hlo, hhi⟩,
      fun ⟨a, ⟨iv, hiv, ha⟩, hlo, hhi⟩ => ⟨iv, hiv, a, hlo, hhi, ha⟩⟩
  have hraces : State.racesWith { s with inputs := rest } ⟨addr, n⟩ = true ↔ s.status.busy = true ∧ meets := by
    rw [hmeets]
    exact s.racesWith_iff ⟨addr, n⟩
  rw [step_eq_take hin]
  refine ⟨fun hb hm => ?refused, fun hfree => ?lands⟩
  case refused => simp only [State.take, State.busWrite, htarget, hraces.mpr ⟨hb, hm⟩, if_true]
  case lands =>
    have hno : State.racesWith { s with inputs := rest } ⟨addr, n⟩ = false := by
      rw [← Bool.not_eq_true, hraces]
      exact fun ⟨hb, hm⟩ => hfree hb hm
    refine ⟨{ s with inputs := rest, mem := s.mem.write addr n v }, ?_, ?_, fun a ha => ?_, rfl⟩
    · simp only [State.take, State.busWrite, htarget, hno]
      rfl
    · rw [Memory.read?_write n s.mem addr v hcov, Nat.pow_mul]
    · exact Memory.byte?_write_ne n s.mem addr v a ha

end Sys2Proof.Machine
end

section
/-! Which bytes each stage of a tile needs (R221, R240): a stage runs exactly where its bytes exist, and gives the same on two
memories that agree on them. -/

namespace Sys2Proof.Machine

/-! ### Runs of bytes in equal parts -/

theorem exists_part_iff {size : Nat} (hsize : 0 < size) (lo n a : Nat) :
    inInterval ⟨lo, size * n⟩ a = true ↔ ∃ i, i < n ∧ inInterval ⟨lo + size * i, size⟩ a = true := by
  simp only [inInterval_iff, exists_element_iff hsize]

theorem Memory.covers_mul_iff (m : Memory) {size : Nat} (hsize : 0 < size) (lo n : Nat) :
    m.covers lo (size * n) = true ↔ ∀ i, i < n → m.covers (lo + size * i) size = true := by
  have hwhole := m.covers_iff_forall_has ⟨lo, size * n⟩
  have hpart (i : Nat) := m.covers_iff_forall_has ⟨lo + size * i, size⟩
  simp only [exists_part_iff hsize] at hwhole
  simp only [hwhole, hpart]
  exact ⟨fun h i hi a ha => h a ⟨i, hi, ha⟩, fun h a ⟨i, hi, ha⟩ => h i hi a ha⟩

/-- Two memories hold the same in the interval. -/
def Memory.AgreeOn (m m' : Memory) (iv : Interval) : Prop := ∀ a, inInterval iv a = true → m'.byte? a = m.byte? a

theorem Memory.AgreeOn.part {m m' : Memory} {size lo n : Nat} (h : m.AgreeOn m' ⟨lo, size * n⟩) (hsize : 0 < size)
    {i : Nat} (hi : i < n) : m.AgreeOn m' ⟨lo + size * i, size⟩ :=
  fun a ha => h a ((exists_part_iff hsize lo n a).mpr ⟨i, hi, ha⟩)

theorem Memory.AgreeOn.read? {m m' : Memory} {lo n : Nat} (h : m.AgreeOn m' ⟨lo, n⟩) : m'.read? lo n = m.read? lo n :=
  Memory.read?_congr n m m' lo fun a hlo hhi => h a ((inInterval_iff _ _).mpr ⟨hlo, hhi⟩)

theorem Memory.AgreeOn.mono {m m' : Memory} {lo n n' : Nat} (h : m.AgreeOn m' ⟨lo, n⟩) (hle : n' ≤ n) :
    m.AgreeOn m' ⟨lo, n'⟩ := by
  intro a ha
  simp only [inInterval_iff] at ha
  exact h a ((inInterval_iff _ _).mpr ⟨ha.1, ha.2.trans_le (Nat.add_le_add_left hle lo)⟩)

/-! ### When a chain of reads answers -/

theorem Oct.all?_congr {α : Type} {f g : Nat → Option α} (h : ∀ i, i < 8 → f i = g i) : Oct.all? f = Oct.all? g :=
  Option.ext fun o => by
    rw [Oct.all?_eq_some, Oct.all?_eq_some]
    exact ⟨fun hf i hi => (h i hi).symm.trans (hf i hi), fun hg i hi => (h i hi).trans (hg i hi)⟩

theorem Oct.all?_isSome {α : Type} (f : Nat → Option α) :
    (Oct.all? f).isSome = true ↔ ∀ i, i < 8 → (f i).isSome = true := by
  constructor
  · intro h i hi
    obtain ⟨o, ho⟩ := Option.isSome_iff_exists.mp h
    rw [(Oct.all?_eq_some f o).mp ho i hi]
    rfl
  · intro h
    have h0 := Option.some_get (h 0 (by omega))
    refine Option.isSome_iff_exists.mpr
      ⟨Oct.ofFn fun i => (f i).getD ((f 0).get (h 0 (by omega))), (Oct.all?_eq_some f _).mpr fun i hi => ?_⟩
    obtain ⟨x, hx⟩ := Option.isSome_iff_exists.mp (h i hi)
    rw [Oct.get_ofFn _ hi, hx, Option.getD_some]

/-- A read whose answer does not decide whether the next one answers. -/
theorem isSome_bind_iff {α β : Type} {x : Option α} {f : α → Option β} {q : Prop}
    (h : ∀ a, (f a).isSome = true ↔ q) : (x.bind f).isSome = true ↔ x.isSome = true ∧ q := by
  cases x with
  | none => simp
  | some a => simpa using h a

/-- A read whose answer is only reshaped. -/
theorem isSome_bind_pure {α β : Type} {x : Option α} (g : α → β) :
    (x.bind fun a => pure (g a)).isSome = true ↔ x.isSome = true := by
  cases x <;> simp

/-! ### The bytes of a side array and of a packed block (R214, R215, R217) -/

/-- The elements `first .. first + n - 1` of a side array. -/
def State.sideBytes (s : State) (p : Ptr) (first n : Nat) : Interval := ⟨s.sideAddr p first, 4 * n⟩

/-- A packed block whole. -/
def State.blockBytes (s : State) (k : Kernel) (blk : Nat) : Interval := ⟨blk, 8 * k.packedSize * s.nreg .depth⟩

theorem State.sideAddr_add (s : State) (p : Ptr) (first i : Nat) :
    s.sideAddr p (first + i) = s.sideAddr p first + 4 * i := by
  rw [State.sideAddr, State.sideAddr]
  omega

/-- What holds of every interval a tile reads. -/
theorem State.forall_tileReads_iff (s : State) (l : Latch) (cb rb : Nat) (P : Interval → Prop) :
    (∀ iv ∈ s.tileReads l cb rb, P iv) ↔
      P (s.blockBytes l.kernel (s.lhsBlk l.kernel rb)) ∧ P (s.blockBytes l.kernel (s.rhsBlk l.kernel cb)) ∧
      (l.flags.bias = true → P (s.sideBytes .bias (s.rowOf rb) (s.residualRows rb))) ∧
      (s.usesLhsSums l = true → P (s.sideBytes .lhsSums (s.rowOf rb) (s.residualRows rb))) ∧
      (s.usesRhsSums l = true → P (s.sideBytes .rhsSums (s.colOf cb) (s.residualCols cb))) ∧
      (l.usesMultArrays = true → P (s.sideBytes .multFpPtr (s.rowOf rb) (s.residualRows rb)) ∧
        P (s.sideBytes .multExpPtr (s.rowOf rb) (s.residualRows rb))) := by
  have hopt (used : Bool) (iv : Interval) : (∀ x ∈ if used then [iv] else [], P x) ↔ (used = true → P iv) := by
    cases used <;> simp
  simp only [State.tileReads, List.forall_mem_append, hopt, List.forall_mem_cons, List.not_mem_nil, false_imp_iff,
    implies_true, and_true, State.sideBytes, State.blockBytes, imp_and, and_assoc]

/-- The depth loop reads a packed block in parts of 32 bytes, one to an iteration, and never beyond its end. -/
theorem State.depthSteps_le (s : State) (k : Kernel) : 32 * s.depthSteps k ≤ 8 * k.packedSize * s.nreg .depth := by
  cases k <;> simp only [State.depthSteps, Kernel.unroll, Kernel.packedSize] <;> omega

/-- With a DEPTH that passes its check it reads the block whole. -/
theorem State.depthSteps_eq {s : State} {k : Kernel} (h : s.badDepth k = false) :
    32 * s.depthSteps k = 8 * k.packedSize * s.nreg .depth := by
  cases k with
  | quant d =>
    have hfour := State.four_mul_depthSteps h
    simp only [Kernel.packedSize]
    omega
  | float =>
    simp only [State.depthSteps, Kernel.unroll, Kernel.packedSize]
    omega

/-! ### Where a stage runs -/

section
variable (s : State)

theorem State.sideLane_isSome (p : Ptr) (used : Bool) (first n i : Nat) :
    (s.sideLane? p used first n i).isSome = true ↔
      (used = true → i < n → s.mem.covers (s.sideAddr p (first + i)) 4 = true) := by
  rw [State.sideLane?, ← Memory.read?_isSome]
  by_cases hread : (used && decide (i < n)) = true
  · rw [if_pos hread, State.sideWord?, Option.isSome_map]
    simp only [Bool.and_eq_true, decide_eq_true_eq] at hread
    exact ⟨fun h _ _ => h, fun h => h hread.1 hread.2⟩
  · rw [if_neg hread]
    simp only [Bool.and_eq_true, decide_eq_true_eq, not_and] at hread
    exact ⟨fun _ hu hi => absurd hi (hread hu), fun _ => rfl⟩

theorem State.sideVec_isSome (p : Ptr) (used : Bool) (first : Nat) {n : Nat} (hn : n ≤ 8) :
    (s.sideVec? p used first n).isSome = true ↔
      (used = true → s.mem.covers (s.sideBytes p first n).lo (s.sideBytes p first n).len = true) := by
  simp only [State.sideVec?, Oct.all?_isSome, s.sideLane_isSome, State.sideBytes, s.sideAddr_add,
    s.mem.covers_mul_iff (size := 4) (by decide)]
  exact ⟨fun h hu i hi => h i (hi.trans_le hn) hu hi, fun h i _ hu hi => h hu i hi⟩

theorem State.tileStart_isSome (l : Latch) (cb rb : Nat) :
    (s.tileStart? l cb rb).isSome = true ↔
      (s.sideVec? .bias l.flags.bias (s.rowOf rb) (s.residualRows rb)).isSome = true ∧
      (s.sideVec? .lhsSums (s.usesLhsSums l) (s.rowOf rb) (s.residualRows rb)).isSome = true ∧
      (s.sideVec? .rhsSums (s.usesRhsSums l) (s.colOf cb) (s.residualCols cb)).isSome = true := by
  obtain ⟨d | _, f⟩ := l
  · exact isSome_bind_iff fun bias => isSome_bind_iff fun lsums => isSome_bind_pure _
  · refine isSome_bind_iff fun bias => ?_
    simp [State.sideVec?, Oct.all?_isSome, State.sideLane?, State.usesLhsSums, State.usesRhsSums]

theorem State.quad_isSome (t : OperandType) (chunk i : Nat) :
    (s.quad? t chunk i).isSome = true ↔ s.mem.covers (chunk + 4 * i) 4 = true := by
  simp only [Memory.covers, Memory.has, Bool.and_eq_true, and_true, State.quad?]
  exact isSome_bind_iff fun _ => isSome_bind_iff fun _ => isSome_bind_iff fun _ => isSome_bind_pure _

theorem State.chunk_isSome (t : OperandType) (blk k : Nat) :
    (s.chunk? t blk k).isSome = true ↔ s.mem.covers (blk + 32 * k) 32 = true := by
  simp only [State.chunk?, Oct.all?_isSome, s.quad_isSome]
  exact (s.mem.covers_mul_iff (size := 4) (by decide) (blk + 32 * k) 8).symm

/-- The bytes of a depth step of a float block are the eight binary32 values of one chunk of 32 bytes. -/
theorem floatStep_addr (blk d i : Nat) : blk + 4 * (8 * d + i) = blk + 32 * d + 4 * i := by omega

theorem State.floatStep_isSome (blk d : Nat) :
    (s.floatStep? blk d).isSome = true ↔ s.mem.covers (blk + 32 * d) 32 = true := by
  simp only [State.floatStep?, Oct.all?_isSome, Option.isSome_map, Memory.read?_isSome, floatStep_addr]
  exact (s.mem.covers_mul_iff (size := 4) (by decide) (blk + 32 * d) 8).symm

/-- An iteration of the depth loop needs 32 bytes of each block, on either path. -/
theorem State.tileDepth_isSome (l : Latch) (cb rb k : Nat) (acc : Tile Word) :
    (s.tileDepth? l cb rb k acc).isSome = true ↔
      s.mem.covers (s.lhsBlk l.kernel rb + 32 * k) 32 = true ∧ s.mem.covers (s.rhsBlk l.kernel cb + 32 * k) 32 = true := by
  obtain ⟨d | _, f⟩ := l
  · rw [← s.chunk_isSome s.params.operandTypeLhs, ← s.chunk_isSome s.params.operandTypeRhs]
    exact isSome_bind_iff fun _ => isSome_bind_pure _
  · rw [← s.floatStep_isSome, ← s.floatStep_isSome]
    exact isSome_bind_iff fun _ => isSome_bind_pure _

theorem State.tileDepths_isSome (l : Latch) (cb rb n : Nat) (acc : Tile Word) :
    (s.tileDepths? l cb rb n acc).isSome = true ↔
      s.mem.covers (s.lhsBlk l.kernel rb) (32 * n) = true ∧ s.mem.covers (s.rhsBlk l.kernel cb) (32 * n) = true := by
  simp only [s.mem.covers_mul_iff (size := 32) (by decide)]
  induction n with
  | zero => simp [State.tileDepths?]
  | succ n ih =>
    rw [State.tileDepths?, isSome_bind_iff (s.tileDepth_isSome l cb rb n), ih]
    rw [Nat.forall_lt_succ_right, Nat.forall_lt_succ_right, and_and_and_comm]

theorem State.scaleVec_isSome (l : Latch) (p : Ptr) (scalar : DescReg) (row : Nat) {rr : Nat} (hrr : rr ≤ 8) :
    (s.scaleVec? l p scalar row rr).isSome = true ↔
      (l.flags.perch = true → s.mem.covers (s.sideBytes p row rr).lo (s.sideBytes p row rr).len = true) := by
  cases hp : l.flags.perch with
  | true =>
    rw [← s.sideVec_isSome p true row hrr]
    simp [State.scaleVec?, State.sideVec?, Oct.all?_isSome, State.scaleLane?, hp]
  | false => simp [State.scaleVec?, Oct.all?_isSome, State.scaleLane?, hp]

theorem State.residualRows_le (rb : Nat) : s.residualRows rb ≤ 8 := Nat.min_le_right _ _

theorem State.residualCols_le (cb : Nat) : s.residualCols cb ≤ 8 := Nat.min_le_right _ _

theorem State.tileScale_isSome (l : Latch) (rb : Nat) (acc : Tile Word) :
    (s.tileScale? l rb acc).isSome = true ↔
      (l.usesMultArrays = true →
        s.mem.covers (s.sideBytes .multFpPtr (s.rowOf rb) (s.residualRows rb)).lo
          (s.sideBytes .multFpPtr (s.rowOf rb) (s.residualRows rb)).len = true ∧
        s.mem.covers (s.sideBytes .multExpPtr (s.rowOf rb) (s.residualRows rb)).lo
          (s.sideBytes .multExpPtr (s.rowOf rb) (s.residualRows rb)).len = true) := by
  unfold State.tileScale?
  split
  case h_1 hk => simp [Latch.usesMultArrays, hk]
  case h_2 d hd hk =>
    rw [Latch.usesMultArrays_of_ne_i32 hk hd, imp_and, ← s.scaleVec_isSome l .multFpPtr .multFp _ (s.residualRows_le rb),
      ← s.scaleVec_isSome l .multExpPtr .multExp _ (s.residualRows_le rb)]
    exact isSome_bind_iff fun _ => isSome_bind_pure _
  case h_3 hk => simp [Latch.usesMultArrays, hk]

/-- A tile runs exactly where every byte it reads exists. -/
theorem State.tileRun_isSome {l : Latch} (hd : s.badDepth l.kernel = false) (cb rb : Nat) :
    (s.tileRun? l cb rb).isSome = true ↔ ∀ iv ∈ s.tileReads l cb rb, s.mem.covers iv.lo iv.len = true := by
  have hstages := isSome_bind_iff (x := s.tileStart? l cb rb) fun first =>
    (isSome_bind_iff fun acc =>
      (isSome_bind_pure fun scaled : TileScaled => s.tileStores l cb rb acc scaled.y).trans
        (s.tileScale_isSome l rb acc)).trans
      (and_congr_left' (s.tileDepths_isSome l cb rb (s.depthSteps l.kernel) first.acc))
  refine hstages.trans ?_
  rw [s.forall_tileReads_iff, s.tileStart_isSome, s.sideVec_isSome _ _ _ (s.residualRows_le rb),
    s.sideVec_isSome _ _ _ (s.residualRows_le rb), s.sideVec_isSome _ _ _ (s.residualCols_le cb), State.depthSteps_eq hd]
  exact ⟨fun ⟨⟨hbias, hlsums, hrsums⟩, ⟨hlhs, hrhs⟩, hmult⟩ => ⟨hlhs, hrhs, hbias, hlsums, hrsums, hmult⟩,
    fun ⟨hlhs, hrhs, hbias, hlsums, hrsums, hmult⟩ => ⟨⟨hbias, hlsums, hrsums⟩, ⟨hlhs, hrhs⟩, hmult⟩⟩

/-- An element write exists where its element does. -/
theorem State.holds_elementStore (l : Latch) (cb rb c r : Nat) (acc : Word) (y : Int) :
    s.mem.holds (s.elementStore l cb rb c r acc y) = true ↔
      ∀ a, inInterval (s.element l (s.rowOf rb + r) (s.colOf cb + c)) a = true → s.mem.has a = true :=
  s.mem.covers_iff_forall_has (s.element l (s.rowOf rb + r) (s.colOf cb + c))

/-- All of a tile's element writes exist exactly where every byte the tile writes does. -/
theorem State.holds_tileStores (l : Latch) (cb rb : Nat) (acc : Tile Word) (y : Tile Int) :
    (s.tileStores l cb rb acc y).all s.mem.holds = true ↔
      ∀ iv ∈ s.tileWrites l cb rb, s.mem.covers iv.lo iv.len = true := by
  have hruns : s.tileWrites l cb rb = (List.range (s.residualCols cb)).map fun c => s.writeRun l ((cb, rb), c) := rfl
  simp only [hruns, State.tileStores, List.all_map, List.all_eq_true, Prod.forall, s.mem_validCells, Function.comp_apply,
    s.holds_elementStore, List.forall_mem_map, List.mem_range, Memory.covers_iff_forall_has, s.inInterval_writeRun_iff]
  exact ⟨fun h c hc a ⟨r, hr, ha⟩ => h c r ⟨hc, hr⟩ a ha, fun h c r ⟨hc, hr⟩ a ha => h c hc a ⟨r, hr, ha⟩⟩

theorem State.tilesRun_isSome {l : Latch} (hd : s.badDepth l.kernel = false) (ts : List (Nat × Nat)) :
    (s.tilesRun? l ts).isSome = true ↔
      ∀ t ∈ ts, ∀ iv ∈ s.tileReads l t.1 t.2 ++ s.tileWrites l t.1 t.2, s.mem.covers iv.lo iv.len = true := by
  induction ts with
  | nil => simp [State.tilesRun?]
  | cons t ts ih =>
    rw [List.forall_mem_cons, ← ih, List.forall_mem_append, ← s.tileRun_isSome hd]
    constructor
    · intro h
      obtain ⟨ws, hws⟩ := Option.isSome_iff_exists.mp h
      obtain ⟨w, more, hw, hmore, hholds, -⟩ := (s.tilesRun_cons l t.1 t.2 ts ws).mp hws
      obtain ⟨acc, y, rfl⟩ := State.eq_tileStores_of_tileRun hw
      exact ⟨⟨by rw [hw]; rfl, (s.holds_tileStores l t.1 t.2 acc y).mp hholds⟩, by rw [hmore]; rfl⟩
    · rintro ⟨⟨hrun, hwrites⟩, hrest⟩
      obtain ⟨w, hw⟩ := Option.isSome_iff_exists.mp hrun
      obtain ⟨more, hmore⟩ := Option.isSome_iff_exists.mp hrest
      obtain ⟨acc, y, rfl⟩ := State.eq_tileStores_of_tileRun hw
      exact Option.isSome_iff_exists.mpr ⟨_, (s.tilesRun_cons l t.1 t.2 ts _).mpr
        ⟨_, more, hw, hmore, (s.holds_tileStores l t.1 t.2 acc y).mpr hwrites, rfl⟩⟩

/-- The kernel of a command with a good DEPTH gets through exactly where both footprints exist (R240). -/
theorem State.kernelRun_isSome {l : Latch} (hd : s.badDepth l.kernel = false) :
    (s.kernelRun? l).isSome = true ↔ s.footprintsExist l = true := by
  rw [State.kernelRun?, s.tilesRun_isSome hd, State.footprintsExist, List.all_eq_true]
  simp only [List.forall_mem_append, State.readFootprint, State.writeFootprint, List.mem_flatMap, forall_exists_index,
    and_imp]
  exact ⟨fun h => ⟨fun iv t ht hiv => (h t ht).1 iv hiv, fun iv t ht hiv => (h t ht).2 iv hiv⟩,
    fun h t ht => ⟨fun iv hiv => h.1 iv t ht hiv, fun iv hiv => h.2 iv t ht hiv⟩⟩

end

/-- The start checks that a command passed: geometry, depth and pointers (R410). -/
theorem State.checks_of_startCheck {s : State} {l : Latch} (h : s.startCheck l = none) :
    s.geometryMask = 0 ∧ s.badDepth l.kernel = false ∧ s.misaligned? l = none := by
  have hg : s.geometryMask = 0 := by
    by_contra hg
    simp [State.startCheck_geometry hg] at h
  have hd : s.badDepth l.kernel = false := by
    by_contra hd
    simp [State.startCheck_depth hg (Bool.not_eq_false _ ▸ hd)] at h
  rw [State.startCheck_pointers hg hd, Option.map_eq_none_iff] at h
  exact ⟨hg, hd, h⟩

/-! ### What a stage gives on two memories that agree on its bytes (R11, R221) -/

section
variable {s t : State} (hdesc : t.desc = s.desc)
include hdesc

theorem State.sideVec_of_agree {p : Ptr} {used : Bool} {first n : Nat}
    (h : used = true → s.mem.AgreeOn t.mem (s.sideBytes p first n)) :
    t.sideVec? p used first n = s.sideVec? p used first n := by
  refine congrArg Oct.all? (funext fun i => ?_)
  rw [State.sideLane?, State.sideLane?]
  by_cases hread : used = true ∧ i < n
  · have hpart := (h hread.1).part (by decide) hread.2
    simp only [State.sideWord?, State.sideAddr_congr hdesc, s.sideAddr_add, hpart.read?]
  · simp only [Bool.and_eq_true, decide_eq_true_eq, if_neg hread]

theorem State.scaleVec_of_agree {l : Latch} {p : Ptr} {scalar : DescReg} {row rr : Nat}
    (h : l.flags.perch = true → s.mem.AgreeOn t.mem (s.sideBytes p row rr)) :
    t.scaleVec? l p scalar row rr = s.scaleVec? l p scalar row rr := by
  cases hp : l.flags.perch with
  | true =>
    have hvec := State.sideVec_of_agree hdesc (used := true) fun _ => h hp
    have hlane (u : State) : u.scaleLane? l p scalar row rr = u.sideLane? p true row rr := by
      funext r
      rw [State.scaleLane?, if_pos hp]
    rwa [State.scaleVec?, State.scaleVec?, hlane, hlane]
  | false =>
    refine congrArg Oct.all? (funext fun r => ?_)
    simp [State.scaleLane?, hp, hdesc]

end

section
variable {s t : State}

theorem State.chunk_of_agree {blk k : Nat} (h : s.mem.AgreeOn t.mem ⟨blk + 32 * k, 32⟩) (ty : OperandType) :
    t.chunk? ty blk k = s.chunk? ty blk k := by
  refine Oct.all?_congr fun i hi => ?_
  have hbyte (j : Nat) (hj : j < 4) : t.mem.byte? (blk + 32 * k + 4 * i + j) = s.mem.byte? (blk + 32 * k + 4 * i + j) :=
    h _ (by simp only [inInterval_iff]; omega)
  have hfirst := hbyte 0 (by decide)
  rw [Nat.add_zero] at hfirst
  simp only [State.quad?, hfirst, hbyte 1 (by decide), hbyte 2 (by decide), hbyte 3 (by decide)]

theorem State.floatStep_of_agree {blk d : Nat} (h : s.mem.AgreeOn t.mem ⟨blk + 32 * d, 32⟩) :
    t.floatStep? blk d = s.floatStep? blk d := by
  refine Oct.all?_congr fun i hi => ?_
  rw [floatStep_addr, (Memory.AgreeOn.part (size := 4) (n := 8) h (by decide) hi).read?]

section
variable (hdesc : t.desc = s.desc) (hparams : t.params = s.params) {l : Latch}
include hdesc hparams

theorem State.tileDepth_of_agree {cb rb k : Nat} (hlhs : s.mem.AgreeOn t.mem ⟨s.lhsBlk l.kernel rb + 32 * k, 32⟩)
    (hrhs : s.mem.AgreeOn t.mem ⟨s.rhsBlk l.kernel cb + 32 * k, 32⟩) (acc : Tile Word) :
    t.tileDepth? l cb rb k acc = s.tileDepth? l cb rb k acc := by
  simp only [State.tileDepth?, State.accumulateChunk?, State.accumulateStepF?, State.lhsBlk_congr hdesc,
    State.rhsBlk_congr hdesc, hparams, State.chunk_of_agree hlhs, State.chunk_of_agree hrhs,
    State.floatStep_of_agree hlhs, State.floatStep_of_agree hrhs]

theorem State.tileDepths_of_agree {cb rb n : Nat} (hlhs : s.mem.AgreeOn t.mem ⟨s.lhsBlk l.kernel rb, 32 * n⟩)
    (hrhs : s.mem.AgreeOn t.mem ⟨s.rhsBlk l.kernel cb, 32 * n⟩) (acc : Tile Word) :
    t.tileDepths? l cb rb n acc = s.tileDepths? l cb rb n acc := by
  induction n with
  | zero => rfl
  | succ n ih =>
    have hshort {blk : Nat} (h : s.mem.AgreeOn t.mem ⟨blk, 32 * (n + 1)⟩) : s.mem.AgreeOn t.mem ⟨blk, 32 * n⟩ :=
      h.mono (Nat.mul_le_mul_left 32 n.le_succ)
    have hstep : t.tileDepth? l cb rb n = s.tileDepth? l cb rb n := funext fun a =>
      State.tileDepth_of_agree hdesc hparams (hlhs.part (by decide) n.lt_succ_self)
        (hrhs.part (by decide) n.lt_succ_self) a
    rw [State.tileDepths?, State.tileDepths?, ih (hshort hlhs) (hshort hrhs), hstep]

theorem State.tileScale_of_agree {rb : Nat}
    (h : l.usesMultArrays = true → s.mem.AgreeOn t.mem (s.sideBytes .multFpPtr (s.rowOf rb) (s.residualRows rb)) ∧
      s.mem.AgreeOn t.mem (s.sideBytes .multExpPtr (s.rowOf rb) (s.residualRows rb))) (acc : Tile Word) :
    t.tileScale? l rb acc = s.tileScale? l rb acc := by
  unfold State.tileScale?
  split
  · rfl
  · rename_i d hd hk
    rw [Latch.usesMultArrays_of_ne_i32 hk hd] at h
    simp only [State.rowOf_congr hdesc, State.residualRows_congr hdesc, hparams,
      State.scaleVec_of_agree hdesc fun hp => (h hp).1, State.scaleVec_of_agree hdesc fun hp => (h hp).2]
  · rfl

/-- A tile depends on the bytes it reads alone. -/
theorem State.tileRun_of_agree {cb rb : Nat} (h : ∀ iv ∈ s.tileReads l cb rb, s.mem.AgreeOn t.mem iv) :
    t.tileRun? l cb rb = s.tileRun? l cb rb := by
  obtain ⟨hlhs, hrhs, hbias, hlsums, hrsums, hmult⟩ := (s.forall_tileReads_iff l cb rb _).mp h
  have hstart : t.tileStart? l cb rb = s.tileStart? l cb rb := by
    simp only [State.tileStart?, State.residualRows_congr hdesc, State.residualCols_congr hdesc, State.rowOf_congr hdesc,
      State.colOf_congr hdesc, State.usesLhsSums_congr hdesc, State.usesRhsSums_congr hdesc, State.sreg_congr hdesc,
      hparams, State.sideVec_of_agree hdesc hbias, State.sideVec_of_agree hdesc hlsums,
      State.sideVec_of_agree hdesc hrsums]
  have hle := s.depthSteps_le l.kernel
  simp only [State.tileRun?, hstart, State.depthSteps_congr hdesc,
    State.tileDepths_of_agree hdesc hparams (hlhs.mono hle) (hrhs.mono hle),
    State.tileScale_of_agree hdesc hparams hmult, State.tileStores_congr hdesc hparams]

end

end

end Sys2Proof.Machine
end

section
/-! The statements about completion, stuck commands and the read footprint: O21, O27 and O36. -/

namespace Sys2Proof.Machine

theorem State.runs_iff (s : State) (l : Latch) :
    s.runs l = true ↔
      s.status.busy = false ∧ s.startCheck l = none ∧ s.contractStop l = none ∧ s.footprintsExist l = true := by
  simp only [State.runs, Bool.and_eq_true, Bool.not_eq_true', Option.isNone_iff_eq_none, and_assoc]

/-- A command that runs gets through its kernel. -/
theorem State.exists_kernelRun_of_runs {s : State} {l : Latch} (h : s.runs l = true) :
    ∃ ws, s.kernelRun? l = some ws := by
  obtain ⟨-, hc, -, hexist⟩ := (s.runs_iff l).mp h
  obtain ⟨-, hd, -⟩ := State.checks_of_startCheck hc
  exact Option.isSome_iff_exists.mp ((s.kernelRun_isSome hd).mpr hexist)

/-- A well-formed command that runs completes with its kernel's element writes. -/
theorem exec_of_runs {i : Instr} {l : Latch} {s : State} {ws : List Store} (hl : i.latch = some l)
    (hw : i.wellFormed = true) (h : s.runs l = true) (hk : s.kernelRun? l = some ws) :
    exec i s = .next ((s.accept l).complete ws) := by
  obtain ⟨hb, hc, hs, -⟩ := (s.runs_iff l).mp h
  rw [exec_eq_runCommand hl hw hb, State.runCommand_of_kernelRun hb hc hs hk]

theorem exec_endsDone {i : Instr} {l : Latch} {s : State} (hl : i.latch = some l) (hw : i.wellFormed = true)
    (h : s.runs l = true) : EndsDone (exec i s) s := by
  obtain ⟨ws, hk⟩ := State.exists_kernelRun_of_runs h
  have hdone : ((s.accept l).complete ws).status = ⟨false, true, false, s.status.werr⟩ := rfl
  exact ⟨_, exec_of_runs hl hw h hk, hdone, rfl, rfl, s.sameOutside_complete l ws⟩

/-- Settles O21: where the footprints exist the kernel gets through, and its command completes. -/
theorem gemmCommandsComplete : Obligations.GemmCommandsComplete := by
  intro s f
  exact ⟨exec_endsDone (i := .gemmQU8 f) rfl rfl, exec_endsDone (i := .gemmQI8 f) rfl rfl,
    exec_endsDone (i := .gemmQI16 f) rfl rfl, exec_endsDone (i := .gemmQI32 f) rfl rfl,
    fun h hf => exec_endsDone (i := .gemmFF32 f) rfl hf h⟩

/-- The tiles of a command depend on the bytes they read and on which of the bytes they write exist. -/
theorem State.tilesRun_of_agree {s t : State} (hdesc : t.desc = s.desc) (hparams : t.params = s.params) {l : Latch}
    {ts : List (Nat × Nat)} (hread : ∀ x ∈ ts, ∀ iv ∈ s.tileReads l x.1 x.2, s.mem.AgreeOn t.mem iv)
    (hwrite : ∀ x ∈ ts, ∀ iv ∈ s.tileWrites l x.1 x.2, ∀ a, inInterval iv a = true → t.mem.has a = s.mem.has a) :
    t.tilesRun? l ts = s.tilesRun? l ts := by
  induction ts with
  | nil => rfl
  | cons x ts ih =>
    obtain ⟨hreadHere, hreadRest⟩ := List.forall_mem_cons.mp hread
    obtain ⟨hwriteHere, hwriteRest⟩ := List.forall_mem_cons.mp hwrite
    rw [State.tilesRun?, State.tilesRun?, ih hreadRest hwriteRest, State.tileRun_of_agree hdesc hparams hreadHere]
    cases hw : s.tileRun? l x.1 x.2 with
    | none => rfl
    | some w =>
      have hholds : w.all t.mem.holds = w.all s.mem.holds := by
        obtain ⟨acc, y, rfl⟩ := State.eq_tileStores_of_tileRun hw
        rw [Bool.eq_iff_iff, s.holds_tileStores, ← State.tileStores_congr hdesc hparams, t.holds_tileStores,
          State.tileWrites_congr hdesc]
        refine forall₂_congr fun iv hiv => ?_
        rw [Memory.covers_iff_forall_has, Memory.covers_iff_forall_has]
        exact forall₂_congr fun a ha => by rw [hwriteHere iv hiv a ha]
      simp only [Option.bind_eq_bind, Option.bind_some, hholds]

/-- Settles O27: tile by tile, a command depends on the bytes it reads and on which of those it writes exist. -/
theorem commandReadsOnlyItsFootprint : Obligations.CommandReadsOnlyItsFootprint := by
  intro s t l hdesc hparams hread hwrite
  rw [State.kernelRun?, State.kernelRun?, State.tiles_congr hdesc]
  exact State.tilesRun_of_agree hdesc hparams
    (fun x hx iv hiv => hread iv (List.mem_flatMap.mpr ⟨x, hx, hiv⟩))
    (fun x hx iv hiv => hwrite iv (List.mem_flatMap.mpr ⟨x, hx, hiv⟩))

/-- Settles O36: buffers that can be reached leave aliasing as the only stop, which a missing byte rules out; and with it the
kernel gets stuck. -/
theorem missingByteIsStuck : Obligations.MissingByteIsStuck := by
  intro i l s hl hw hb hc hall hmissing
  rw [← s.forall_touches_iff l] at hall
  obtain ⟨a, ha, hno⟩ := (s.exists_touches_iff l _).mp hmissing
  have hreach : s.Reachable l := ⟨fun a ha => (hall a ha).1, fun a ha => (hall a ha).2.1, fun a ha => (hall a ha).2.2⟩
  have hexist : s.footprintsExist l = false := by
    rw [← Bool.not_eq_true, s.footprintsExist_iff]
    exact fun h => by simp [h a ha] at hno
  have hs : s.contractStop l = none := by
    rw [State.contractStop_reachable hreach, hexist, Bool.and_false]
    rfl
  have hk : s.kernelRun? l = none := by
    rw [← Option.not_isSome_iff_eq_none, s.kernelRun_isSome (State.checks_of_startCheck hc).2.1, hexist]
    exact Bool.false_ne_true
  refine ⟨?stuck, ?accepted⟩
  case stuck =>
    rw [exec_eq_runCommand hl hw hb, State.runCommand, State.command_of_runs hb hc hs, State.runKernel,
      State.kernelRun_accept, hk]
  case accepted => rw [beginInstr_eq_beginCommand hl hw hb, State.beginCommand_of_runs hb hc hs]

end Sys2Proof.Machine
end

section
/-! The engine step by step (R141, R407, R434, R1120): the steps of one tile add up to the tile's run, and those of all tiles to
the kernel's. -/

namespace Sys2Proof.Machine

/-! ### A running command with its engine at some place -/

/-- The state with another engine: all that a step of a running command changes. -/
def State.withEngine (s : State) (e : Engine) : State := { s with engine := e }

section
variable (s : State) (e e' : Engine)

@[simp] theorem State.withEngine_desc : (s.withEngine e).desc = s.desc := rfl
@[simp] theorem State.withEngine_engine : (s.withEngine e).engine = e := rfl
@[simp] theorem State.withEngine_mem : (s.withEngine e).mem = s.mem := rfl

/-- Completion keeps nothing of the engine (R145). -/
@[simp] theorem State.complete_withEngine (ws : List Store) : (s.withEngine e).complete ws = s.complete ws := rfl

@[simp] theorem State.rowBlocks_withEngine : (s.withEngine e).rowBlocks = s.rowBlocks :=
  State.rowBlocks_congr (s.withEngine_desc e)

@[simp] theorem State.colBlocks_withEngine : (s.withEngine e).colBlocks = s.colBlocks :=
  State.colBlocks_congr (s.withEngine_desc e)

@[simp] theorem State.depthSteps_withEngine (k : Kernel) : (s.withEngine e).depthSteps k = s.depthSteps k :=
  State.depthSteps_congr (s.withEngine_desc e) k

@[simp] theorem State.tileStart_withEngine (l : Latch) (cb rb : Nat) :
    (s.withEngine e).tileStart? l cb rb = s.tileStart? l cb rb :=
  State.tileStart_congr (s.withEngine_desc e) rfl rfl l cb rb

@[simp] theorem State.tileDepth_withEngine (l : Latch) (cb rb k : Nat) (acc : Tile Word) :
    (s.withEngine e).tileDepth? l cb rb k acc = s.tileDepth? l cb rb k acc :=
  State.tileDepth_congr (s.withEngine_desc e) rfl rfl l cb rb k acc

@[simp] theorem State.tileScale_withEngine (l : Latch) (rb : Nat) (acc : Tile Word) :
    (s.withEngine e).tileScale? l rb acc = s.tileScale? l rb acc :=
  State.tileScale_congr (s.withEngine_desc e) rfl rfl l rb acc

@[simp] theorem State.tileStores_withEngine (l : Latch) (cb rb : Nat) (acc : Tile Word) (y : Tile Int) :
    (s.withEngine e).tileStores l cb rb acc y = s.tileStores l cb rb acc y :=
  State.tileStores_congr (s.withEngine_desc e) rfl l cb rb acc y

end

/-- The engine at a tile of a command, with the element writes it has made before. -/
structure Engine.AtTile (e : Engine) (l : Latch) (cb rb : Nat) (issued : List Store) : Prop where
  latch : e.latch = l
  cb : e.cb = cb
  rb : e.rb = rb
  issued : e.issued = issued

/-- The engine after `n` iterations of the depth loop, which have left `acc`. -/
def Engine.atDepth (e : Engine) (n : Nat) (acc : Tile Word) : Engine := { e with acc := acc, k := n }

@[simp] theorem Engine.atDepth_k (e : Engine) (n : Nat) (acc : Tile Word) : (e.atDepth n acc).k = n := rfl
@[simp] theorem Engine.atDepth_acc (e : Engine) (n : Nat) (acc : Tile Word) : (e.atDepth n acc).acc = acc := rfl
@[simp] theorem Engine.atDepth_phase (e : Engine) (n : Nat) (acc : Tile Word) : (e.atDepth n acc).phase = e.phase := rfl

section
variable {e : Engine} {l : Latch} {cb rb : Nat} {issued : List Store} (he : e.AtTile l cb rb issued)
include he

theorem Engine.AtTile.takeStart (t : TileStart) : (e.takeStart t).AtTile l cb rb issued :=
  ⟨by simp [he.latch], by simp [he.cb], by simp [he.rb], by simp [he.issued]⟩

theorem Engine.AtTile.atDepth (n : Nat) (acc : Tile Word) : (e.atDepth n acc).AtTile l cb rb issued :=
  ⟨he.latch, he.cb, he.rb, he.issued⟩

theorem Engine.AtTile.takeScaled (t : TileScaled) : (e.takeScaled t).AtTile l cb rb issued :=
  ⟨by simp [he.latch], by simp [he.cb], by simp [he.rb], by simp [he.issued]⟩

end

/-! ### One engine step from each phase -/

section
variable {s : State} (hb : s.status.busy = true)
include hb

theorem State.engineSteps_one : State.engineSteps? 1 s = s.engineStep? := by
  rw [State.engineSteps?, if_pos hb]
  cases s.engineStep? <;> rfl

variable {e : Engine} {l : Latch} {cb rb : Nat} {issued : List Store} (he : e.AtTile l cb rb issued)
include he

theorem State.engineSteps_start (hp : e.phase = .start) :
    State.engineSteps? 1 (s.withEngine e) = (s.tileStart? l cb rb).map fun t => s.withEngine (e.takeStart t) := by
  rw [State.engineSteps_one (s := s.withEngine e) hb, State.engineStep_start (s := s.withEngine e) hp]
  simp only [State.withEngine_engine, State.tileStart_withEngine, he.latch, he.cb, he.rb]
  rfl

theorem State.engineSteps_scale (hp : e.phase = .depth) (hk : e.k = s.depthSteps l.kernel) :
    State.engineSteps? 1 (s.withEngine e) = (s.tileScale? l rb e.acc).map fun t => s.withEngine (e.takeScaled t) := by
  have hdone : ¬(s.withEngine e).engine.k < (s.withEngine e).depthSteps (s.withEngine e).engine.latch.kernel := by
    simp [he.latch, hk]
  rw [State.engineSteps_one (s := s.withEngine e) hb, State.engineStep_scale (s := s.withEngine e) hp hdone]
  simp only [State.withEngine_engine, State.tileScale_withEngine, he.latch, he.rb]
  rfl

theorem State.engineSteps_store (hp : e.phase = .store) :
    State.engineSteps? 1 (s.withEngine e) =
      if (s.tileStores l cb rb e.acc e.y).all s.mem.holds then
        some ((s.withEngine e).nextTile (s.tileStores l cb rb e.acc e.y)) else none := by
  rw [State.engineSteps_one (s := s.withEngine e) hb, State.engineStep_store (s := s.withEngine e) hp]
  simp only [State.withEngine_engine, State.tileStores_withEngine, State.withEngine_mem, he.latch, he.cb, he.rb]

theorem State.engineSteps_iteration (hp : e.phase = .depth) (hk : e.k < s.depthSteps l.kernel) :
    State.engineSteps? 1 (s.withEngine e) =
      (s.tileDepth? l cb rb e.k e.acc).map fun acc => s.withEngine (e.atDepth (e.k + 1) acc) := by
  obtain ⟨rfl, rfl, rfl, -⟩ := he
  have hmore : (s.withEngine e).engine.k < (s.withEngine e).depthSteps (s.withEngine e).engine.latch.kernel := by
    simpa using hk
  rw [State.engineSteps_one (s := s.withEngine e) hb, State.engineStep_depth (s := s.withEngine e) hp hmore]
  simp only [State.withEngine_engine, State.tileDepth_withEngine]
  rfl

/-- The first `n` steps of the depth loop are the first `n` iterations. -/
theorem State.engineSteps_depth (hp : e.phase = .depth) (hk : e.k = 0) {n : Nat} (hn : n ≤ s.depthSteps l.kernel) :
    State.engineSteps? n (s.withEngine e) =
      (s.tileDepths? l cb rb n e.acc).map fun acc => s.withEngine (e.atDepth n acc) := by
  induction n with
  | zero =>
    have hstill : e.atDepth 0 e.acc = e := by rw [Engine.atDepth, ← hk]
    simp [State.engineSteps?, State.tileDepths?, hstill]
  | succ n ih =>
    rw [State.engineSteps_add n 1, ih (Nat.le_of_succ_le hn), State.tileDepths?, Option.bind_map, Option.map_bind]
    exact congrArg _ (funext fun acc => State.engineSteps_iteration hb (he.atDepth n acc) hp hn)

/-! ### The steps of one tile -/

omit hb in
/-- The float path's stores do not ask for Y (R908), so what the scaled engine holds there is as good as the stage's. -/
theorem State.tileStores_takeScaled (acc : Tile Word) (t : TileScaled) :
    s.tileStores l cb rb acc (e.takeScaled t).y = s.tileStores l cb rb acc t.y := by
  obtain ⟨(_ | _ | _ | _) | _, f⟩ := l
  case float => rfl
  all_goals simp only [Engine.takeScaled, he.latch]

end

/-- A tile's element writes, where every byte it reads and writes exists. -/
def State.tileDone? (s : State) (l : Latch) (cb rb : Nat) : Option (List Store) :=
  (s.tileRun? l cb rb).filter fun w => w.all s.mem.holds

theorem State.tilesRun_cons_eq (s : State) (l : Latch) (cb rb : Nat) (rest : List (Nat × Nat)) :
    s.tilesRun? l ((cb, rb) :: rest) = (s.tileDone? l cb rb).bind fun w => (s.tilesRun? l rest).map (w ++ ·) := by
  refine Option.ext fun ws => ?_
  rw [s.tilesRun_cons]
  simp only [State.tileDone?, Option.bind_eq_some_iff, Option.filter_eq_some_iff, Option.map_eq_some_iff]
  exact ⟨fun ⟨w, more, hw, hmore, hall, h⟩ => ⟨w, ⟨hw, hall⟩, more, hmore, h.symm⟩,
    fun ⟨w, ⟨hw, hall⟩, more, hmore, h⟩ => ⟨w, more, hw, hmore, hall, h.symm⟩⟩

/-- Once the accumulation is complete, the requantization and the store. -/
theorem State.engineSteps_finish {s : State} (hb : s.status.busy = true) {e : Engine} {l : Latch} {cb rb : Nat}
    {issued : List Store} (he : e.AtTile l cb rb issued) (hp : e.phase = .depth) (hk : e.k = s.depthSteps l.kernel) :
    (((s.tileScale? l rb e.acc).bind fun scaled => pure (s.tileStores l cb rb e.acc scaled.y)).filter
        (fun w => w.all s.mem.holds) = none ∧ State.engineSteps? (1 + 1) (s.withEngine e) = none) ∨
      ∃ e' w, e'.AtTile l cb rb issued ∧
        ((s.tileScale? l rb e.acc).bind fun scaled => pure (s.tileStores l cb rb e.acc scaled.y)).filter
          (fun w => w.all s.mem.holds) = some w ∧
        State.engineSteps? (1 + 1) (s.withEngine e) = some ((s.withEngine e').nextTile w) := by
  rw [State.engineSteps_add 1, State.engineSteps_scale hb he hp hk]
  cases s.tileScale? l rb e.acc with
  | none => exact .inl ⟨rfl, rfl⟩
  | some scaled =>
    have hscaled := he.takeScaled scaled
    rw [Option.map_some, Option.bind_some, Option.bind_some,
      State.engineSteps_store hb hscaled (Engine.takeScaled_phase _ _), State.tileStores_takeScaled he,
      Engine.takeScaled_acc]
    by_cases hholds : (s.tileStores l cb rb e.acc scaled.y).all s.mem.holds = true
    · exact .inr ⟨_, _, hscaled, Option.filter_some_pos hholds, if_pos hholds⟩
    · exact .inl ⟨Option.filter_some_neg (eq_false_of_ne_true hholds), if_neg hholds⟩

/-- A tile's steps, one for the start, one per iteration, one for the requantization and one for the store: the engine gets
through where the tile does, and goes on from there. -/
theorem State.engineSteps_tile {s : State} (hb : s.status.busy = true) {e : Engine} {l : Latch} {cb rb : Nat}
    {issued : List Store} (he : e.AtTile l cb rb issued) (hp : e.phase = .start) :
    (s.tileDone? l cb rb = none ∧ State.engineSteps? (s.depthSteps l.kernel + 3) (s.withEngine e) = none) ∨
      ∃ e' w, e'.AtTile l cb rb issued ∧ s.tileDone? l cb rb = some w ∧
        State.engineSteps? (s.depthSteps l.kernel + 3) (s.withEngine e) = some ((s.withEngine e').nextTile w) := by
  rw [show s.depthSteps l.kernel + 3 = 1 + (s.depthSteps l.kernel + (1 + 1)) by omega, State.engineSteps_add 1,
    State.engineSteps_start hb he hp, State.tileDone?, State.tileRun?]
  cases s.tileStart? l cb rb with
  | none => exact .inl ⟨rfl, rfl⟩
  | some first =>
    have hstart := he.takeStart first
    rw [Option.map_some, Option.bind_some, State.engineSteps_add (s.depthSteps l.kernel),
      State.engineSteps_depth hb hstart (Engine.takeStart_phase _ _) (Engine.takeStart_k _ _) le_rfl,
      Engine.takeStart_acc]
    simp only [Option.bind_eq_bind, Option.bind_some]
    cases s.tileDepths? l cb rb (s.depthSteps l.kernel) first.acc with
    | none => exact .inl ⟨rfl, rfl⟩
    | some acc =>
      rw [Option.map_some, Option.bind_some, Option.bind_some]
      have hfinish := State.engineSteps_finish hb (hstart.atDepth (s.depthSteps l.kernel) acc)
        ((Engine.atDepth_phase _ _ _).trans (Engine.takeStart_phase _ _)) (Engine.atDepth_k _ _ _)
      rwa [Engine.atDepth_acc] at hfinish

/-! ### From tile to tile (R420) -/

/-- Tile number `n` in the order of R420. -/
def State.tileAt (s : State) (n : Nat) : Nat × Nat := (n / s.rowBlocks, n % s.rowBlocks)

theorem State.tileAt_mul_add (s : State) (cb : Nat) {rb : Nat} (h : rb < s.rowBlocks) :
    s.tileAt (s.rowBlocks * cb + rb) = (cb, rb) := by
  rw [State.tileAt, Nat.mul_add_div s.rowBlocks_pos, Nat.div_eq_of_lt h, Nat.mul_add_mod, Nat.mod_eq_of_lt h,
    Nat.add_zero]

/-- The tiles are numbered from 0 in the order of R420. -/
theorem State.tiles_eq_map_tileAt (s : State) :
    s.tiles = (List.range (s.rowBlocks * s.colBlocks)).map s.tileAt := by
  rw [State.tiles]
  induction s.colBlocks with
  | zero => rfl
  | succ n ih =>
    rw [List.range_succ, List.flatMap_append, ih, Nat.mul_succ, List.range_add, List.map_append, List.map_map,
      List.flatMap_singleton]
    refine congrArg _ (List.map_congr_left fun rb hrb => ?_)
    exact (s.tileAt_mul_add n (List.mem_range.mp hrb)).symm

/-- After tile number `n` the engine stands at the next one, or has completed the command after the last. -/
theorem State.nextTile_withEngine {s : State} {e : Engine} {l : Latch} {n : Nat} {issued : List Store}
    (he : e.AtTile l (s.tileAt n).1 (s.tileAt n).2 issued) (hn : n < s.rowBlocks * s.colBlocks) (w : List Store) :
    (n + 1 < s.rowBlocks * s.colBlocks ∧ ∃ e', (s.withEngine e).nextTile w = s.withEngine e' ∧
        e'.AtTile l (s.tileAt (n + 1)).1 (s.tileAt (n + 1)).2 (issued ++ w) ∧ e'.phase = .start) ∨
      (n + 1 = s.rowBlocks * s.colBlocks ∧ (s.withEngine e).nextTile w = s.complete (issued ++ w)) := by
  have hsplit := Nat.div_add_mod n s.rowBlocks
  have hrb := Nat.mod_lt n s.rowBlocks_pos
  have hcb := Nat.div_lt_of_lt_mul hn
  have hcolumn {c : Nat} (h : c ≤ s.colBlocks) : s.rowBlocks * c ≤ s.rowBlocks * s.colBlocks :=
    Nat.mul_le_mul_left _ h
  have hnext : (s.withEngine e).nextTile w =
      if n % s.rowBlocks + 1 < s.rowBlocks then
        s.withEngine ((s.withEngine e).engineAt (n / s.rowBlocks) (n % s.rowBlocks + 1) (issued ++ w))
      else if n / s.rowBlocks + 1 < s.colBlocks then
        s.withEngine ((s.withEngine e).engineAt (n / s.rowBlocks + 1) 0 (issued ++ w))
      else s.complete (issued ++ w) := by
    simp only [State.nextTile, State.withEngine_engine, State.rowBlocks_withEngine, State.colBlocks_withEngine, he.cb,
      he.rb, he.issued, State.complete_withEngine]
    rfl
  by_cases hrow : n % s.rowBlocks + 1 < s.rowBlocks
  · have hn' : n + 1 = s.rowBlocks * (n / s.rowBlocks) + (n % s.rowBlocks + 1) := by omega
    have hle := hcolumn (Nat.succ_le_of_lt hcb)
    rw [Nat.mul_succ] at hle
    rw [hnext, if_pos hrow, hn', s.tileAt_mul_add _ hrow]
    exact .inl ⟨by omega, _, rfl, ⟨he.latch, rfl, rfl, rfl⟩, rfl⟩
  by_cases hcol : n / s.rowBlocks + 1 < s.colBlocks
  · have hn' : n + 1 = s.rowBlocks * (n / s.rowBlocks + 1) + 0 := by
      rw [Nat.mul_succ]
      omega
    have hle := hcolumn (Nat.succ_le_of_lt hcol)
    have hpos := s.rowBlocks_pos
    rw [Nat.mul_succ] at hle
    rw [hnext, if_neg hrow, if_pos hcol, hn', s.tileAt_mul_add _ hpos]
    exact .inl ⟨by omega, _, rfl, ⟨he.latch, rfl, rfl, rfl⟩, rfl⟩
  · have hlast : s.colBlocks = n / s.rowBlocks + 1 := by omega
    rw [hnext, if_neg hrow, if_neg hcol]
    refine .inr ⟨?_, rfl⟩
    rw [hlast, Nat.mul_succ]
    omega

/-- The engine's steps from tile number `n` on are the run of the `m + 1` tiles that are left. -/
theorem State.engineSteps_tiles {s : State} (hb : s.status.busy = true) {l : Latch} (m : Nat) :
    ∀ {n : Nat} {e : Engine} {issued : List Store}, n + m + 1 = s.rowBlocks * s.colBlocks →
      e.AtTile l (s.tileAt n).1 (s.tileAt n).2 issued → e.phase = .start →
      State.engineSteps? ((m + 1) * (s.depthSteps l.kernel + 3)) (s.withEngine e) =
        (s.tilesRun? l ((List.range' n (m + 1)).map s.tileAt)).map fun ws => s.complete (issued ++ ws) := by
  induction m with
  | zero =>
    intro n e issued hn he hp
    rw [List.range'_one, List.map_singleton, s.tilesRun_cons_eq l (s.tileAt n).1 (s.tileAt n).2, Nat.zero_add, Nat.one_mul]
    obtain ⟨hdone, hsteps⟩ | ⟨e', w, he', hdone, hsteps⟩ := State.engineSteps_tile hb he hp
    · rw [hsteps, hdone]
      rfl
    · obtain ⟨hmore, -⟩ | ⟨-, hcomplete⟩ := State.nextTile_withEngine he' (by omega) w
      · omega
      · rw [hsteps, hdone, hcomplete]
        simp [State.tilesRun?]
  | succ m ih =>
    intro n e issued hn he hp
    rw [List.range'_succ, List.map_cons, s.tilesRun_cons_eq l (s.tileAt n).1 (s.tileAt n).2, Nat.succ_mul, Nat.add_comm,
      State.engineSteps_add]
    obtain ⟨hdone, hsteps⟩ | ⟨e', w, he', hdone, hsteps⟩ := State.engineSteps_tile hb he hp
    · rw [hsteps, hdone]
      rfl
    · obtain ⟨-, e'', hnext, he'', hp''⟩ | ⟨hlast, -⟩ := State.nextTile_withEngine he' (by omega) w
      · rw [hsteps, hdone, hnext, Option.bind_some, Option.bind_some, ih (by omega) he'' hp'', Option.map_map]
        simp only [Function.comp_def, List.append_assoc]
      · omega

/-- From acceptance the engine's steps are the kernel's run to completion. -/
theorem State.engineSteps_accept (s : State) (l : Latch) :
    State.engineSteps? (s.engineStepCount l) (s.accept l) = (s.kernelRun? l).map (s.accept l).complete := by
  have hd := State.accept_desc s l
  have hpos : 0 < (s.accept l).rowBlocks * (s.accept l).colBlocks :=
    Nat.mul_pos (s.accept l).rowBlocks_pos (s.accept l).colBlocks_pos
  obtain ⟨m, hm⟩ := Nat.exists_eq_add_of_lt hpos
  have hfirst : (s.accept l).tileAt 0 = (0, 0) := by simp [State.tileAt]
  have hsteps := State.engineSteps_tiles (s := s.accept l) (n := 0) (e := (s.accept l).engine) (issued := []) rfl m hm.symm
    ⟨rfl, by rw [hfirst]; rfl, by rw [hfirst]; rfl, rfl⟩ rfl
  rw [← s.kernelRun_accept l l, State.kernelRun?, State.tiles_eq_map_tileAt, ← State.engineStepCount_congr hd,
    State.engineStepCount, Nat.mul_comm (s.accept l).colBlocks, List.range_eq_range']
  rw [Nat.zero_add] at hm
  rw [hm]
  exact hsteps

end Sys2Proof.Machine
end

section
/-! The statements about the engine among other agents: O53 and O54. -/

namespace Sys2Proof.Machine

/-- Settles O53: both are the kernel's run, to completion where it gets through and stuck where it does not. -/
theorem engineStepsRefineCommand : Obligations.EngineStepsRefineCommand := by
  intro i l s hl hw hb hc hs
  rw [Option.isNone_iff_eq_none] at hs
  have hexec : exec i s = (s.accept l).runKernel l := by
    rw [exec_eq_runCommand hl hw hb]
    exact State.command_of_runs hb hc hs _
  rw [hexec, State.engineSteps_accept, State.runKernel, State.kernelRun_accept]
  refine ⟨by rw [beginInstr_eq_beginCommand hl hw hb, State.beginCommand_of_runs hb hc hs], ?_⟩
  cases s.kernelRun? l with
  | none => simp
  | some ws => simp

/-- Settles O54: a command that runs gets through its kernel, and a step of the machine takes the engine's where it is the
engine's turn. -/
theorem commandEndsInFiniteSteps : Obligations.CommandEndsInFiniteSteps := by
  refine ⟨fun s l h => ?ends, fun s hin => ?alone, ?turn⟩
  case ends =>
    obtain ⟨ws, hk⟩ := State.exists_kernelRun_of_runs h
    refine ⟨(s.accept l).complete ws, ?_, rfl, rfl⟩
    rw [State.engineSteps_accept, hk, Option.map_some]
  case alone =>
    refine ⟨fun t hb he => ?_, fun hb he => ?_, fun hb => step_ended (by simp [State.ended, hin, hb])⟩
    · simp only [step, hin, hb, if_true, he]
    · simp only [step, hin, hb, if_true, he]
  case turn =>
    intro s rest hin turn
    have hstep : step s = .next turn.engineTurn := step_eq_take hin
    have hbusy : turn.status.busy = s.status.busy := rfl
    refine ⟨fun t hb he => ?_, fun hb he => ?_, fun hb => ?_⟩
    · rw [hstep, State.engineTurn, hbusy, if_pos hb, he, Option.getD_some]
    · rw [hstep, State.engineTurn, hbusy, if_pos hb, he, Option.getD_none]
    · rw [hstep, State.engineTurn, hbusy, hb]
      rfl

end Sys2Proof.Machine
end

section
/-! The scalar reference's rescaling (R704, R708) against the stages': RHAZ by sign and magnitude, and RQ_up on integers against
its register widths. -/

namespace Sys2Proof.Machine

/-! ### RHAZ by sign and magnitude (R18) -/

/-- Twice the magnitude over twice the divisor, with half of it added: the same quotient. -/
theorem halved_div {s : Nat} (hs : 0 < s) (q : Nat) : (2 * q + 2 ^ s) / 2 ^ (s + 1) = (q + 2 ^ (s - 1)) / 2 ^ s := by
  have hhalf : 2 ^ s = 2 * 2 ^ (s - 1) := (mul_pow_sub_one hs.ne' 2).symm
  rw [pow_succ', ← Nat.mul_div_mul_left (q + 2 ^ (s - 1)) (2 ^ s) (by decide : 0 < 2), Nat.mul_add, ← hhalf]

theorem rhaz_eq_sign_mul (p : Int) {s : Nat} (hs : 0 < s) :
    rhaz p s = p.sign * (((2 * p.natAbs + 2 ^ s) / 2 ^ (s + 1) : Nat) : Int) := by
  have hcast : (((p.natAbs + 2 ^ (s - 1)) / 2 ^ s : Nat) : Int) = (|p| + 2 ^ (s - 1)) / 2 ^ s := by
    push_cast
    rfl
  rw [halved_div hs, hcast, rhaz, if_neg hs.ne']
  rcases lt_trichotomy p 0 with hp | rfl | hp
  · rw [if_neg hp.not_ge, Int.sign_eq_neg_one_of_neg hp, abs_of_neg hp, neg_one_mul]
  · have hsmall : (2 : Int) ^ (s - 1) < 2 ^ s := pow_lt_pow_right₀ (by decide) (by omega)
    simp [Int.ediv_eq_zero_of_lt (by positivity) hsmall]
  · rw [if_pos hp.le, Int.sign_eq_one_of_pos hp, abs_of_pos hp, one_mul]

/-- The reference's EXACT rescaling is RQ. -/
theorem requantValue_exact_eq_exactRef (x m e : Int) : requantValue .exact x m e = exactRef x m e := by
  rw [requantValue_exact, rhaz_eq_sign_mul _ (Nat.add_pos_left (by decide) _), exactRef]

/-! ### RQ_up in register widths (R708) -/

/-- A word shifted left is its integer times the power, cut; shifts of 32 and more leave 0. -/
theorem toInt_shiftLeft_ofInt (x : Int) (n : Nat) :
    (BitVec.ofInt 32 x <<< n).toInt = if n < 32 then wrap32 (x * 2 ^ n) else 0 := by
  split_ifs with hn
  · have hword : BitVec.ofInt 32 x <<< n = trunc32 (x * 2 ^ n) := by
      have hpow : BitVec.twoPow 32 n = BitVec.ofInt 32 (2 ^ n) := by
        rw [show (2 : Int) ^ n = ((2 ^ n : Nat) : Int) by push_cast; rfl, BitVec.ofInt_natCast]
        exact BitVec.eq_of_toNat_eq ((BitVec.toNat_twoPow 32 n).trans (BitVec.toNat_ofNat (2 ^ n) 32).symm)
      rw [BitVec.shiftLeft_eq_mul_twoPow, trunc32, BitVec.ofInt_mul, hpow]
    rw [hword]
    rfl
  · rw [BitVec.shiftLeft_eq_zero (by omega)]
    rfl

theorem toNat_shiftLeft_half (n : Nat) :
    (BitVec.ofNat 64 (2 ^ 30) <<< n).toNat = if n < 34 then 2 ^ 30 * 2 ^ n % 2 ^ 64 else 0 := by
  rw [BitVec.toNat_shiftLeft, Nat.shiftLeft_eq, BitVec.toNat_ofNat, Nat.mod_mul_mod]
  split_ifs with hn
  · rfl
  · obtain ⟨k, rfl⟩ := Nat.exists_eq_add_of_le (Nat.le_of_not_lt hn)
    rw [Nat.pow_add, ← Nat.mul_assoc, ← Nat.pow_add]
    exact Nat.mul_mod_right _ _

theorem toNat_shiftRight_of_width {w : Nat} (u : BitVec w) (n : Nat) :
    (u >>> n).toNat = if n < w then u.toNat / 2 ^ n else 0 := by
  rw [BitVec.toNat_ushiftRight, Nat.shiftRight_eq_div_pow]
  split_ifs with hn
  · rfl
  · exact Nat.div_eq_of_lt (lt_of_lt_of_le u.isLt (Nat.pow_le_pow_right (by decide) (Nat.le_of_not_lt hn)))

/-- The difference of two words as the cut difference of their numbers. -/
theorem setWidth_sub_eq_trunc32 (q : BitVec 64) (w : Word) :
    q.setWidth 32 - w = trunc32 ((q.toNat : Int) - w.toNat) := by
  apply BitVec.eq_of_toNat_eq
  have hw := w.isLt
  rw [BitVec.toNat_sub, BitVec.toNat_setWidth, trunc32, BitVec.toNat_ofInt]
  omega

/-- RQ_up on integers is RQ_up in the registers of R708. -/
theorem rqUpstream_eq_upstreamRef (x m e : Int) : rqUpstream x m e = upstreamRef x m e := by
  have hls : leftShift e = (max e 0).toNat := by rw [leftShift]; omega
  have hrs : rightShift e = (max (-e) 0).toNat := by rw [rightShift]; omega
  rw [upstreamRef, rqUpstream, hls, hrs]
  generalize (max e 0).toNat = ls
  generalize (max (-e) 0).toNat = rs
  have hoff := toNat_shiftLeft_half rs
  have hpso : (2#32 * (BitVec.ofNat 32 (2 ^ 31) >>> rs)).toNat =
      if rs < 32 then 2 * (2 ^ 31 / 2 ^ rs) % 2 ^ 32 else 0 := by
    rw [BitVec.toNat_mul, toNat_shiftRight_of_width]
    split_ifs <;> rfl
  have hu (p : Int) : (BitVec.ofInt 64 p + BitVec.ofNat 64 (2 ^ 30) <<< rs + BitVec.ofNat 64 (2 ^ 63)).toNat =
      ((p + ((if rs < 34 then 2 ^ 30 * 2 ^ rs % 2 ^ 64 else 0 : Nat) : Int) + 2 ^ 63) % 2 ^ 64).toNat := by
    rw [← hoff, BitVec.toNat_add, BitVec.toNat_add, BitVec.toNat_ofInt, BitVec.toNat_ofNat]
    omega
  rw [setWidth_sub_eq_trunc32, toInt_shiftLeft_ofInt, toNat_shiftRight_of_width, hu, hpso]
  rfl

end Sys2Proof.Machine
end

section
/-! An element's value (R711): the stages seen from one cell give the scalar reference of the element at its absolute row and
column, on both paths. -/

namespace Sys2Proof.Machine

/-! ### The quantized path -/

section
variable {s : State} {d : QDst} {f : Flags} {cb rb c r : Nat}

/-- A valid cell starts from the bias less the row and the column term (R500, R603). -/
theorem State.cellStart_quant {w : Word} (h : s.cellStart? ⟨.quant d, f⟩ cb rb c r = some w) (hr : r < s.residualRows rb)
    (hc : c < s.residualCols cb) :
    w = trunc32 (s.biasRef f (s.rowOf rb + r) - s.rowTermRef f (s.rowOf rb + r) - s.colTermRef f (s.colOf cb + c)) := by
  simp only [State.cellStart?, Option.bind_eq_bind, Option.bind_eq_some_iff, Option.pure_def, Option.some.injEq] at h
  obtain ⟨bias, hbias, lsum, hlsum, rsum, hrsum, rfl⟩ := h
  rw [State.bias_eq_trunc32 hbias, State.rowTerm_eq_trunc32 hlsum, if_pos hc, State.colTerm_eq_trunc32 hrsum hc,
    zeroPointCell_trunc32, if_pos hr, if_pos hr]

/-- A valid cell that starts right is after the depth loop the reference's accumulator (R504). -/
theorem State.s32_at_tileDepths_of_cellStart {init acc : Tile Word} (hd : s.badDepth (.quant d) = false)
    (hstart : s.cellStart? ⟨.quant d, f⟩ cb rb c r = some (Oct.at init c r))
    (hacc : s.tileDepths? ⟨.quant d, f⟩ cb rb (s.depthSteps (.quant d)) init = some acc) (hr : r < s.residualRows rb)
    (hc : c < s.residualCols cb) : s32 (Oct.at acc c r) = s.accRef f (s.rowOf rb + r) (s.colOf cb + c) := by
  have hr8 : r < 8 := hr.trans_le (s.residualRows_le rb)
  have hc8 : c < 8 := hc.trans_le (s.residualCols_le cb)
  rw [State.at_tileDepths_quant hacc hc8 hr8, State.cellStart_quant hstart hr hc, trunc32_add, State.four_mul_depthSteps hd,
    State.accRef, ← wrap32_eq_wrapRef, wrap32, State.dotRef]
  simp only [s.lhsTile_eq_lhsRef d rb _ hr8, s.rhsTile_eq_rhsRef d cb _ hc8]
  congr 2
  ring

/-- A multiplier or exponent of a valid row is the reference's (R702). -/
theorem State.s32_scaleLane {p : Ptr} {scalar : DescReg} {row rr : Nat} {w : Word}
    (h : s.scaleLane? ⟨.quant d, f⟩ p scalar row rr r = some w) (hr : r < rr) :
    s32 w = s.scaleRef f p scalar (row + r) := by
  rw [State.scaleLane?] at h
  rw [State.scaleRef]
  split_ifs at h ⊢ with hp
  · rw [State.eq_of_sideLane h, if_pos ⟨rfl, hr⟩]
  · cases h
    rfl

/-- Y of a valid cell: the accumulator for I32, else its rescaling in the block's mode (R701). -/
theorem State.cellScaled_quant {acc : Word} {y : Int} (h : s.cellScaled? ⟨.quant d, f⟩ rb r acc = some y)
    (hr : r < s.residualRows rb) :
    y = if d = .i32 then s32 acc else
      requantValue s.params.requantMode (s32 acc) (s.scaleRef f .multFpPtr .multFp (s.rowOf rb + r))
        (s.scaleRef f .multExpPtr .multExp (s.rowOf rb + r)) := by
  cases d with
  | i32 => exact (Option.some.inj h).symm
  | _ =>
    simp only [State.cellScaled?, Option.bind_eq_bind, Option.bind_eq_some_iff, Option.pure_def, Option.some.injEq] at h
    obtain ⟨m, hm, e, he, rfl⟩ := h
    rw [State.s32_scaleLane hm hr, State.s32_scaleLane he hr]
    rfl

end

/-- Zero point, clamp and I32's raw store give the reference's value (R801, R802, R804, R814). -/
theorem State.quantValue_eq_valueRef (s : State) (d : QDst) (f : Flags) (i j : Nat) :
    s.quantValue d (if d = .i32 then s.accRef f i j else
      requantValue s.params.requantMode (s.accRef f i j) (s.scaleRef f .multFpPtr .multFp i)
        (s.scaleRef f .multExpPtr .multExp i)) = s.valueRef d f i j := by
  by_cases hd : d = .i32
  · subst hd
    cases hpost : s.params.int32Post <;> simp [State.quantValue, State.valueRef, State.zeroPointed, clampInt, hpost]
  · have hclamp (y : Int) : s.quantValue d y =
        clampInt (addDstZp s.params.requantMode y (s.sreg .dstZp)) (s.sreg .clampMin) (s.sreg .clampMax) := by
      cases d with
      | i32 => exact absurd rfl hd
      | _ => rfl
    rw [hclamp, State.valueRef, if_neg hd, if_neg hd]
    cases s.params.requantMode with
    | exact => rw [requantValue_exact_eq_exactRef]; rfl
    | upstreamAvx2 => rw [requantValue, rqUpstream_eq_upstreamRef, addDstZp, wrap32_eq_wrapRef]; rfl

theorem State.elementBits_quant (s : State) (d : QDst) (f : Flags) (acc : Word) (y : Int) :
    s.elementBits ⟨.quant d, f⟩ acc y = trunc32 (s.quantValue d y) := rfl

/-- Narrowing keeps the low bits (R806): the bits of the cut value below the element's size. -/
theorem toNat_trunc32_mod (v : Int) {n : Nat} (hn : n ≤ 4) :
    (trunc32 v).toNat % 256 ^ n = (v % 2 ^ (8 * n)).toNat := by
  have hdvd : (2 : Int) ^ (8 * n) ∣ 2 ^ 32 := pow_dvd_pow 2 (by omega)
  have hpow : ((256 ^ n : Nat) : Int) = 2 ^ (8 * n) := by
    push_cast
    rw [pow_mul]
    norm_num
  have hnonneg : 0 ≤ v % 2 ^ 32 := Int.emod_nonneg _ (by decide)
  zify
  rw [trunc32, BitVec.toNat_ofInt, Int.toNat_of_nonneg (by exact_mod_cast hnonneg)]
  rw [Int.toNat_of_nonneg (Int.emod_nonneg _ (by positivity)), ← Nat.cast_ofNat (R := Int), ← Nat.cast_pow, hpow]
  exact Int.emod_emod_of_dvd v (by exact_mod_cast hdvd)

/-! ### The float path -/

/-- The binary32 values of a packed block at one depth. -/
theorem State.get_of_floatStep {s : State} {blk d i : Nat} {o : Oct Word} (h : s.floatStep? blk d = some o) (hi : i < 8) :
    o.get i = s.memWord (blk + 4 * (8 * d + i)) := by
  have hread := (Oct.all?_eq_some _ _).mp h i hi
  rw [Option.map_eq_some_iff] at hread
  obtain ⟨v, hv, hw⟩ := hread
  rw [← hw, State.memWord, hv, Option.getD_some]

/-- A tile's LHS and RHS values are the packed values of their absolute row and column (R215). -/
theorem State.packedFloat_lhs (s : State) (rb d : Nat) {r : Nat} (hr : r < 8) :
    s.memWord (s.lhsBlk .float rb + 4 * (8 * d + r)) =
      s.packedFloat (s.ptr .lhsBase) (s.ureg .lhsStride) (s.nreg .startRow) (s.rowOf rb + r) d := by
  simp only [State.packedFloat, State.lhsBlk, State.rowOf, block_and_lane_of_index _ rb hr, Kernel.packedSize]

theorem State.packedFloat_rhs (s : State) (cb d : Nat) {c : Nat} (hc : c < 8) :
    s.memWord (s.rhsBlk .float cb + 4 * (8 * d + c)) =
      s.packedFloat (s.ptr .rhsBase) (s.ureg .rhsStride) (s.nreg .startCol) (s.colOf cb + c) d := by
  simp only [State.packedFloat, State.rhsBlk, State.colOf, block_and_lane_of_index _ cb hc, Kernel.packedSize]

section
variable {s : State} {f : Flags} {cb rb c r : Nat}

/-- After `n` depth steps each cell is the chain of `n` fused multiply-adds from its start (R903, R904). -/
theorem State.at_tileDepths_float {n : Nat} {init acc : Tile Word}
    (h : s.tileDepths? ⟨.float, f⟩ cb rb n init = some acc) (hc : c < 8) (hr : r < 8) :
    Oct.at acc c r = (List.range n).foldl (fun a d =>
      fma32 (s.packedFloat (s.ptr .lhsBase) (s.ureg .lhsStride) (s.nreg .startRow) (s.rowOf rb + r) d)
        (s.packedFloat (s.ptr .rhsBase) (s.ureg .rhsStride) (s.nreg .startCol) (s.colOf cb + c) d) a) (Oct.at init c r) := by
  induction n generalizing acc with
  | zero => cases h; rfl
  | succ n ih =>
    obtain ⟨before, hbefore, hstep⟩ := Option.bind_eq_some_iff.mp h
    simp only [State.tileDepth?, State.accumulateStepF?, Option.bind_eq_bind, Option.bind_eq_some_iff, Option.pure_def,
      Option.some.injEq] at hstep
    obtain ⟨lhs, hlhs, rhs, hrhs, rfl⟩ := hstep
    rw [fmaTile, Oct.at_tileOf _ hc hr, State.get_of_floatStep hlhs hr, State.get_of_floatStep hrhs hc,
      s.packedFloat_lhs rb n hr, s.packedFloat_rhs cb n hc, List.range_succ, List.foldl_append, ← ih hbefore]
    rfl

/-- A valid cell that starts right is after the depth loop the reference's accumulator. -/
theorem State.at_tileDepths_of_cellStart {init acc : Tile Word}
    (hstart : s.cellStart? ⟨.float, f⟩ cb rb c r = some (Oct.at init c r))
    (hacc : s.tileDepths? ⟨.float, f⟩ cb rb (s.depthSteps .float) init = some acc) (hr : r < s.residualRows rb)
    (hc : c < s.residualCols cb) : Oct.at acc c r = s.accFloatRef f (s.rowOf rb + r) (s.colOf cb + c) := by
  have hinit : Oct.at init c r = if f.bias then s.memWord (s.sideAddr .bias (s.rowOf rb + r)) else 0 := by
    simp only [State.cellStart?, Option.bind_eq_bind, Option.bind_eq_some_iff, Option.pure_def, Option.some.injEq] at hstart
    obtain ⟨bias, hbias, rfl⟩ := hstart
    rw [State.eq_of_sideLane hbias]
    simp only [hr, and_true]
  have hdepth : s.depthSteps .float = s.nreg .depth := Nat.div_one _
  rw [State.at_tileDepths_float hacc (hc.trans_le (s.residualCols_le cb)) (hr.trans_le (s.residualRows_le rb)), hinit, hdepth,
    State.accFloatRef]

end

/-! ### Both paths -/

theorem Kernel.elemSize_le (k : Kernel) : k.elemSize ≤ 4 := by
  rcases k with (_ | _ | _ | _) | _ <;> decide

/-- What a valid element's write stores is the reference's value, where the accumulation started right in its own cell. -/
theorem State.elementBits_eq_elementRef {s : State} {l : Latch} {cb rb c r : Nat} {init acc : Tile Word} {y : Int}
    (hd : s.badDepth l.kernel = false) (hstart : s.cellStart? l cb rb c r = some (Oct.at init c r))
    (hacc : s.tileDepths? l cb rb (s.depthSteps l.kernel) init = some acc)
    (hy : s.cellScaled? l rb r (Oct.at acc c r) = some y) (hr : r < s.residualRows rb) (hc : c < s.residualCols cb) :
    (s.elementBits l (Oct.at acc c r) y).toNat % 256 ^ l.kernel.elemSize =
      s.elementRef l (s.rowOf rb + r) (s.colOf cb + c) := by
  obtain ⟨d | _, f⟩ := l
  · rw [State.cellScaled_quant hy hr, State.s32_at_tileDepths_of_cellStart hd hstart hacc hr hc, State.elementBits_quant,
      State.quantValue_eq_valueRef, toNat_trunc32_mod _ (Kernel.elemSize_le _)]
    rfl
  · rw [State.at_tileDepths_of_cellStart hstart hacc hr hc]
    exact Nat.mod_eq_of_lt (BitVec.isLt _)

end Sys2Proof.Machine
end

section
/-! The element writes of a command in memory (R211, R232, R424): each element of a command without aliasing reads, after any
of them, the reference or its old value. -/

namespace Sys2Proof.Machine

/-! ### What an element reads after element writes -/

theorem Memory.storeAll_cons (m : Memory) (st : Store) (ws : List Store) :
    m.storeAll (st :: ws) = (m.store st).storeAll ws := rfl

/-- Where every write either hits the element, with one value, or misses it, the element reads that value or is as before. -/
theorem Memory.read?_storeAll {a n v : Nat} {ws : List Store} : ∀ {m : Memory},
    (∀ st ∈ ws, st.addr = a → st.size = n ∧ st.value.toNat % 256 ^ n = v ∧ m.covers a n = true) →
    (∀ st ∈ ws, st.addr ≠ a → ∀ x, a ≤ x → x < a + n → x < st.addr ∨ st.addr + st.size ≤ x) →
    (m.storeAll ws).read? a n = if ∃ st ∈ ws, st.addr = a then some v else m.read? a n := by
  induction ws with
  | nil =>
    intro m _ _
    simp [Memory.storeAll]
  | cons st ws ih =>
    intro m hhit hmiss
    have hcovers : (m.store st).covers a n = m.covers a n := Memory.covers_congr (fun x => Memory.has_write ..) a n
    rw [Memory.storeAll_cons, ih (fun t ht => hcovers ▸ hhit t (List.mem_cons_of_mem _ ht))
      (fun t ht => hmiss t (List.mem_cons_of_mem _ ht))]
    by_cases hlater : ∃ t ∈ ws, t.addr = a
    · rw [if_pos hlater, if_pos (by simpa using Or.inr hlater)]
    · rw [if_neg hlater]
      by_cases haddr : st.addr = a
      · obtain ⟨hsize, hvalue, hcov⟩ := hhit st List.mem_cons_self haddr
        rw [if_pos ⟨st, List.mem_cons_self, haddr⟩, Memory.store, haddr, hsize, Memory.read?_write n m a _ hcov, hvalue]
      · rw [if_neg (by simpa [haddr] using hlater)]
        exact Memory.read?_congr n m (m.store st) a fun x hlo hhi =>
          Memory.byte?_write_ne _ m _ _ x (hmiss st List.mem_cons_self haddr x hlo hhi)

/-- Element writes that store the reference, each at an element of the rectangle that exists. -/
def State.StoresReference (s : State) (l : Latch) (ws : List Store) : Prop :=
  ∀ st ∈ ws, s.mem.holds st = true ∧ ∃ i j, s.writes i j ∧ st.addr = s.dstAddr l.kernel i j ∧
    st.size = l.kernel.elemSize ∧ st.value.toNat % 256 ^ l.kernel.elemSize = s.elementRef l i j

/-- An element's first byte is its own. -/
theorem State.inInterval_element_addr (s : State) (l : Latch) (i j : Nat) :
    inInterval (s.element l i j) (s.dstAddr l.kernel i j) = true := by
  have hpos := l.kernel.elemSize_pos
  rw [inInterval_iff]
  exact ⟨le_rfl, Nat.lt_add_of_pos_right hpos⟩

/-- In a command without aliasing, an element reads the reference after such writes if one is its own. -/
theorem State.read?_storeAll_element {s : State} {l : Latch} (ha : s.aliases l = false) {ws : List Store}
    (hws : s.StoresReference l ws) {i j : Nat} (hij : s.writes i j) :
    (s.mem.storeAll ws).read? (s.dstAddr l.kernel i j) l.kernel.elemSize =
      if ∃ st ∈ ws, st.addr = s.dstAddr l.kernel i j then some (s.elementRef l i j)
      else s.mem.read? (s.dstAddr l.kernel i j) l.kernel.elemSize := by
  refine Memory.read?_storeAll (fun st hst haddr => ?hit) fun st hst hne x hlo hhi => ?miss
  all_goals obtain ⟨hholds, i', j', hij', haddr', hsize, hvalue⟩ := hws st hst
  case hit =>
    have hown := s.inInterval_element_addr l i j
    have hother := s.inInterval_element_addr l i' j'
    rw [← haddr', haddr] at hother
    obtain ⟨rfl, rfl⟩ := State.element_eq_of_common ha hij hij' hown hother
    refine ⟨hsize, hvalue, ?_⟩
    rwa [Memory.holds, haddr', hsize] at hholds
  case miss =>
    by_contra hin
    have hother : inInterval (s.element l i' j') x = true := by
      rw [inInterval_iff, State.element, ← haddr', ← hsize]
      dsimp only
      omega
    obtain ⟨rfl, rfl⟩ := State.element_eq_of_common ha hij hij' ((inInterval_iff _ _).mpr ⟨hlo, hhi⟩) hother
    exact hne haddr'

/-! ### The element writes of a running command (R232, R434) -/

/-- What the engine can write at an element is the reference's value. -/
theorem State.storesReference_possibleStores {s : State} {l : Latch} (hd : s.badDepth l.kernel = false) :
    s.StoresReference l (s.possibleStores l) := by
  intro st hst
  simp only [State.possibleStores, List.mem_filter, List.mem_flatMap, Prod.exists, State.tileElements] at hst
  obtain ⟨⟨cb, rb, ht, hst⟩, hholds⟩ := hst
  split at hst
  case h_2 => cases hst
  case h_1 acc hacc =>
    simp only [List.mem_filterMap, Prod.exists, State.cellStore?, Option.bind_eq_bind, Option.bind_eq_some_iff,
      Option.pure_def, Option.some.injEq] at hst
    obtain ⟨c, r, hcell, w, hw, y, hy, rfl⟩ := hst
    obtain ⟨hc, hr⟩ := (s.mem_validCells cb rb c r).mp hcell
    obtain ⟨hc8, hr8⟩ := State.validCell_lt hcell
    refine ⟨hholds, _, _, (s.writes_iff _ _).mpr ⟨cb, rb, c, r, ht, hc, hr, rfl, rfl⟩, rfl, rfl, ?_⟩
    refine State.elementBits_eq_elementRef hd ?_ hacc hy hr hc
    rw [Oct.at_tileOf _ hc8 hr8, hw, Option.getD_some]

theorem State.tilesRun_eq_flatMap {s : State} {l : Latch} {ts : List (Nat × Nat)} : ∀ {ws : List Store},
    s.tilesRun? l ts = some ws →
      ws = ts.flatMap (fun t => s.tileElements l t.1 t.2) ∧ ∀ st ∈ ws, s.mem.holds st = true := by
  induction ts with
  | nil =>
    intro ws h
    cases h
    exact ⟨rfl, nofun⟩
  | cons t ts ih =>
    intro ws h
    obtain ⟨w, more, hw, hmore, hall, rfl⟩ := (s.tilesRun_cons l t.1 t.2 ts ws).mp h
    obtain ⟨hmoreEq, hmoreHolds⟩ := ih hmore
    refine ⟨?_, fun st hst => ?_⟩
    · rw [List.flatMap_cons, State.tileElements_eq_of_tileRun hw, ← hmoreEq]
    · rcases List.mem_append.mp hst with hst | hst
      · exact List.all_eq_true.mp hall st hst
      · exact hmoreHolds st hst

/-- Where the kernel gets through, what the free order allows is the kernel's element writes. -/
theorem State.possibleStores_eq_of_kernelRun {s : State} {l : Latch} {ws : List Store} (h : s.kernelRun? l = some ws) :
    s.possibleStores l = ws := by
  obtain ⟨heq, hholds⟩ := State.tilesRun_eq_flatMap h
  rw [State.possibleStores, ← heq]
  exact List.filter_eq_self.mpr hholds

/-- After the whole kernel of a command without aliasing every element of the rectangle reads the reference. -/
theorem State.read?_storeAll_kernelRun {s : State} {l : Latch} {ws : List Store} (hd : s.badDepth l.kernel = false)
    (ha : s.aliases l = false) (hk : s.kernelRun? l = some ws) {i j : Nat} (hij : s.writes i j) :
    (s.mem.storeAll ws).read? (s.dstAddr l.kernel i j) l.kernel.elemSize = some (s.elementRef l i j) := by
  have hws : s.StoresReference l ws := State.possibleStores_eq_of_kernelRun hk ▸ State.storesReference_possibleStores hd
  rw [State.read?_storeAll_element ha hws hij, if_pos (State.exists_mem_kernelRun_of_writes hk hij)]

/-- A command that runs completes with the reference at every element of the rectangle. -/
theorem exec_stores_elementRef {i : Instr} {l : Latch} {s : State} (hl : i.latch = some l) (hw : i.wellFormed = true)
    (h : s.runs l = true) :
    ∃ t, exec i s = .next t ∧ t.status.done = true ∧ ∀ r c, s.writes r c →
      t.mem.read? (s.dstAddr l.kernel r c) l.kernel.elemSize = some (s.elementRef l r c) := by
  obtain ⟨-, hc, hs, hexist⟩ := (s.runs_iff l).mp h
  obtain ⟨-, hd, -⟩ := State.checks_of_startCheck hc
  obtain ⟨ws, hk⟩ := State.exists_kernelRun_of_runs h
  refine ⟨_, exec_of_runs hl hw h hk, rfl, fun r c hrc => ?_⟩
  rw [State.complete_mem, State.accept_mem]
  exact State.read?_storeAll_kernelRun hd (State.not_aliases (Option.isNone_iff_eq_none.mpr hs) hexist) hk hrc

/-! ### Memory as another agent or a reset finds it (R235, R1104) -/

@[simp] theorem State.racedMem_setInputs (s : State) (is : List Input) :
    State.racedMem { s with inputs := is } = s.racedMem := by
  have hd : State.desc { s with inputs := is } = s.desc := rfl
  simp only [State.racedMem, State.aliases_congr hd, State.writeFootprint_congr hd, State.possibleStores_congr hd rfl rfl]

/-- A byte outside the elements of a running command is as memory holds it. -/
theorem State.byte?_racedMem_of_outside {s : State} {a : Nat}
    (h : s.status.busy = true → ∀ i j, s.writes i j → inInterval (s.element s.engine.latch i j) a = false) :
    s.racedMem.byte? a = s.mem.byte? a := by
  unfold State.racedMem
  dsimp only
  split_ifs with hb halias
  · have hout : ((s.writeFootprint s.engine.latch).any fun iv => inInterval iv a) = false := by
      rw [← Bool.not_eq_true, List.any_eq_true]
      intro hin
      obtain ⟨i, j, hij, ha⟩ := (s.exists_writeFootprint_iff s.engine.latch a).mp hin
      simp [h hb i j hij] at ha
    rw [Memory.byte?_replace, hout]
    rfl
  · refine Memory.byte?_storeAll_ne _ s.mem a fun st hst => ?_
    obtain ⟨cb, rb, c, r, acc, y, ht, hcell, rfl, -⟩ := State.mem_possibleStores (List.mem_filter.mp hst).1
    obtain ⟨hc, hr⟩ := (s.mem_validCells cb rb c r).mp hcell
    have hout := h hb _ _ ((s.writes_iff _ _).mpr ⟨cb, rb, c, r, ht, hc, hr, rfl, rfl⟩)
    rw [← Bool.not_eq_true, inInterval_iff, not_and_or, Nat.not_le, Nat.not_lt] at hout
    exact hout
  · rfl

section
variable {s : State} (hb : s.status.busy = true) (hd : s.badDepth s.engine.latch.kernel = false)
  (ha : s.aliases s.engine.latch = false) {i j : Nat} (hij : s.writes i j)
include hb hd ha hij

/-- An element of a running command without aliasing reads the reference if the engine can write it and the draw for its
address says new. -/
theorem State.read?_racedMem :
    s.racedMem.read? (s.dstAddr s.engine.latch.kernel i j) s.engine.latch.kernel.elemSize =
      if (∃ st ∈ s.possibleStores s.engine.latch, st.addr = s.dstAddr s.engine.latch.kernel i j) ∧
        Config.raceDraw s.draws (s.dstAddr s.engine.latch.kernel i j) = true
      then some (s.elementRef s.engine.latch i j)
      else s.mem.read? (s.dstAddr s.engine.latch.kernel i j) s.engine.latch.kernel.elemSize := by
  have hmem : s.racedMem =
      s.mem.storeAll ((s.possibleStores s.engine.latch).filter fun st => Config.raceDraw s.draws st.addr) := by
    simp only [State.racedMem, hb, ha, if_true, Bool.false_eq_true, if_false]
  rw [hmem, State.read?_storeAll_element ha
    (fun st hst => State.storesReference_possibleStores hd st (List.mem_filter.mp hst).1) hij]
  refine if_congr ⟨?_, ?_⟩ rfl rfl
  · rintro ⟨st, hst, haddr⟩
    obtain ⟨hposs, hdraw⟩ := List.mem_filter.mp hst
    exact ⟨⟨st, hposs, haddr⟩, haddr ▸ hdraw⟩
  · rintro ⟨⟨st, hposs, haddr⟩, hdraw⟩
    exact ⟨st, List.mem_filter.mpr ⟨hposs, haddr ▸ hdraw⟩, haddr⟩

/-- Whatever can be written, the element is old or new, whole. -/
theorem State.racedMem_old_or_new :
    s.racedMem.read? (s.dstAddr s.engine.latch.kernel i j) s.engine.latch.kernel.elemSize =
        s.mem.read? (s.dstAddr s.engine.latch.kernel i j) s.engine.latch.kernel.elemSize ∨
      s.racedMem.read? (s.dstAddr s.engine.latch.kernel i j) s.engine.latch.kernel.elemSize =
        some (s.elementRef s.engine.latch i j) := by
  rw [State.read?_racedMem hb hd ha hij]
  split_ifs
  · exact .inr rfl
  · exact .inl rfl

/-- Where both footprints exist every element can be written, so its draw alone decides. -/
theorem State.racedMem_by_draw (hexist : s.footprintsExist s.engine.latch = true) :
    s.racedMem.read? (s.dstAddr s.engine.latch.kernel i j) s.engine.latch.kernel.elemSize =
      if Config.raceDraw s.draws (s.dstAddr s.engine.latch.kernel i j) then some (s.elementRef s.engine.latch i j)
      else s.mem.read? (s.dstAddr s.engine.latch.kernel i j) s.engine.latch.kernel.elemSize := by
  obtain ⟨ws, hk⟩ := Option.isSome_iff_exists.mp ((s.kernelRun_isSome hd).mpr hexist)
  have hwritten := State.exists_mem_kernelRun_of_writes hk hij
  rw [← State.possibleStores_eq_of_kernelRun hk] at hwritten
  rw [State.read?_racedMem hb hd ha hij]
  exact if_congr (and_iff_right hwritten) rfl rfl

end

end Sys2Proof.Machine
end

section
/-! The statements about stored elements and about what reset and other agents see: O19, O22, O23 and O56. -/

namespace Sys2Proof.Machine

theorem quantInstr_latch (d : QDst) (f : Flags) : (quantInstr d f).latch = some ⟨.quant d, f⟩ := by cases d <;> rfl

theorem quantInstr_wellFormed (d : QDst) (f : Flags) : (quantInstr d f).wellFormed = true := by cases d <;> rfl

/-- Settles O22: the reference of a quantized latch. -/
theorem quantCommandStoresReference : Obligations.QuantCommandStoresReference := by
  intro s d f h
  exact exec_stores_elementRef (quantInstr_latch d f) (quantInstr_wellFormed d f) h

/-- Settles O23: the reference of the float latch. -/
theorem floatCommandStoresReference : Obligations.FloatCommandStoresReference := by
  intro s f hf h
  exact exec_stores_elementRef (i := .gemmFF32 f) rfl hf h

/-- Settles O19: reset leaves memory as it is found in the race. -/
theorem resetDuringCommandDraws : Obligations.ResetDuringCommandDraws := by
  intro s rest hinv hb hin
  obtain ⟨-, -, hrun⟩ := s.inv_iff.mp hinv
  obtain ⟨-, hcheck, hstop, -⟩ := hrun hb
  obtain ⟨-, hd, -⟩ := State.checks_of_startCheck hcheck
  obtain ⟨t, hstep, hregs, -, hbusy, -⟩ := resetGivesResetValues s rest hin
  have hmem : t.mem = s.racedMem := by
    rw [step_eq_take hin] at hstep
    cases hstep
    exact s.racedMem_setInputs rest
  refine ⟨t, hstep, hbusy, hregs, fun a hout => ?outside, fun ha i j hij => ?oldOrNew, fun hexist i j hij => ?drawn⟩
  case outside =>
    rw [hmem]
    refine State.byte?_racedMem_of_outside fun _ i j hij => ?_
    have hij' := hout i j hij
    rw [← Bool.not_eq_true, inInterval_iff, State.element]
    dsimp only
    omega
  case oldOrNew =>
    rw [hmem]
    exact State.racedMem_old_or_new hb hd ha hij
  case drawn =>
    rw [hmem]
    exact State.racedMem_by_draw hb hd (State.not_aliases (Option.isNone_iff_eq_none.mpr hstop) hexist) hij hexist

/-- A read of existing bytes off the window and off devices reads memory as the agent finds it. -/
theorem step_readMemory {s : State} {agent addr n : Nat} {rest : List Input} (hcov : s.mem.covers addr n = true)
    (hoff : ∀ a, addr ≤ a → a < addr + n →
      inInterval ⟨s.params.base, 256⟩ a = false ∧ ∀ dev ∈ s.params.deviceRegions, inInterval dev a = false)
    (hin : s.inputs = .read agent addr n :: rest) :
    ∃ v d, s.racedMem.read? addr n = some v ∧ step s = .next { s with inputs := rest, busData := v, draws := d } := by
  have htarget : State.target { s with inputs := rest } addr n = .memory :=
    State.target_memory (s := { s with inputs := rest }) hcov hoff
  have hsome : (s.racedMem.read? addr n).isSome = true := by
    rw [Memory.read?_isSome, Memory.covers_congr (fun a => s.has_racedMem a), hcov]
  obtain ⟨v, hv⟩ := Option.isSome_iff_exists.mp hsome
  refine ⟨v, if s.status.busy then s.draws + 1 else s.draws, hv, ?_⟩
  simp only [step_eq_take hin, State.take, State.busRead, htarget, State.racedMem_setInputs, hv]

/-- Settles O56: the read is of memory as it is found in the race, where an element is old or new and any other byte as memory
holds it. -/
theorem busyReadSeesOldOrNew : Obligations.BusyReadSeesOldOrNew := by
  refine ⟨fun s agent i j rest hinv hb hij hcov hin => ?element, fun s agent addr n rest hcov hoff hout hin => ?other⟩
  case element =>
    obtain ⟨-, -, hrun⟩ := s.inv_iff.mp hinv
    obtain ⟨-, hcheck, hstop, -⟩ := hrun hb
    obtain ⟨-, hd, -⟩ := State.checks_of_startCheck hcheck
    have hreach := State.reachable_of_contractStop hstop
    obtain ⟨v, d, hv, hstep⟩ := step_readMemory hcov (fun a hlo hhi => by
      have htouches := State.touches_of_element (l := s.engine.latch) hij ((inInterval_iff _ _).mpr ⟨hlo, hhi⟩)
      exact ⟨hreach.offWindow a htouches, hreach.offDevices a htouches⟩) hin
    refine ⟨_, hstep, rfl, rfl, rfl, fun ha => ?_, fun hexist => ?_⟩
    · have hrace := State.racedMem_old_or_new hb hd ha hij
      rw [hv] at hrace
      exact hrace.imp Eq.symm Option.some.inj
    · rw [← State.racedMem_by_draw hb hd (State.not_aliases (Option.isNone_iff_eq_none.mpr hstop) hexist) hij hexist, hv]
  case other =>
    obtain ⟨v, d, hv, hstep⟩ := step_readMemory hcov hoff hin
    refine ⟨_, hstep, ?_, rfl⟩
    rw [← hv]
    exact (Memory.read?_congr n s.mem s.racedMem addr fun a hlo hhi =>
      State.byte?_racedMem_of_outside fun hb i j hij => hout hb i j hij a hlo hhi).symm

end Sys2Proof.Machine
end

section
/-! RQ's symmetry, vanishing and monotonicity (R709), and the narrowing of a clamped value (R805, R806). -/

namespace Sys2Proof.Machine

/-! ### RHAZ in its argument (R18) -/

theorem rhaz_zero (s : Nat) (hs : 0 < s) : rhaz 0 s = 0 := by
  rw [rhaz_eq_sign_mul 0 hs, Int.sign_zero, zero_mul]

theorem rhaz_neg (p : Int) {s : Nat} (hs : 0 < s) : rhaz (-p) s = -rhaz p s := by
  rw [rhaz_eq_sign_mul _ hs, rhaz_eq_sign_mul p hs, Int.sign_neg, Int.natAbs_neg, neg_mul]

/-- Less than half of the divisor rounds to 0. -/
theorem rhaz_of_abs_lt_half {p : Int} {s : Nat} (hs : 0 < s) (hp : |p| < 2 ^ (s - 1)) : rhaz p s = 0 := by
  have hhalf := two_pow_eq_two_mul_half hs
  obtain ⟨hlo, hhi⟩ := abs_lt.mp hp
  rcases le_or_gt 0 p with hsign | hsign
  · rw [rhaz_of_nonneg hs hsign, Int.ediv_eq_zero_of_lt (by omega) (by omega)]
  · rw [rhaz_of_neg hs hsign, Int.ediv_eq_zero_of_lt (by omega) (by omega)]

/-- Each sign's floor is monotone, and a negative argument's is at most 0. -/
theorem rhaz_mono {p p' : Int} {s : Nat} (hs : 0 < s) (h : p ≤ p') : rhaz p s ≤ rhaz p' s := by
  have hpos : (0 : Int) < 2 ^ s := by positivity
  rcases le_or_gt 0 p with hp | hp
  · rw [rhaz_of_nonneg hs hp, rhaz_of_nonneg hs (hp.trans h)]
    exact Int.ediv_le_ediv hpos (by omega)
  · rw [rhaz_of_neg hs hp]
    rcases le_or_gt 0 p' with hp' | hp'
    · rw [rhaz_of_nonneg hs hp']
      exact Int.ediv_le_ediv hpos (by omega)
    · rw [rhaz_of_neg hs hp']
      exact Int.ediv_le_ediv hpos (by omega)

/-- Two s32 values multiply to at most 2^62 in magnitude. -/
theorem abs_s32_mul_le (x m : Word) : |s32 x * s32 m| ≤ 2 ^ 62 := by
  have habs (w : Word) : |s32 w| ≤ 2 ^ 31 := abs_le.mpr ⟨le_s32 w, (s32_lt w).le⟩
  calc |s32 x * s32 m| = |s32 x| * |s32 m| := abs_mul _ _
    _ ≤ 2 ^ 31 * 2 ^ 31 := mul_le_mul (habs x) (habs m) (abs_nonneg _) (by positivity)
    _ = 2 ^ 62 := by norm_num

/-- Settles O38: RQ is RHAZ of a product, and RHAZ is odd, monotone and 0 below half. -/
theorem requantProperties : Obligations.RequantProperties := by
  have hshift (e : Int) : 0 < 31 + (max (-e) 0).toNat := Nat.add_pos_left (by decide) _
  refine ⟨fun x m e => ⟨?_, ?_, ?_, ?_⟩, fun x m e he => ?_, fun x x' m e hm hx => ?_⟩ <;> simp only [requantValue_exact]
  · rw [zero_mul, zero_mul, rhaz_zero _ (hshift e)]
  · rw [mul_zero, rhaz_zero _ (hshift e)]
  · rw [neg_mul, neg_mul, rhaz_neg _ (hshift e)]
  · rw [mul_neg, rhaz_neg _ (hshift e)]
  · have hleft : (max e 0).toNat = 0 := by omega
    rw [hleft, pow_zero, mul_one]
    refine rhaz_of_abs_lt_half (hshift e) ((abs_s32_mul_le x m).trans_lt (pow_lt_pow_right₀ (by decide) ?_))
    omega
  · exact rhaz_mono (hshift e) (mul_le_mul_of_nonneg_right (mul_le_mul_of_nonneg_right hx (by positivity)) hm)

/-! ### Narrowing (R805, R806) -/

/-- With INT32_POST = APPLY every destination's value is clamped (R801, R802). -/
theorem State.quantValue_of_apply {s : State} (d : QDst) (y : Int) (h : s.params.int32Post = .apply) :
    s.quantValue d y = clampInt (s.zeroPointed d y) (s.sreg .clampMin) (s.sreg .clampMax) := by
  cases d <;> simp [State.quantValue, h]

/-- The low n bits of a cut value, read unsigned, are the value where it fits them. -/
theorem toNat_trunc32_mod_of_fits {v : Int} {n : Nat} (hn : n ≤ 32) (hlo : 0 ≤ v) (hhi : v < 2 ^ n) :
    (((trunc32 v).toNat : Int) % 2 ^ n) = v := by
  have hle : (2 : Int) ^ n ≤ 2 ^ 32 := pow_le_pow_right₀ (by decide) hn
  have hword : ((trunc32 v).toNat : Int) = v := by
    rw [trunc32, BitVec.toNat_ofInt, Int.toNat_of_nonneg (Int.emod_nonneg _ (by decide))]
    exact Int.emod_eq_of_lt hlo (hhi.trans_le hle)
  rw [hword, Int.emod_eq_of_lt hlo hhi]

/-- The low n bits of a cut value, read signed, are the value where it fits them. -/
theorem toInt_setWidth_trunc32_of_fits {v : Int} {n : Nat} (hpos : 0 < n) (hn : n ≤ 32) (hlo : -2 ^ (n - 1) ≤ v)
    (hhi : v < 2 ^ (n - 1)) : ((trunc32 v).setWidth n).toInt = v := by
  have hbits : (trunc32 v).setWidth n = BitVec.ofInt n v := by
    apply BitVec.eq_of_toNat_eq
    have hdvd : (2 : Int) ^ n ∣ 2 ^ 32 := pow_dvd_pow 2 hn
    zify
    rw [trunc32, BitVec.toNat_setWidth, BitVec.toNat_ofInt, BitVec.toNat_ofInt]
    push_cast
    rw [Int.toNat_of_nonneg (Int.emod_nonneg _ (by decide)), Int.toNat_of_nonneg (Int.emod_nonneg _ (by positivity))]
    exact Int.emod_emod_of_dvd v hdvd
  rw [hbits, BitVec.toInt_ofInt_eq_self hpos hlo hhi]

/-- Settles O42: the clamped value lies within the bounds, which fit the destination. -/
theorem narrowingKeepsFittingValues : Obligations.NarrowingKeepsFittingValues := by
  intro s f acc y happly hbounds
  have hlo := lo_le_clampInt (hi := s.sreg .clampMax) (lo := s.sreg .clampMin)
  have hhi (z : Int) := clampInt_le_hi z hbounds
  simp only [State.elementBits_quant, State.quantValue_of_apply _ _ happly]
  refine ⟨fun h0 h255 => ?_, fun hmin hmax => ?_, fun hmin hmax => ?_, ?_⟩
  · exact toNat_trunc32_mod_of_fits (by decide) (h0.trans (hlo _)) (((hhi _).trans h255).trans_lt (by decide))
  · exact toInt_setWidth_trunc32_of_fits (by decide) (by decide) (hmin.trans (hlo _)) (((hhi _).trans hmax).trans_lt (by decide))
  · exact toInt_setWidth_trunc32_of_fits (by decide) (by decide) (hmin.trans (hlo _)) (((hhi _).trans hmax).trans_lt (by decide))
  · exact wrap32_of_fits ((le_s32 _).trans (hlo _)) ((hhi _).trans_lt (s32_lt _))

end Sys2Proof.Machine
end

section
/-! The multiplier registers and the per-row arrays: gemm_q.i32 reads neither (R404), and arrays that hold the scalars give
what the scalars give (R709). -/

namespace Sys2Proof.Machine

/-! ### gemm_q.i32 (R404) -/

/-- For I32 PERCHANNEL does not say which arrays a command uses. -/
theorem State.sameUse_perch_i32 (s : State) (f : Flags) (perch : Bool) :
    s.SameUse ⟨.quant .i32, f⟩ ⟨.quant .i32, { f with perch := perch }⟩ where
  kernel := rfl
  bias := rfl
  lhsSums := rfl
  rhsSums := rfl
  mult := rfl

/-- Settles O47: the I32 kernel uses no multiplier array and reads no multiplier register. -/
theorem int32ReadsNoMultiplier : Obligations.Int32ReadsNoMultiplier := by
  intro s f perch v r hr
  refine ⟨(s.sameUse_perch_i32 f perch).runCommand, fun t hrun => ?_⟩
  have hunread : (Kernel.quant .i32).readsReg r = false := by
    revert r
    decide
  rw [exec_desc hrun]
  exact (State.sameReads_set hunread s v).runCommand (l := ⟨.quant .i32, f⟩) hrun

/-! ### A latch without PERCHANNEL -/

/-- The latch of the same command without PERCHANNEL. -/
def perTensor (l : Latch) : Latch := { l with flags := { l.flags with perch := false } }

theorem usesMultArrays_perTensor (l : Latch) : (perTensor l).usesMultArrays = false := by
  obtain ⟨d | _, f⟩ := l
  · cases d <;> rfl
  · rfl

section
variable {s : State} {l : Latch}

/-- Without PERCHANNEL a tile reads no byte that it does not read with it. -/
theorem State.tileReads_perTensor_subset (cb rb : Nat) : s.tileReads (perTensor l) cb rb ⊆ s.tileReads l cb rb := by
  simp only [State.tileReads, usesMultArrays_perTensor]
  exact List.append_subset.mpr ⟨List.append_subset.mpr ⟨fun _ h => List.mem_append_left _ (List.mem_append_left _ h),
    List.nil_subset _⟩, List.nil_subset _⟩

theorem State.readFootprint_perTensor_subset : s.readFootprint (perTensor l) ⊆ s.readFootprint l := by
  intro iv h
  obtain ⟨t, ht, hiv⟩ := List.mem_flatMap.mp h
  exact List.mem_flatMap.mpr ⟨t, ht, State.tileReads_perTensor_subset _ _ hiv⟩

theorem State.writeFootprint_perTensor : s.writeFootprint (perTensor l) = s.writeFootprint l := rfl

theorem State.touches_of_perTensor {a : Nat} (h : s.Touches (perTensor l) a) : s.Touches l a := by
  obtain ⟨iv, hiv, ha⟩ := h
  refine ⟨iv, ?_, ha⟩
  rw [List.mem_append] at hiv ⊢
  exact hiv.imp (fun h => State.readFootprint_perTensor_subset h) id

theorem State.aliases_perTensor (h : s.aliases l = false) : s.aliases (perTensor l) = false := by
  simp only [State.aliases, Bool.not_eq_false', Bool.and_eq_true, State.writeFootprint_perTensor] at h ⊢
  obtain ⟨hreads, hwrites⟩ := h
  simp only [allDisjoint, List.all_eq_true] at hreads ⊢
  exact ⟨fun iv hiv => hreads iv (State.readFootprint_perTensor_subset hiv), hwrites⟩

/-- The pointers that a command without PERCHANNEL uses are pointers that it uses with it. -/
theorem State.misaligned_perTensor (h : s.misaligned? l = none) : s.misaligned? (perTensor l) = none := by
  simp only [State.misaligned?, State.pointerUses, usesMultArrays_perTensor, Option.map_eq_none_iff, List.find?_eq_none,
    List.forall_mem_cons] at h ⊢
  obtain ⟨hlhs, hrhs, hdst, hbias, hlsums, hrsums, -, -, hnil⟩ := h
  exact ⟨hlhs, hrhs, hdst, hbias, hlsums, hrsums, Bool.false_ne_true, Bool.false_ne_true, hnil⟩

theorem State.startCheck_perTensor (h : s.startCheck l = none) : s.startCheck (perTensor l) = none := by
  obtain ⟨hg, hd, hm⟩ := State.checks_of_startCheck h
  rw [State.startCheck_pointers (l := perTensor l) hg hd, State.misaligned_perTensor hm]
  rfl

/-- A command that runs runs without PERCHANNEL. -/
theorem State.runs_perTensor (h : s.runs l = true) : s.runs (perTensor l) = true := by
  obtain ⟨hb, hc, hs, hexist⟩ := (s.runs_iff l).mp h
  have halias := State.not_aliases (Option.isNone_iff_eq_none.mpr hs) hexist
  have hreach := State.reachable_of_contractStop hs
  have hreach' : s.Reachable (perTensor l) :=
    ⟨fun a ha => hreach.below a (State.touches_of_perTensor ha),
      fun a ha => hreach.offWindow a (State.touches_of_perTensor ha),
      fun a ha => hreach.offDevices a (State.touches_of_perTensor ha)⟩
  refine (s.runs_iff _).mpr ⟨hb, State.startCheck_perTensor hc, ?_, ?_⟩
  · rw [State.contractStop_reachable hreach', State.aliases_perTensor halias]
    rfl
  · rw [State.footprintsExist_iff] at hexist ⊢
    exact fun a ha => hexist a (State.touches_of_perTensor ha)

/-! ### Equal scales (R702, R709) -/

/-- MVEC or EVEC from a per-row array that exists and holds the scalar in every valid row is the scalar's. -/
theorem State.scaleVec_perTensor {p : Ptr} {scalar : DescReg} {row rr : Nat}
    (hsome : (s.scaleVec? l p scalar row rr).isSome = true)
    (heq : ∀ r, r < rr → s.memWord (s.sideAddr p (row + r)) = s.desc.get scalar) :
    s.scaleVec? (perTensor l) p scalar row rr = s.scaleVec? l p scalar row rr := by
  refine Oct.all?_congr fun r hr => ?_
  obtain ⟨w, hw⟩ := Option.isSome_iff_exists.mp ((Oct.all?_isSome _).mp hsome r hr)
  have hscalar : s.scaleLane? (perTensor l) p scalar row rr r = some (if r < rr then s.desc.get scalar else 0) := rfl
  rw [hw, hscalar]
  cases hp : l.flags.perch with
  | false => rw [← hw, State.scaleLane?, hp]; rfl
  | true =>
    rw [State.scaleLane?, hp, if_pos rfl] at hw
    rw [State.eq_of_sideLane hw]
    by_cases hrow : r < rr
    · rw [if_pos hrow, if_pos ⟨rfl, hrow⟩, heq r hrow]
    · rw [if_neg hrow, if_neg fun h => hrow h.2]

/-- Whether the two per-row arrays hold the scalars in the valid rows of a tile. -/
def State.HoldsScalars (s : State) (rb : Nat) : Prop :=
  ∀ r, r < s.residualRows rb →
    s.memWord (s.sideAddr .multFpPtr (s.rowOf rb + r)) = s.desc.get .multFp ∧
    s.memWord (s.sideAddr .multExpPtr (s.rowOf rb + r)) = s.desc.get .multExp

theorem State.tileScale_perTensor {rb : Nat} {acc : Tile Word} (hsome : (s.tileScale? l rb acc).isSome = true)
    (heq : s.HoldsScalars rb) : s.tileScale? (perTensor l) rb acc = s.tileScale? l rb acc := by
  have hcov := (s.tileScale_isSome l rb acc).mp hsome
  have hkernel : (perTensor l).kernel = l.kernel := rfl
  unfold State.tileScale?
  rw [hkernel]
  split
  · rfl
  · rename_i d hd hk
    rw [Latch.usesMultArrays_of_ne_i32 hk hd, imp_and, ← s.scaleVec_isSome l .multFpPtr .multFp _ (s.residualRows_le rb),
      ← s.scaleVec_isSome l .multExpPtr .multExp _ (s.residualRows_le rb)] at hcov
    rw [State.scaleVec_perTensor hcov.1 fun r hr => (heq r hr).1, State.scaleVec_perTensor hcov.2 fun r hr => (heq r hr).2]
  · rfl

theorem State.tileDepths_perTensor (cb rb n : Nat) (acc : Tile Word) :
    s.tileDepths? (perTensor l) cb rb n acc = s.tileDepths? l cb rb n acc := by
  induction n with
  | zero => rfl
  | succ n ih =>
    rw [State.tileDepths?, State.tileDepths?, ih]
    rfl

/-- A tile gives the same element writes where its per-row arrays exist and hold the scalars. -/
theorem State.tileRun_perTensor {cb rb : Nat} (hsome : ∀ acc, (s.tileScale? l rb acc).isSome = true)
    (heq : s.HoldsScalars rb) : s.tileRun? (perTensor l) cb rb = s.tileRun? l cb rb := by
  have hstart : s.tileStart? (perTensor l) cb rb = s.tileStart? l cb rb := rfl
  simp only [State.tileRun?, hstart, State.tileDepths_perTensor, State.tileScale_perTensor (hsome _) heq]
  rfl

theorem State.tilesRun_perTensor (ts : List (Nat × Nat))
    (h : ∀ t ∈ ts, s.tileRun? (perTensor l) t.1 t.2 = s.tileRun? l t.1 t.2) :
    s.tilesRun? (perTensor l) ts = s.tilesRun? l ts := by
  induction ts with
  | nil => rfl
  | cons t ts ih =>
    obtain ⟨ht, hts⟩ := List.forall_mem_cons.mp h
    rw [State.tilesRun?, State.tilesRun?, ih hts, ht]

/-- A valid tile's rows are written, so arrays that hold the scalars for the written rows hold them for it. -/
theorem State.holdsScalars_of_writes {cb rb : Nat} (hg : s.geometryMask = 0) (ht : (cb, rb) ∈ s.tiles)
    (h : ∀ i j, s.writes i j → s.memWord (s.sideAddr .multFpPtr i) = s.desc.get .multFp ∧
      s.memWord (s.sideAddr .multExpPtr i) = s.desc.get .multExp) : s.HoldsScalars rb := by
  obtain ⟨-, -, -, -, htiles⟩ := residualExtents s hg
  obtain ⟨-, -, -, -, -, -, hcols, -⟩ := htiles cb rb ht
  exact fun r hr => h _ _ ((s.writes_iff _ _).mpr ⟨cb, rb, 0, r, ht, hcols, hr, rfl, rfl⟩)

/-- A command that runs makes the same element writes without PERCHANNEL, where the per-row arrays hold the scalars. -/
theorem State.kernelRun_perTensor (hrun : s.runs l = true)
    (h : ∀ i j, s.writes i j → s.memWord (s.sideAddr .multFpPtr i) = s.desc.get .multFp ∧
      s.memWord (s.sideAddr .multExpPtr i) = s.desc.get .multExp) : s.kernelRun? (perTensor l) = s.kernelRun? l := by
  obtain ⟨-, hc, -, hexist⟩ := (s.runs_iff l).mp hrun
  obtain ⟨hg, -, -⟩ := State.checks_of_startCheck hc
  refine State.tilesRun_perTensor _ fun t ht => State.tileRun_perTensor (fun acc => ?_) (State.holdsScalars_of_writes hg ht h)
  have hreads : ∀ iv ∈ s.tileReads l t.1 t.2, s.mem.covers iv.lo iv.len = true := fun iv hiv =>
    List.all_eq_true.mp hexist iv (List.mem_append_left _ (List.mem_flatMap.mpr ⟨t, ht, hiv⟩))
  obtain ⟨-, -, -, -, -, hmult⟩ := (s.forall_tileReads_iff l t.1 t.2 fun iv => s.mem.covers iv.lo iv.len = true).mp hreads
  exact (s.tileScale_isSome l t.2 acc).mpr hmult

end

/-- Where a command ends nothing of its latch is left (R142). -/
theorem State.complete_accept_perTensor (s : State) (l : Latch) (ws : List Store) :
    (s.accept (perTensor l)).complete ws = (s.accept l).complete ws := rfl

/-- Settles O48: both commands complete, with the same element writes. -/
theorem perChannelEqualsPerTensor : Obligations.PerChannelEqualsPerTensor := by
  intro s d f _ hrun h
  obtain ⟨ws, hk⟩ := State.exists_kernelRun_of_runs hrun
  have hlatch : (quantInstr d { f with perch := false }).latch = some (perTensor ⟨.quant d, f⟩) := quantInstr_latch d _
  rw [exec_of_runs (quantInstr_latch d f) (quantInstr_wellFormed d f) hrun hk,
    exec_of_runs hlatch (quantInstr_wellFormed d _) (State.runs_perTensor hrun) ((State.kernelRun_perTensor hrun h).trans hk),
    State.complete_accept_perTensor]

end Sys2Proof.Machine
end

section
/-! The float clamp case by case (R907), and fma32 on NaNs, infinities and exact zeros (R905). -/

namespace Sys2Proof.Machine

/-! ### The comparison and the clamp (R19, R907) -/

theorem fLess_iff (a b : Word) : fLess a b = true ↔ fIsNan a = false ∧ fIsNan b = false ∧ fKey a < fKey b := by
  simp [fLess, and_assoc]

theorem floatClamp_select (lo hi acc : Word) :
    floatClamp .select lo hi acc =
      if fLess lo (if fLess acc hi then acc else hi) then (if fLess acc hi then acc else hi) else lo := rfl

theorem fLess_asymm {a b : Word} (h : fLess a b = true) : ¬fLess b a = true := by
  rw [fLess_iff] at h ⊢
  omega

theorem fLess_trans {a b c : Word} (hab : fLess a b = true) (hbc : fLess b c = true) : fLess a c = true := by
  rw [fLess_iff] at hab hbc ⊢
  exact ⟨hab.1, hbc.2.1, hab.2.2.trans hbc.2.2⟩

theorem not_fLess_of_isNan_left {a : Word} (b : Word) (h : fIsNan a = true) : ¬fLess a b = true := by
  rw [fLess_iff, h]
  exact fun h => Bool.noConfusion h.1

theorem not_fLess_of_isNan_right {b : Word} (a : Word) (h : fIsNan b = true) : ¬fLess a b = true := by
  rw [fLess_iff, h]
  exact fun h => Bool.noConfusion h.2.1

theorem floatClamp_select_of_fLess {lo hi acc : Word} (h : fLess acc hi = true) :
    floatClamp .select lo hi acc = if fLess lo acc then acc else lo := by
  rw [floatClamp_select, if_pos h]

theorem floatClamp_select_of_not_fLess {lo hi acc : Word} (h : ¬fLess acc hi = true) :
    floatClamp .select lo hi acc = if fLess lo hi then hi else lo := by
  rw [floatClamp_select, if_neg h]

/-- Settles O51: minsel picks the accumulator or the upper bound, and maxsel that or the lower bound. -/
theorem floatClampCases : Obligations.FloatClampCases := by
  intro lo hi acc
  refine ⟨rfl, fun hacc hbounds => ?_, fun hhi => ?_, fun hlo => ?_, fun hinv hacc => ?_, fun hlo hhi => ?_, fun hlo => ?_,
    fun hhi hbounds => ?_, ?_, fun hlo => ?_, fun hacc => if_pos hacc, fun hacc => if_neg (by rw [hacc]; decide)⟩
  · rw [floatClamp_select_of_not_fLess (not_fLess_of_isNan_left hi hacc), if_pos hbounds]
  · rw [floatClamp_select_of_not_fLess (not_fLess_of_isNan_right acc hhi), if_neg (not_fLess_of_isNan_right lo hhi)]
  · rw [floatClamp_select, if_neg (not_fLess_of_isNan_left _ hlo)]
  · by_cases h : fLess acc hi = true
    · rw [floatClamp_select_of_fLess h, if_neg (fLess_asymm (fLess_trans h hinv))]
    · rw [floatClamp_select_of_not_fLess h, if_neg (fLess_asymm hinv)]
  · rw [floatClamp_select_of_fLess hhi, if_pos hlo]
  · by_cases h : fLess acc hi = true
    · rw [floatClamp_select_of_fLess h, if_neg (fLess_asymm hlo)]
    · have hhi : ¬fLess lo hi = true := fun hbounds => h (fLess_trans hlo hbounds)
      rw [floatClamp_select_of_not_fLess h, if_neg hhi]
  · rw [floatClamp_select_of_not_fLess (fLess_asymm hhi), if_pos hbounds]
  · by_cases h : fLess 0x80000000#32 hi = true
    · rw [floatClamp_select_of_fLess h, if_neg (by decide)]
    · have hhi : ¬fLess 0#32 hi = true := h
      rw [floatClamp_select_of_not_fLess h, if_neg hhi]
  · rw [floatClamp_select_of_not_fLess (by decide)]
    rcases hlo with hlo | rfl
    · have hneg : fLess lo 0x80000000#32 = true := hlo
      rw [if_pos hneg]
    · rfl

/-! ### fma32 off the finite data (R905) -/

/-- A datum is one of finite, infinite and NaN, by its exponent and fraction. -/
theorem fFinite_iff (b : Word) : fFinite b = true ↔ fIsNan b = false ∧ fIsInf b = false := by
  by_cases hexp : fExp b = 255 <;> by_cases hfrac : fFrac b = 0 <;> simp [fFinite, fIsNan, fIsInf, hexp, hfrac]

theorem fIsNan_of_isInf {b : Word} (h : fIsInf b = true) : fIsNan b = false := by
  simp only [fIsInf, Bool.and_eq_true, beq_iff_eq] at h
  simp [fIsNan, h.1, h.2]

theorem fIsNan_of_isZero {b : Word} (h : fIsZero b = true) : fIsNan b = false := by
  simp only [fIsZero, Bool.and_eq_true, beq_iff_eq] at h
  simp [fIsNan, h.1]

theorem fma32_of_nan {a b c : Word} (h : fIsNan a = true ∨ fIsNan b = true ∨ fIsNan c = true) :
    fma32 a b c = fNan := by
  rw [fma32, if_pos (by simpa [or_assoc] using h)]

/-- An infinite product: none of the operands a NaN, one of the factors infinite. -/
theorem fma32_of_inf {a b c : Word} (ha : fIsNan a = false) (hb : fIsNan b = false) (hc : fIsNan c = false)
    (h : fIsInf a = true ∨ fIsInf b = true) :
    fma32 a b c = if fIsZero a || fIsZero b then fNan
      else if fIsInf c && (fSign c != (fSign a != fSign b)) then fNan else fInf (fSign a != fSign b) := by
  rw [fma32, if_neg (by simp [ha, hb, hc]), if_pos (by simpa using h)]

theorem fma32_of_finite {a b : Word} (c : Word) (ha : fFinite a = true) (hb : fFinite b = true) (hc : fIsNan c = false) :
    fma32 a b c = if fIsInf c then c else fmaFinite a b c := by
  obtain ⟨hna, hia⟩ := (fFinite_iff a).mp ha
  obtain ⟨hnb, hib⟩ := (fFinite_iff b).mp hb
  rw [fma32, if_neg (by simp [hna, hnb, hc]), if_neg (by simp [hia, hib])]

/-! ### The exact sum (R905) -/

/-- The scale of the exact sum: the smaller of the product's and the addend's, in units of 2^-298. -/
def fmaScale (a b c : Word) : Nat := min (fScale a + fScale b) (fScale c + 149)

/-- The signed significand of the exact sum at its scale. -/
def fmaSum (a b c : Word) : Int :=
  fSigned a * fSigned b * 2 ^ (fScale a + fScale b - fmaScale a b c) + fSigned c * 2 ^ (fScale c + 149 - fmaScale a b c)

theorem fmaFinite_eq (a b c : Word) :
    fmaFinite a b c = if fmaSum a b c = 0 then
        fPattern ((fIsZero a || fIsZero b) && fIsZero c && (fSign a != fSign b) && fSign c) 0
      else fRound (decide (fmaSum a b c < 0)) (fmaSum a b c).natAbs (fmaScale a b c) := rfl

theorem fExact_eq (a b c : Word) : fExact a b c = fmaSum a b c * 2 ^ fmaScale a b c := by
  have hpow {n : Nat} (h : fmaScale a b c ≤ n) : (2 : Int) ^ (n - fmaScale a b c) * 2 ^ fmaScale a b c = 2 ^ n :=
    pow_sub_mul_pow 2 h
  rw [fmaSum, add_mul, mul_assoc _ _ (2 ^ fmaScale a b c), mul_assoc _ _ (2 ^ fmaScale a b c), hpow (Nat.min_le_left _ _),
    hpow (Nat.min_le_right _ _)]
  rfl

theorem fmaSum_eq_zero_iff (a b c : Word) : fmaSum a b c = 0 ↔ fExact a b c = 0 := by
  rw [fExact_eq, mul_eq_zero, or_iff_left (by positivity)]

theorem fPattern_zero (sign : Bool) : fPattern sign 0 = if sign = true then 0x80000000#32 else 0x00000000#32 := by
  cases sign <;> rfl

/-- Settles O50: the branches of fma32 before the finite one, and the finite one at an exact zero. -/
theorem fmaSpecialCases : Obligations.FmaSpecialCases := by
  intro a b c
  have hnan : fIsNan a = true ∨ fIsNan b = true ∨ fIsNan c = true → fma32 a b c = fNan := fma32_of_nan
  refine ⟨hnan, fun hinvalid => ?_, fun hinf hc ha hb hsign => ?_, fun hinf ha hb hza hzb hc hsign => ?_, fun ha hb hc => ?_,
    fun ha hb hc hexact => ?_⟩
  · by_cases hc : fIsNan c = true
    · exact hnan (.inr (.inr hc))
    · rw [Bool.not_eq_true] at hc
      rcases hinvalid with ⟨hinf, hzero⟩ | ⟨hzero, hinf⟩
      · rw [fma32_of_inf (fIsNan_of_isInf hinf) (fIsNan_of_isZero hzero) hc (.inl hinf), hzero, Bool.or_true]
        rfl
      · rw [fma32_of_inf (fIsNan_of_isZero hzero) (fIsNan_of_isInf hinf) hc (.inr hinf), hzero, Bool.true_or]
        rfl
  · rw [fma32_of_inf ha hb (fIsNan_of_isInf hc) hinf, hc, Bool.true_and, if_pos (bne_iff_ne.mpr hsign), ite_self]
    rfl
  · have hsame : (fIsInf c && (fSign c != (fSign a != fSign b))) = false := by
      cases hic : fIsInf c with
      | false => rfl
      | true => rw [Bool.true_and, hsign hic, bne_self_eq_false]
    rw [fma32_of_inf ha hb hc hinf, hza, hzb, hsame]
    cases (fSign a != fSign b) <;> rfl
  · rw [fma32_of_finite c ha hb (fIsNan_of_isInf hc), if_pos hc]
  · obtain ⟨hnc, hic⟩ := (fFinite_iff c).mp hc
    rw [fma32_of_finite c ha hb hnc, hic, if_neg Bool.false_ne_true, fmaFinite_eq,
      if_pos ((fmaSum_eq_zero_iff a b c).mpr hexact), fPattern_zero]
    refine if_congr ?_ rfl rfl
    simp only [Bool.and_eq_true, Bool.or_eq_true]
    tauto

end Sys2Proof.Machine
end

section
/-! fma32 of finite operands rounds the exact value once, to nearest, ties to even (R905). -/

namespace Sys2Proof.Machine

/-! ### Rounding to a multiple -/

/-- `k` is the multiple of `u` nearest to `n`, in units of `u`, and even where `n` is halfway between two. -/
def NearestEven (k n u : Nat) : Prop :=
  2 * |(k * u : Int) - n| ≤ u ∧ (2 * |(k * u : Int) - n| = u → k % 2 = 0)

theorem nearestEven_exact (k u : Nat) (hu : 0 < u) : NearestEven k (k * u) u := by
  rw [NearestEven, Nat.cast_mul, sub_self, abs_zero]
  omega

/-- Both candidates, the quotient and the one above it, by their distances from `n`. -/
theorem nearestEven_roundEven (n s : Nat) : NearestEven (roundEven n s) n (2 ^ s) := by
  have hdiv : n / 2 ^ s * 2 ^ s + n % 2 ^ s = n := Nat.div_add_mod' n (2 ^ s)
  have hmod : n % 2 ^ s < 2 ^ s := Nat.mod_lt n (by positivity)
  rw [NearestEven, roundEven, Int.abs_eq_natAbs]
  generalize 2 ^ s = u at *
  split_ifs with h
  · have hnext : ((n / u + 1 : Nat) * u : Int) = ((n / u * u + u : Nat) : Int) := by push_cast; ring
    rw [hnext]
    omega
  · have hthis : ((n / u : Nat) * u : Int) = ((n / u * u : Nat) : Int) := (Nat.cast_mul _ _).symm
    rw [hthis]
    omega

theorem NearestEven.scale {k n u : Nat} (h : NearestEven k n u) {p : Nat} (hp : 0 < p) :
    NearestEven k (n * p) (u * p) := by
  obtain ⟨hle, htie⟩ := h
  have hfactor : (k * (u * p : Nat) : Int) - (n * p : Nat) = (k * u - n) * p := by
    push_cast
    ring
  rw [NearestEven, hfactor, abs_mul, Nat.abs_cast, ← mul_assoc, Nat.cast_mul]
  exact ⟨mul_le_mul_of_nonneg_right hle (by positivity), fun h => htie (mul_right_cancel₀ (by positivity) h)⟩

/-- No multiple is nearer, and one as near is a tie. -/
theorem NearestEven.nearest {k n u : Nat} (h : NearestEven k n u) {z : Int} (hz : (u : Int) ∣ z) :
    |(k * u : Int) - n| ≤ |z - n| ∧ (|(k * u : Int) - n| = |z - n| → z ≠ k * u → k % 2 = 0) := by
  obtain ⟨hle, htie⟩ := h
  obtain rfl | hne := eq_or_ne z (k * u)
  · exact ⟨le_rfl, fun _ h => absurd rfl h⟩
  · have hfar : (u : Int) ≤ |z - k * u| :=
      Int.le_of_dvd (abs_pos.mpr (sub_ne_zero.mpr hne)) ((dvd_abs _ _).mpr (dvd_sub hz (dvd_mul_left _ _)))
    have htriangle : |z - k * u| ≤ |z - n| + |(k * u : Int) - n| := by
      rw [abs_sub_comm (k * u : Int) n]
      exact abs_sub_le z n (k * u)
    exact ⟨by omega, fun heq _ => htie (by omega)⟩

/-- Twice the multiple lies within its unit of twice the number. -/
theorem NearestEven.two_mul_bounds {k n u : Nat} (h : NearestEven k n u) :
    2 * (k * u) ≤ 2 * n + u ∧ 2 * n ≤ 2 * (k * u) + u := by
  obtain ⟨hle, -⟩ := h
  rw [Int.abs_eq_natAbs, ← Nat.cast_mul] at hle
  omega

theorem NearestEven.le_of_lt_mul {k n u m : Nat} (h : NearestEven k n u) (hn : n < m * u) : k ≤ m := by
  obtain ⟨hle, -⟩ := h.two_mul_bounds
  by_contra hk
  have hmul : (m + 1) * u ≤ k * u := Nat.mul_le_mul_right u (by omega)
  rw [add_one_mul] at hmul
  omega

theorem NearestEven.ge_of_mul_le {k n u m : Nat} (h : NearestEven k n u) (hu : 0 < u) (hn : m * u ≤ n) : m ≤ k := by
  obtain ⟨-, hle⟩ := h.two_mul_bounds
  by_contra hk
  have hmul : (k + 1) * u ≤ m * u := Nat.mul_le_mul_right u (by omega)
  rw [add_one_mul] at hmul
  omega

/-! ### The value of a datum by its magnitude bits (R19) -/

/-- The value of the finite datum with the given magnitude bits, in units of 2^-298. -/
def magnitudeValue (m : Nat) : Nat :=
  if m / 2 ^ 23 = 0 then m * 2 ^ 149 else (m % 2 ^ 23 + 2 ^ 23) * 2 ^ (m / 2 ^ 23 - 1 + 149)

/-- A magnitude with a sign. -/
def withSign (sign : Bool) (v : Nat) : Int := if sign then -(v : Int) else v

/-- The sign bit is the highest. -/
theorem fSign_eq (b : Word) : fSign b = decide (2 ^ 31 ≤ b.toNat) := by
  have hb := b.isLt
  rw [fSign, BitVec.getLsbD, Nat.testBit_eq_decide_div_mod_eq, decide_eq_decide]
  omega

/-- The biased exponent is above the fraction in the magnitude bits. -/
theorem fExp_eq (b : Word) : fExp b = b.toNat % 2 ^ 31 / 2 ^ 23 := by
  rw [fExp]
  omega

theorem fFrac_eq (b : Word) : fFrac b = b.toNat % 2 ^ 31 % 2 ^ 23 := by
  rw [fFrac]
  omega

theorem fValue_eq (b : Word) : fValue b = withSign (fSign b) (magnitudeValue (b.toNat % 2 ^ 31)) := by
  rw [fValue, fSigned, withSign, magnitudeValue, fSig, fScale, fExp_eq, fFrac_eq]
  generalize b.toNat % 2 ^ 31 = m
  by_cases hm : m / 2 ^ 23 = 0
  · have hfrac : m % 2 ^ 23 = m := Nat.mod_eq_of_lt (by omega)
    simp only [if_pos hm, hfrac]
    split_ifs <;> push_cast <;> ring
  · simp only [if_neg hm]
    split_ifs <;> push_cast <;> ring

/-- A finite datum's value is a multiple of the unit of any scale, or below the scale's least normal number. -/
def AtScale (t : Nat) (z : Int) : Prop := (2 ^ (t + 149) : Int) ∣ z ∨ 0 < t ∧ |z| < 2 ^ 23 * 2 ^ (t + 149)

theorem AtScale.neg {t : Nat} {z : Int} (h : AtScale t z) : AtScale t (-z) := by
  rw [AtScale, dvd_neg, abs_neg]
  exact h

theorem atScale_magnitudeValue (t m : Nat) : AtScale t (magnitudeValue m) := by
  by_cases hm : m / 2 ^ 23 = 0
  · rw [magnitudeValue, if_pos hm]
    rcases Nat.eq_zero_or_pos t with rfl | ht
    · exact .inl ⟨m, by push_cast; ring⟩
    · refine .inr ⟨ht, ?_⟩
      have hlt : m * 2 ^ 149 < 2 ^ 23 * 2 ^ (t + 149) :=
        Nat.mul_lt_mul_of_lt_of_le (by omega) (Nat.pow_le_pow_right (by decide) (by omega)) (by positivity)
      rw [Nat.abs_cast]
      exact_mod_cast hlt
  · rw [magnitudeValue, if_neg hm]
    generalize m / 2 ^ 23 - 1 = e
    have hfrac : m % 2 ^ 23 < 2 ^ 23 := Nat.mod_lt _ (by decide)
    generalize m % 2 ^ 23 = frac at hfrac
    rcases le_or_gt t e with he | he
    · refine .inl (Int.natCast_dvd_natCast.mpr ?_ : ((2 ^ (t + 149) : Nat) : Int) ∣ _)
      exact (Nat.pow_dvd_pow 2 (by omega)).mul_left _
    · refine .inr ⟨by omega, ?_⟩
      have hlt : (frac + 2 ^ 23) * 2 ^ (e + 149) < 2 ^ 23 * 2 ^ (t + 149) := by
        calc (frac + 2 ^ 23) * 2 ^ (e + 149) < 2 ^ 24 * 2 ^ (e + 149) := by
              exact Nat.mul_lt_mul_of_pos_right (by omega) (by positivity)
          _ = 2 ^ 23 * 2 ^ (e + 1 + 149) := by ring
          _ ≤ 2 ^ 23 * 2 ^ (t + 149) := Nat.mul_le_mul_left _ (Nat.pow_le_pow_right (by decide) (by omega))
      rw [Nat.abs_cast]
      exact_mod_cast hlt

theorem atScale_fValue (t : Nat) (b : Word) : AtScale t (fValue b) := by
  rw [fValue_eq, withSign]
  split
  · exact (atScale_magnitudeValue t _).neg
  · exact atScale_magnitudeValue t _

/-- A kept significand of at most 24 bits, its last bit at 2^(t - 149), normal or at the least scale, carries into the exponent by
itself. -/
theorem magnitudeValue_of_kept {t k : Nat} (hk : k ≤ 2 ^ 24) (hnormal : 0 < t → 2 ^ 23 ≤ k) :
    magnitudeValue (t * 2 ^ 23 + k) = k * 2 ^ (t + 149) := by
  rcases lt_or_ge k (2 ^ 23) with hsub | hge
  · obtain rfl : t = 0 := by omega
    rw [magnitudeValue, if_pos (by omega), zero_mul, zero_add, zero_add]
  · rcases hk.lt_or_eq with hlt | rfl
    · have hexp : (t * 2 ^ 23 + k) / 2 ^ 23 = t + 1 := by omega
      have hfrac : (t * 2 ^ 23 + k) % 2 ^ 23 + 2 ^ 23 = k := by omega
      rw [magnitudeValue, hexp, hfrac, if_neg (by omega), Nat.add_sub_cancel]
    · have hexp : (t * 2 ^ 23 + 2 ^ 24) / 2 ^ 23 = t + 2 := by omega
      have hfrac : (t * 2 ^ 23 + 2 ^ 24) % 2 ^ 23 = 0 := by omega
      have hscale : t + 2 - 1 + 149 = t + 149 + 1 := by omega
      rw [magnitudeValue, hexp, hfrac, if_neg (by omega), hscale, pow_succ]
      ring

/-! ### The one rounding (R905) -/

/-- The scale fRound keeps a significand at: its last bit is at 2^(roundScale - 149). -/
def roundScale (sig scale : Nat) : Nat := sig.log2 + scale - 172

/-- The significand fRound keeps. -/
def roundKept (sig scale : Nat) : Nat :=
  if roundScale sig scale + 149 ≤ scale then sig * 2 ^ (scale - (roundScale sig scale + 149))
  else roundEven sig (roundScale sig scale + 149 - scale)

/-- The magnitude bits fRound gives, before the test for overflow. -/
def roundMagnitude (sig scale : Nat) : Nat := roundScale sig scale * 2 ^ 23 + roundKept sig scale

theorem fRound_eq (sign : Bool) (sig scale : Nat) :
    fRound sign sig scale =
      if roundMagnitude sig scale ≥ 255 * 2 ^ 23 then fInf sign else fPattern sign (roundMagnitude sig scale) := rfl

theorem nearestEven_roundKept (sig scale : Nat) :
    NearestEven (roundKept sig scale) (sig * 2 ^ scale) (2 ^ (roundScale sig scale + 149)) := by
  rw [roundKept]
  generalize roundScale sig scale + 149 = e
  split_ifs with he
  · rw [← pow_sub_mul_pow 2 he, ← mul_assoc]
    exact nearestEven_exact _ _ (by positivity)
  · rw [← pow_sub_mul_pow 2 (Nat.le_of_not_le he)]
    exact (nearestEven_roundEven sig _).scale (by positivity)

theorem mul_two_pow_lt_roundScale (sig scale : Nat) :
    sig * 2 ^ scale < 2 ^ 24 * 2 ^ (roundScale sig scale + 149) := by
  have hlog : sig < 2 ^ (sig.log2 + 1) := Nat.lt_log2_self
  calc sig * 2 ^ scale < 2 ^ (sig.log2 + 1) * 2 ^ scale := Nat.mul_lt_mul_of_pos_right hlog (by positivity)
    _ = 2 ^ (sig.log2 + 1 + scale) := (Nat.pow_add ..).symm
    _ ≤ 2 ^ (24 + (roundScale sig scale + 149)) := Nat.pow_le_pow_right (by decide) (by unfold roundScale; omega)
    _ = 2 ^ 24 * 2 ^ (roundScale sig scale + 149) := Nat.pow_add ..

theorem roundKept_le (sig scale : Nat) : roundKept sig scale ≤ 2 ^ 24 :=
  (nearestEven_roundKept sig scale).le_of_lt_mul (m := 2 ^ 24) (mul_two_pow_lt_roundScale sig scale)

section
variable {sig : Nat} (hsig : sig ≠ 0) (scale : Nat)
include hsig

theorem roundScale_le_mul_two_pow (ht : 0 < roundScale sig scale) :
    2 ^ 23 * 2 ^ (roundScale sig scale + 149) ≤ sig * 2 ^ scale := by
  calc 2 ^ 23 * 2 ^ (roundScale sig scale + 149) = 2 ^ (23 + (roundScale sig scale + 149)) := (Nat.pow_add ..).symm
    _ ≤ 2 ^ (sig.log2 + scale) := Nat.pow_le_pow_right (by decide) (by unfold roundScale at ht ⊢; omega)
    _ = 2 ^ sig.log2 * 2 ^ scale := Nat.pow_add ..
    _ ≤ sig * 2 ^ scale := Nat.mul_le_mul_right _ (Nat.log2_self_le hsig)

theorem le_roundKept (ht : 0 < roundScale sig scale) : 2 ^ 23 ≤ roundKept sig scale :=
  (nearestEven_roundKept sig scale).ge_of_mul_le (m := 2 ^ 23) (by positivity) (roundScale_le_mul_two_pow hsig scale ht)

/-- The magnitude that fRound gives has the kept significand's value. -/
theorem magnitudeValue_roundMagnitude :
    magnitudeValue (roundMagnitude sig scale) = roundKept sig scale * 2 ^ (roundScale sig scale + 149) :=
  magnitudeValue_of_kept (roundKept_le sig scale) (le_roundKept hsig scale)

/-- fRound overflows exactly from half a unit beyond the largest finite datum on: there the largest significand is odd, so the tie
goes away from it. -/
theorem roundMagnitude_overflow_iff : 255 * 2 ^ 23 ≤ roundMagnitude sig scale ↔ (2 ^ 25 - 1) * 2 ^ 401 ≤ sig * 2 ^ scale := by
  have hlt := mul_two_pow_lt_roundScale sig scale
  have hle := roundScale_le_mul_two_pow hsig scale
  have hkept := roundKept_le sig scale
  have hnormal := le_roundKept hsig scale
  have hnear := nearestEven_roundKept sig scale
  rw [roundMagnitude]
  rcases lt_trichotomy (roundScale sig scale) 253 with ht | ht | ht
  · have hpow : 2 ^ (roundScale sig scale + 149) ≤ 2 ^ (252 + 149) := pow_right_mono₀ (by decide) (by omega)
    omega
  · obtain ⟨htwo, htwo'⟩ := hnear.two_mul_bounds
    have htie := hnear.2
    rw [ht, Int.abs_eq_natAbs, ← Nat.cast_mul] at htie
    rw [ht] at htwo htwo' hlt hle ⊢
    omega
  · have hpow : 2 ^ (254 + 149) ≤ 2 ^ (roundScale sig scale + 149) := pow_right_mono₀ (by decide) (by omega)
    omega

/-- No datum is nearer to the exact value than the kept significand, and one as near is a tie. -/
theorem roundKept_nearest {z : Int} (hz : AtScale (roundScale sig scale) z) :
    |(magnitudeValue (roundMagnitude sig scale) : Int) - (sig * 2 ^ scale : Nat)| ≤ |z - (sig * 2 ^ scale : Nat)| ∧
    (|(magnitudeValue (roundMagnitude sig scale) : Int) - (sig * 2 ^ scale : Nat)| = |z - (sig * 2 ^ scale : Nat)| →
      z ≠ magnitudeValue (roundMagnitude sig scale) → roundKept sig scale % 2 = 0) := by
  have hnear := nearestEven_roundKept sig scale
  have hcast : ((2 ^ (roundScale sig scale + 149) : Nat) : Int) = 2 ^ (roundScale sig scale + 149) := by push_cast; rfl
  rw [magnitudeValue_roundMagnitude hsig, Nat.cast_mul]
  rcases hz with hdvd | ⟨ht, hsmall⟩
  · rw [← hcast] at hdvd
    exact hnear.nearest hdvd
  · have hle := roundScale_le_mul_two_pow hsig scale ht
    obtain ⟨hleast, -⟩ := hnear.nearest (z := ((2 ^ 23 * 2 ^ (roundScale sig scale + 149) : Nat) : Int))
      (Int.natCast_dvd_natCast.mpr (Nat.dvd_mul_left (2 ^ (roundScale sig scale + 149)) (2 ^ 23)))
    have hfar : |((2 ^ 23 * 2 ^ (roundScale sig scale + 149) : Nat) : Int) - (sig * 2 ^ scale : Nat)| <
        |z - (sig * 2 ^ scale : Nat)| := by
      rw [← hcast] at hsmall
      rw [Int.abs_eq_natAbs] at hsmall
      rw [Int.abs_eq_natAbs, Int.abs_eq_natAbs]
      omega
    exact ⟨(hleast.trans_lt hfar).le, fun heq => absurd heq (hleast.trans_lt hfar).ne⟩

end

/-! ### fma32 (R905) -/

section
variable (sign : Bool) {m : Nat} (hm : m < 2 ^ 31)
include hm

theorem toNat_fPattern : (fPattern sign m).toNat = (if sign then 2 ^ 31 else 0) + m := by
  rw [fPattern, BitVec.toNat_ofNat]
  split <;> omega

theorem fSign_fPattern : fSign (fPattern sign m) = sign := by
  rw [fSign_eq, toNat_fPattern sign hm]
  cases sign
  · simpa using hm
  · simp

theorem toNat_fPattern_mod : (fPattern sign m).toNat % 2 ^ 31 = m := by
  rw [toNat_fPattern sign hm]
  split <;> omega

theorem fValue_fPattern : fValue (fPattern sign m) = withSign sign (magnitudeValue m) := by
  rw [fValue_eq, fSign_fPattern sign hm, toNat_fPattern_mod sign hm]

theorem fFinite_fPattern (hfinite : m < 255 * 2 ^ 23) : fFinite (fPattern sign m) = true := by
  rw [fFinite, fExp_eq, toNat_fPattern_mod sign hm, bne_iff_ne]
  omega

/-- The hidden bit is even. -/
theorem fSig_fPattern_mod : fSig (fPattern sign m) % 2 = m % 2 := by
  rw [fSig, fFrac_eq, toNat_fPattern_mod sign hm]
  split <;> omega

end

section
variable (sign : Bool) {sig scale : Nat}

theorem fRound_of_overflow (hsig : sig ≠ 0) (h : (2 ^ 25 - 1) * 2 ^ 401 ≤ sig * 2 ^ scale) :
    fRound sign sig scale = fInf sign := by
  rw [fRound_eq, if_pos ((roundMagnitude_overflow_iff hsig scale).mpr h)]

theorem roundMagnitude_lt (hsig : sig ≠ 0) (h : sig * 2 ^ scale < (2 ^ 25 - 1) * 2 ^ 401) :
    roundMagnitude sig scale < 255 * 2 ^ 23 :=
  lt_of_not_ge fun hge => absurd ((roundMagnitude_overflow_iff hsig scale).mp hge) h.not_ge

theorem fRound_of_lt (hsig : sig ≠ 0) (h : sig * 2 ^ scale < (2 ^ 25 - 1) * 2 ^ 401) :
    fRound sign sig scale = fPattern sign (roundMagnitude sig scale) := by
  rw [fRound_eq, if_neg (roundMagnitude_lt hsig h).not_ge]

/-- Short of overflow no datum is nearer to the exact value than fRound's, and where one is as near its significand is even. -/
theorem fRound_nearest (hsig : sig ≠ 0) (h : sig * 2 ^ scale < (2 ^ 25 - 1) * 2 ^ 401) (y : Word) :
    |fValue (fRound sign sig scale) - withSign sign (sig * 2 ^ scale)| ≤ |fValue y - withSign sign (sig * 2 ^ scale)| ∧
    (|fValue (fRound sign sig scale) - withSign sign (sig * 2 ^ scale)| = |fValue y - withSign sign (sig * 2 ^ scale)| →
      fValue y ≠ fValue (fRound sign sig scale) → fSig (fRound sign sig scale) % 2 = 0) := by
  have hfinite := roundMagnitude_lt hsig h
  have hm : roundMagnitude sig scale < 2 ^ 31 := by omega
  have hparity : roundMagnitude sig scale % 2 = roundKept sig scale % 2 := by
    rw [roundMagnitude]
    omega
  have hy := atScale_fValue (roundScale sig scale) y
  rw [fRound_of_lt sign hsig h, fSig_fPattern_mod sign hm, hparity, fValue_fPattern sign hm]
  cases sign with
  | false => exact roundKept_nearest hsig scale hy
  | true =>
    obtain ⟨hle, htie⟩ := roundKept_nearest hsig scale hy.neg
    have hflip (z w : Int) : |z - -w| = |-z - w| :=
      (abs_neg (z - -w)).symm.trans (congrArg abs (by ring))
    simp only [withSign, if_true, hflip, neg_neg]
    exact ⟨hle, fun heq hne => htie heq fun h => hne (neg_eq_iff_eq_neg.mp h)⟩

end

/-- The exact value by the sign and the magnitude of its significand. -/
theorem fExact_eq_withSign (a b c : Word) :
    fExact a b c = withSign (decide (fmaSum a b c < 0)) ((fmaSum a b c).natAbs * 2 ^ fmaScale a b c) := by
  rw [fExact_eq, withSign]
  rcases lt_or_ge (fmaSum a b c) 0 with hneg | hpos
  · rw [decide_eq_true hneg, if_pos rfl, Nat.cast_mul, Int.ofNat_natAbs_of_nonpos hneg.le, neg_mul, neg_neg]
    push_cast
    rfl
  · rw [decide_eq_false hpos.not_gt, if_neg Bool.false_ne_true, Nat.cast_mul, Int.natAbs_of_nonneg hpos]
    push_cast
    rfl

theorem fma32_of_sum_zero {a b c : Word} (ha : fFinite a = true) (hb : fFinite b = true) (hc : fFinite c = true)
    (h : fmaSum a b c = 0) : ∃ sign, fma32 a b c = fPattern sign 0 := by
  obtain ⟨hnc, hic⟩ := (fFinite_iff c).mp hc
  rw [fma32_of_finite c ha hb hnc, hic, if_neg Bool.false_ne_true, fmaFinite_eq, if_pos h]
  exact ⟨_, rfl⟩

theorem fma32_of_sum_ne_zero {a b c : Word} (ha : fFinite a = true) (hb : fFinite b = true) (hc : fFinite c = true)
    (h : fmaSum a b c ≠ 0) :
    fma32 a b c = fRound (decide (fmaSum a b c < 0)) (fmaSum a b c).natAbs (fmaScale a b c) := by
  obtain ⟨hnc, hic⟩ := (fFinite_iff c).mp hc
  rw [fma32_of_finite c ha hb hnc, hic, if_neg Bool.false_ne_true, fmaFinite_eq, if_neg h]

theorem abs_withSign (sign : Bool) (v : Nat) : |withSign sign v| = v := by
  cases sign
  · exact Nat.abs_cast v
  · exact (abs_neg _).trans (Nat.abs_cast v)

/-- Half a unit beyond the largest finite datum, as an integer and as a number. -/
theorem overflowBound_cast : ((2 ^ 25 - 1) * 2 ^ 401 : Int) = (((2 ^ 25 - 1) * 2 ^ 401 : Nat) : Int) := by
  rw [Nat.cast_mul, Nat.cast_pow]
  rfl

/-- A signed magnitude beyond a positive bound has the bound's sign. -/
theorem withSign_ge {sign : Bool} {v n : Nat} (hn : 0 < n) (h : (n : Int) ≤ withSign sign v) : sign = false ∧ n ≤ v := by
  cases sign
  · exact ⟨rfl, Int.ofNat_le.mp h⟩
  · have hneg : (n : Int) ≤ -(v : Int) := h
    omega

theorem withSign_le_neg {sign : Bool} {v n : Nat} (hn : 0 < n) (h : withSign sign v ≤ -(n : Int)) :
    sign = true ∧ n ≤ v := by
  cases sign
  · have hpos : (v : Int) ≤ -(n : Int) := h
    omega
  · exact ⟨rfl, Int.ofNat_le.mp (neg_le_neg_iff.mp h)⟩

/-- Settles O49: an exact zero is exact; another sum is rounded once by its significand and scale. -/
theorem fmaRoundsOnceToNearestEven : Obligations.FmaRoundsOnceToNearestEven := by
  intro a b c ha hb hc
  rw [overflowBound_cast]
  have hbound : 0 < (2 ^ 25 - 1) * 2 ^ 401 := by positivity
  generalize hB : (2 ^ 25 - 1) * 2 ^ 401 = bound at hbound
  by_cases hzero : fmaSum a b c = 0
  · have hexact := (fmaSum_eq_zero_iff a b c).mp hzero
    obtain ⟨sign, hfma⟩ := fma32_of_sum_zero ha hb hc hzero
    have hvalue : fValue (fPattern sign 0) = 0 := by cases sign <;> rfl
    rw [hfma, hexact, hvalue, sub_self, abs_zero]
    refine ⟨fun _ => ⟨fFinite_fPattern sign (by decide) (by decide), fun y _ => ?_⟩, fun h => ?_, fun h => ?_⟩
    · rw [sub_zero]
      exact ⟨abs_nonneg _, fun h hne => absurd (abs_eq_zero.mp h.symm) hne⟩
    · omega
    · omega
  · have hsig : (fmaSum a b c).natAbs ≠ 0 := Int.natAbs_ne_zero.mpr hzero
    rw [fma32_of_sum_ne_zero ha hb hc hzero, fExact_eq_withSign, abs_withSign]
    generalize (fmaSum a b c).natAbs = sig at hsig
    generalize fmaScale a b c = scale
    generalize decide (fmaSum a b c < 0) = sign
    refine ⟨fun h => ?_, fun h => ?_, fun h => ?_⟩
    · have hlt : sig * 2 ^ scale < (2 ^ 25 - 1) * 2 ^ 401 := hB ▸ Int.ofNat_lt.mp h
      have hfinite := roundMagnitude_lt hsig hlt
      refine ⟨?_, fun y _ => fRound_nearest sign hsig hlt y⟩
      rw [fRound_of_lt sign hsig hlt]
      exact fFinite_fPattern sign (hfinite.trans (by decide)) hfinite
    · obtain ⟨rfl, hle⟩ := withSign_ge hbound h
      exact fRound_of_overflow false hsig (hB ▸ hle)
    · obtain ⟨rfl, hle⟩ := withSign_le_neg hbound h
      exact fRound_of_overflow true hsig (hB ▸ hle)

end Sys2Proof.Machine
end
